-- ==== Sys2Proof/Word.lean ====
section
/-! DEFINITION. The two word types and the byte strings of the block (00_scope.md rule R10). -/

namespace Sys2Proof

/-- A byte: 8 bits (rule R10). The ring's element type `ELEM` is a byte (rule R6). -/
abbrev Byte := BitVec 8

/-- A 32-bit word: command words, argument words and register values (rules R50, R101). -/
abbrev Word := BitVec 32

/-- A byte string: a finite sequence of bytes (rule R10). -/
abbrev Bytes := List Byte

end Sys2Proof
end

