-- ==== Sys2Proof/Config.lean ====
section
/-! DEFINITION. The parameters the specification leaves to the implementation (00_scope.md rule R6, 93 U3).
The model takes them as arguments: they travel as a constant part of the state, which no operation
changes (assumption log 1). -/

namespace Sys2Proof

/-- The OPEN parameters of rule R6 and the sentinel rows that 93 U3 says are arguments of the model. -/
structure Params where
  /-- `C`, the ring capacity in elements. -/
  ringCap : Nat
  /-- `MAX_LEN`, the largest message length the parser accepts. -/
  maxLen : Nat
  /-- `NCH_MAX`, the largest channel count. -/
  nchMax : Nat
  /-- `STG_CAP`, the capacity of one staging buffer in bytes; `none` is unbounded. -/
  stgCap : Option Nat
  /-- `SENT[2]`. -/
  sent2 : Bytes
  /-- `SENT[3]`. -/
  sent3 : Bytes
  /-- `SENT[4]`. -/
  sent4 : Bytes
  /-- `ALT_PAT`, which is `SENT[5]`. -/
  altPat : Bytes
deriving DecidableEq, Repr

/-- The constraints rule R6 puts on the parameters, and the width of the sentinel rows (rule R99). -/
abbrev Params.Ok (p : Params) : Prop :=
  (1 ≤ p.ringCap ∧ p.ringCap < 2 ^ 31)
    ∧ (12 ≤ p.maxLen ∧ p.maxLen ≤ 2 ^ 31 - 1)
    ∧ (1 ≤ p.nchMax ∧ p.nchMax ≤ 256)
    ∧ p.stgCap.all (fun cap => decide (1 ≤ cap)) = true
    ∧ (p.sent2.length = 8 ∧ p.sent3.length = 8 ∧ p.sent4.length = 8)
    ∧ (p.altPat = List.replicate 8 0xAA#8 ∨ p.altPat = List.replicate 8 0x55#8)

/-- The sentinel rows 2, 3 and 4 have the values rule R99 completes them with. A claim that rests on
these rows takes this as a hypothesis, as rule R99 asks. -/
abbrev Params.SentinelsOfTable (p : Params) : Prop :=
  p.sent2 = [0xDE#8, 0xFA#8, 0xDE#8, 0xFA#8, 0xDE#8, 0xFA#8, 0xDE#8, 0xFA#8]
    ∧ p.sent3 = [0xDE#8, 0xAD#8, 0xDE#8, 0xAD#8, 0xDE#8, 0xAD#8, 0xDE#8, 0xAD#8]
    ∧ p.sent4 = [0xAD#8, 0xDE#8, 0xAD#8, 0xDE#8, 0xAD#8, 0xDE#8, 0xAD#8, 0xDE#8]

/-- The values the test vectors use (rule R6, 95_test_vectors.md). DESIGN CHOICE, assumption log 2:
rule R6 leaves `C`, `MAX_LEN`, `NCH_MAX`, `STG_CAP` OPEN; no statement rests on these numbers. -/
def Params.vectors : Params where
  ringCap := 4
  maxLen := 64
  nchMax := 4
  stgCap := none
  sent2 := [0xDE#8, 0xFA#8, 0xDE#8, 0xFA#8, 0xDE#8, 0xFA#8, 0xDE#8, 0xFA#8]
  sent3 := [0xDE#8, 0xAD#8, 0xDE#8, 0xAD#8, 0xDE#8, 0xAD#8, 0xDE#8, 0xAD#8]
  sent4 := [0xAD#8, 0xDE#8, 0xAD#8, 0xDE#8, 0xAD#8, 0xDE#8, 0xAD#8, 0xDE#8]
  altPat := [0xAA#8, 0xAA#8, 0xAA#8, 0xAA#8, 0xAA#8, 0xAA#8, 0xAA#8, 0xAA#8]

end Sys2Proof
end

