-- ==== Sys2Proof/Syntax.lean ====
section
/-! DEFINITION. The operations of the block: one constructor per row of spec/opcode_table.json
(30_encoding.md rule R105), with the operands rule R103 gives its format. -/

namespace Sys2Proof

/-- One operation with its operands. -/
inductive Instr where
  /-- `CSR.RD addr` (rule R230). -/
  | csrRd (addr : BitVec 16)
  /-- `CSR.WR addr, value` (rule R231). -/
  | csrWr (addr : BitVec 16) (value : Word)
  /-- `RB.PUSH item` (rule R121). -/
  | rbPush (item : Byte)
  /-- `RB.PUSHR b0 ... b(n-1)` (rule R122). -/
  | rbPushr (items : Bytes)
  /-- `RB.POP` (rule R123). -/
  | rbPop
  /-- `RB.POPN min, max` (rule R124). -/
  | rbPopn (min max : Word)
  /-- `RB.QUIT` (rule R125). -/
  | rbQuit
  /-- `RB.RESET` (rule R126). -/
  | rbReset
  /-- `FP.START` (rule R141). -/
  | fpStart
  /-- `FP.ITER` (rule R142). -/
  | fpIter
  /-- `FP.RESET` (rule R143). -/
  | fpReset
  /-- `CFG.COMMIT` (rule R171). -/
  | cfgCommit
  /-- `CLE.RESET` (rule R173). -/
  | cleReset
  /-- `STG.APPEND ch, b0 ... b(n-1)` (rule R174). -/
  | stgAppend (ch : BitVec 8) (bytes : Bytes)
  /-- `DMX.XC f` (rule R180). -/
  | dmxXc (frame : Bytes)
  /-- `DMX.CC f` (rule R181). -/
  | dmxCc (frame : Bytes)
  /-- `DMX.ROW f` (rule R182). -/
  | dmxRow (frame : Bytes)
  /-- `DMX.RC f` (rule R183). -/
  | dmxRc (frame : Bytes)
  /-- `MUX.XC` (rule R191). -/
  | muxXc
  /-- `MUX.CC` (rule R192). -/
  | muxCc
  /-- `MUX.ROW` (rule R193). -/
  | muxRow
  /-- `MUX.RC` (rule R194). -/
  | muxRc
  /-- `IDLE.CHK b0 ... b(n-1)` (rule R221). -/
  | idleChk (payload : Bytes)
deriving DecidableEq, Repr

end Sys2Proof
end

