-- ==== Sys2Proof/WellFormed.lean ====
section
/-! DEFINITION. Which operations a command can carry: the `n` field that counts the operand bytes of
format `D` has 16 bits (30_encoding.md rule R103). Every other operand has its width in its type. -/

namespace Sys2Proof

/-- The operation's operand bytes fit the `n` field of its command word, `0 <= n <= 65535`. -/
abbrev Instr.WellFormed : Instr → Prop
  | .csrRd _ => True
  | .csrWr _ _ => True
  | .rbPush _ => True
  | .rbPushr items => items.length ≤ 65535
  | .rbPop => True
  | .rbPopn _ _ => True
  | .rbQuit => True
  | .rbReset => True
  | .fpStart => True
  | .fpIter => True
  | .fpReset => True
  | .cfgCommit => True
  | .cleReset => True
  | .stgAppend _ bytes => bytes.length ≤ 65535
  | .dmxXc frame => frame.length ≤ 65535
  | .dmxCc frame => frame.length ≤ 65535
  | .dmxRow frame => frame.length ≤ 65535
  | .dmxRc frame => frame.length ≤ 65535
  | .muxXc => True
  | .muxCc => True
  | .muxRow => True
  | .muxRc => True
  | .idleChk payload => payload.length ≤ 65535

end Sys2Proof
end

