-- ==== Sys2Proof/Decode.lean ====
section
/-! DEFINITION. Commands, the decoder and the encoder (30_encoding.md Part B, rules R101 to R106). The
decoder is total; a command it does not accept is rejected by name. -/

namespace Sys2Proof

/-- One command as it is issued: the command word, the argument words and the operand bytes that
follow it (rule R101). -/
structure Command where
  word : Word
  args : List Word
  operand : Bytes
deriving DecidableEq, Repr

/-- The operation named by an `op` code (rule R105). -/
inductive Op where
  | csrRd | csrWr
  | rbPush | rbPushr | rbPop | rbPopn | rbQuit | rbReset
  | fpStart | fpIter | fpReset
  | cfgCommit | cleReset | stgAppend
  | dmxXc | dmxCc | dmxRow | dmxRc
  | muxXc | muxCc | muxRow | muxRc
  | idleChk
deriving DecidableEq, Repr

/-- The five command formats (rule R103). -/
inductive Format where
  | Z | I | D | M | R
deriving DecidableEq, Repr

/-- Why a command word is illegal (rule R106). -/
inductive Illegal where
  /-- The `op` field is none of rule R105's. -/
  | unassignedOp
  /-- A must-be-zero bit of a legal `op` is set. -/
  | mustBeZero
deriving DecidableEq, Repr

/-- What the decoder answers. -/
inductive Decoded where
  /-- The command carries this operation. -/
  | instr (i : Instr)
  /-- The command word is illegal; it is answered `BAD_CMD` (rule R106). -/
  | illegal (why : Illegal)
  /-- The command word is legal but the number of argument words or operand bytes that came with it is
  not the one its `op` and `n` give (rule R104): this is no command (assumption log 5). -/
  | malformed
deriving DecidableEq, Repr

/-! ## The command word (rule R102) -/

/-- `op`, bits 31 to 24. -/
def opField (w : Word) : BitVec 8 := w.extractLsb' 24 8

/-- `ch`, bits 23 to 16. -/
def chField (w : Word) : BitVec 8 := w.extractLsb' 16 8

/-- `n`, bits 15 to 0. -/
def nField (w : Word) : BitVec 16 := w.extractLsb' 0 16

/-- `item`, bits 7 to 0 of `n` (format `I`). -/
def itemField (w : Word) : Byte := w.extractLsb' 0 8

/-- `n[15:8]`, which format `I` requires to be zero. -/
def nHighField (w : Word) : BitVec 8 := w.extractLsb' 8 8

/-- The command word with the three given fields. -/
def commandWord (op ch : BitVec 8) (n : BitVec 16) : Word :=
  (op ++ ch ++ n : BitVec 32)

/-! ## The operation codes and their formats (rules R103, R105) -/

/-- The operation code. -/
def Op.code : Op → BitVec 8
  | .csrRd => 0x01#8
  | .csrWr => 0x02#8
  | .rbPush => 0x10#8
  | .rbPushr => 0x11#8
  | .rbPop => 0x12#8
  | .rbPopn => 0x13#8
  | .rbQuit => 0x14#8
  | .rbReset => 0x15#8
  | .fpStart => 0x20#8
  | .fpIter => 0x21#8
  | .fpReset => 0x22#8
  | .cfgCommit => 0x30#8
  | .cleReset => 0x31#8
  | .stgAppend => 0x32#8
  | .dmxXc => 0x38#8
  | .dmxCc => 0x39#8
  | .dmxRow => 0x3A#8
  | .dmxRc => 0x3B#8
  | .muxXc => 0x3C#8
  | .muxCc => 0x3D#8
  | .muxRow => 0x3E#8
  | .muxRc => 0x3F#8
  | .idleChk => 0x40#8

/-- The format of the operation's command. -/
def Op.format : Op → Format
  | .csrRd => .R
  | .csrWr => .R
  | .rbPush => .I
  | .rbPushr => .D
  | .rbPop => .Z
  | .rbPopn => .M
  | .rbQuit => .Z
  | .rbReset => .Z
  | .fpStart => .Z
  | .fpIter => .Z
  | .fpReset => .Z
  | .cfgCommit => .Z
  | .cleReset => .Z
  | .stgAppend => .D
  | .dmxXc => .D
  | .dmxCc => .D
  | .dmxRow => .D
  | .dmxRc => .D
  | .muxXc => .Z
  | .muxCc => .Z
  | .muxRow => .Z
  | .muxRc => .Z
  | .idleChk => .D

/-- All operations, in the order of rule R105. -/
def Op.all : List Op :=
  [.csrRd, .csrWr, .rbPush, .rbPushr, .rbPop, .rbPopn, .rbQuit, .rbReset,
    .fpStart, .fpIter, .fpReset, .cfgCommit, .cleReset, .stgAppend,
    .dmxXc, .dmxCc, .dmxRow, .dmxRc, .muxXc, .muxCc, .muxRow, .muxRc, .idleChk]

/-- The operation an `op` field names, if any (rule R105). -/
def Op.ofCode (c : BitVec 8) : Option Op := Op.all.find? (fun o => o.code == c)

/-- The number of argument words that follow the command word (rule R103). -/
def Op.argWords (o : Op) : Nat :=
  match o.format with
  | .Z => 0
  | .I => 0
  | .D => 0
  | .M => 2
  | .R => if o = .csrWr then 1 else 0

/-- The number of operand bytes that follow: `n` for format `D`, otherwise none (rules R103, R104). -/
def Op.operandBytes (o : Op) (w : Word) : Nat :=
  match o.format with
  | .Z => 0
  | .I => 0
  | .D => (nField w).toNat
  | .M => 0
  | .R => 0

/-- The must-be-zero bits of the command word are zero (rule R103). -/
def Op.zerosOk (o : Op) (w : Word) : Bool :=
  match o.format with
  | .Z => chField w == 0#8 && nField w == 0#16
  | .I => chField w == 0#8 && nHighField w == 0#8
  | .D => o == .stgAppend || chField w == 0#8
  | .M => chField w == 0#8 && nField w == 0#16
  | .R => chField w == 0#8

/-- The operation with the operands of a command (rule R103, operand assembly). -/
def Op.build (o : Op) (c : Command) : Instr :=
  match o with
  | .csrRd => .csrRd (nField c.word)
  | .csrWr => .csrWr (nField c.word) (c.args.getD 0 0#32)
  | .rbPush => .rbPush (itemField c.word)
  | .rbPushr => .rbPushr c.operand
  | .rbPop => .rbPop
  | .rbPopn => .rbPopn (c.args.getD 0 0#32) (c.args.getD 1 0#32)
  | .rbQuit => .rbQuit
  | .rbReset => .rbReset
  | .fpStart => .fpStart
  | .fpIter => .fpIter
  | .fpReset => .fpReset
  | .cfgCommit => .cfgCommit
  | .cleReset => .cleReset
  | .stgAppend => .stgAppend (chField c.word) c.operand
  | .dmxXc => .dmxXc c.operand
  | .dmxCc => .dmxCc c.operand
  | .dmxRow => .dmxRow c.operand
  | .dmxRc => .dmxRc c.operand
  | .muxXc => .muxXc
  | .muxCc => .muxCc
  | .muxRow => .muxRow
  | .muxRc => .muxRc
  | .idleChk => .idleChk c.operand

/-- The list has exactly this many elements. -/
def hasLength {α : Type} : List α → Nat → Bool
  | [], 0 => true
  | [], _ + 1 => false
  | _ :: _, 0 => false
  | _ :: t, n + 1 => hasLength t n

/-- The decoder (rules R102 to R106). -/
def decode (c : Command) : Decoded :=
  match Op.ofCode (opField c.word) with
  | none => .illegal .unassignedOp
  | some o =>
    if o.zerosOk c.word then
      if hasLength c.args o.argWords && hasLength c.operand (o.operandBytes c.word) then
        .instr (o.build c)
      else .malformed
    else .illegal .mustBeZero

/-! ## The encoder, from the same tables -/

/-- The operation's name. -/
def Instr.op : Instr → Op
  | .csrRd _ => .csrRd
  | .csrWr _ _ => .csrWr
  | .rbPush _ => .rbPush
  | .rbPushr _ => .rbPushr
  | .rbPop => .rbPop
  | .rbPopn _ _ => .rbPopn
  | .rbQuit => .rbQuit
  | .rbReset => .rbReset
  | .fpStart => .fpStart
  | .fpIter => .fpIter
  | .fpReset => .fpReset
  | .cfgCommit => .cfgCommit
  | .cleReset => .cleReset
  | .stgAppend _ _ => .stgAppend
  | .dmxXc _ => .dmxXc
  | .dmxCc _ => .dmxCc
  | .dmxRow _ => .dmxRow
  | .dmxRc _ => .dmxRc
  | .muxXc => .muxXc
  | .muxCc => .muxCc
  | .muxRow => .muxRow
  | .muxRc => .muxRc
  | .idleChk _ => .idleChk

/-- A command of format `D`: the `n` field counts the operand bytes (rule R103). -/
def encodeD (o : Op) (ch : BitVec 8) (operand : Bytes) : Command :=
  ⟨commandWord o.code ch (BitVec.ofNat 16 operand.length), [], operand⟩

/-- A command of format `Z` (rule R103). -/
def encodeZ (o : Op) : Command := ⟨commandWord o.code 0#8 0#16, [], []⟩

/-- The command that carries an operation (rules R102 to R105). -/
def encode : Instr → Command
  | .csrRd addr => ⟨commandWord Op.csrRd.code 0#8 addr, [], []⟩
  | .csrWr addr value => ⟨commandWord Op.csrWr.code 0#8 addr, [value], []⟩
  | .rbPush item => ⟨commandWord Op.rbPush.code 0#8 (item.setWidth 16), [], []⟩
  | .rbPushr items => encodeD .rbPushr 0#8 items
  | .rbPop => encodeZ .rbPop
  | .rbPopn min max => ⟨commandWord Op.rbPopn.code 0#8 0#16, [min, max], []⟩
  | .rbQuit => encodeZ .rbQuit
  | .rbReset => encodeZ .rbReset
  | .fpStart => encodeZ .fpStart
  | .fpIter => encodeZ .fpIter
  | .fpReset => encodeZ .fpReset
  | .cfgCommit => encodeZ .cfgCommit
  | .cleReset => encodeZ .cleReset
  | .stgAppend ch bytes => encodeD .stgAppend ch bytes
  | .dmxXc frame => encodeD .dmxXc 0#8 frame
  | .dmxCc frame => encodeD .dmxCc 0#8 frame
  | .dmxRow frame => encodeD .dmxRow 0#8 frame
  | .dmxRc frame => encodeD .dmxRc 0#8 frame
  | .muxXc => encodeZ .muxXc
  | .muxCc => encodeZ .muxCc
  | .muxRow => encodeZ .muxRow
  | .muxRc => encodeZ .muxRc
  | .idleChk payload => encodeD .idleChk 0#8 payload

/-! ## A command given as one number, bit 0 the least significant bit of the command word -/

/-- The first `k` 32-bit words of a number, the least significant first. -/
def wordsOfBits : Nat → Nat → List Word
  | 0, _ => []
  | k + 1, w => BitVec.ofNat 32 w :: wordsOfBits k (w / 2 ^ 32)

/-- The first `k` bytes of a number, the least significant first. -/
def bytesOfBits : Nat → Nat → Bytes
  | 0, _ => []
  | k + 1, w => BitVec.ofNat 8 w :: bytesOfBits k (w / 2 ^ 8)

/-- The command laid out in a number: the command word in bits 31 to 0, then as many argument words
and operand bytes as its `op` and `n` give (rule R104); an unassigned `op` is taken as format `Z`
(rule R106). -/
def commandOfBits (w : Nat) : Command :=
  match Op.ofCode (opField (BitVec.ofNat 32 w)) with
  | none => ⟨BitVec.ofNat 32 w, [], []⟩
  | some o =>
    ⟨BitVec.ofNat 32 w, wordsOfBits o.argWords (w / 2 ^ 32),
      bytesOfBits (o.operandBytes (BitVec.ofNat 32 w)) (w / 2 ^ (32 + 32 * o.argWords))⟩

/-- The operation the decoder reads from the low `nbits` bits of `w`, the bits above them zero. -/
def decodeTableWord (nbits w : Nat) : Option Instr :=
  match decode (commandOfBits (w % 2 ^ nbits)) with
  | .instr i => some i
  | .illegal _ => none
  | .malformed => none

end Sys2Proof
end

