-- ==== Sys2Proof/Machine/State.lean ====
section
/-! DEFINITION. The state of the block (10_state.md), as plain data, and its value after reset (rule R52).
There is no memory addressed by bytes: the one addressable space is the register map of rule R50, whose
registers are the fields below (20_memory.md rules R60, R61). -/

namespace Sys2Proof.Machine

/-- The agents that issue operations (00_scope.md rule R8). `K` is the ring's consumer: the parser while
`fp.state = RUN`, an external consumer otherwise. -/
inductive Agent where
  /-- The producer of the ring. -/
  | P
  /-- The consumer of the ring. -/
  | K
  /-- The controller (host). -/
  | H
  /-- A channel producer `S_j`. -/
  | S (j : Nat)
  /-- The multiplexer thread. -/
  | X
  /-- The demultiplexer driver. -/
  | Y
  /-- The client of the idle detector. -/
  | I
deriving DecidableEq, Repr

/-- Why the machine stops where the specification gives a command no meaning at all. -/
inductive Fault where
  /-- Raised by issuing a command whose word is legal but which did not come with exactly the argument
  words and operand bytes its `op` and `n` give (rules R101, R104): it is no command, so no rule says
  what it does. Safe: the machine stops (assumption log 5). -/
  | malformedCommand
deriving DecidableEq, Repr

/-- Why the model gives a run no meaning. -/
inductive Refusal where
  /-- Raised by `exec` for an instruction that has no meaning yet. Safe. -/
  | notModelled (mnemonic : String)
  /-- Raised by every operation issued by an agent rule R8 does not list for it (93 U1, "refuse"). Safe. -/
  | outsideRole
  /-- Raised by `RB.POP`, `RB.POPN` while the parser runs or a consumer operation is held, by `FP.ITER`
  while a consumer operation is held, and by `FP.START` while an external pop is held: a second consumer
  of the ring (93 U1, "refuse"). Safe. -/
  | secondConsumer
  /-- Raised by issuing any operation as an agent whose earlier operation is still held: that agent is
  blocked (rule R12), so no run contains this (assumption log 6). Safe. -/
  | issuerHeld
deriving DecidableEq, Repr

/-- The status codes of a response (60_exceptions.md rule R241). -/
inductive Status where
  | ok | full | closed | badCmd | badAddr | cfgLocked | cfgInvalid | notConfigured | badOperand
  | stgFull | busy
deriving DecidableEq, Repr

/-- The response to one command and the agent it goes to (rules R9, R107). -/
structure Response where
  agent : Agent
  status : Status
  value : Word
  data : Bytes
deriving DecidableEq, Repr

/-- The ring buffer (rules R21 to R25). -/
structure Ring where
  /-- `rb.q`, oldest element first. -/
  q : Bytes
  /-- `rb.lost`. -/
  lost : Word
  /-- `rb.quit`. -/
  quit : Bool
deriving DecidableEq, Repr

/-- `fp.state` (rule R28). -/
inductive FpState where
  | idle | run | halted
deriving DecidableEq, Repr

/-- The cause of a framing error (rules R30, R243). -/
inductive Cause where
  | badLength | badTrailer
deriving DecidableEq, Repr

/-- The frame parser (rules R27 to R30). -/
structure Parser where
  /-- `fp.pb`, the parse buffer. -/
  pb : Bytes
  /-- `fp.state`. -/
  state : FpState
  /-- `fp.errcnt`. -/
  errcnt : Word
  /-- `fp.lasterr`; `none` is the code 0. -/
  lasterr : Option Cause
deriving DecidableEq, Repr

/-- The configuration registers `cfg.*` (rule R32), at the widths of rule R50. -/
structure LayoutConfig where
  channelCount : BitVec 9
  bigendian : Bool
  syncWord : Word
  sfidMin : Word
  sfidMax : Word
  frameLen : BitVec 16
  reservedLen : BitVec 16
  reservedSfidOffset : Word
  maxSfidCount : Word
deriving DecidableEq, Repr

/-- The channel layout engine (rules R32 to R36). -/
structure Layout where
  cfg : LayoutConfig
  /-- `cfg_valid`. -/
  valid : Bool
  /-- `cfg_locked`. -/
  locked : Bool
  /-- `stg[0]`, ..., `stg[NCH_MAX - 1]`. -/
  stg : List Bytes
  /-- `sfid_cur`. -/
  sfidCur : Word
deriving DecidableEq, Repr

/-- The output streams (rule R45), oldest element first. -/
structure Streams where
  msgOut : List Bytes
  fpLog : List (Cause × Int)
  frmOut : List Bytes
  /-- `DOUT[0]`, ..., `DOUT[NCH_MAX - 1]`. -/
  dout : List Bytes
  fwd : List Bytes
deriving DecidableEq, Repr

/-- An operation that can be held, with its operands (rule R42). -/
inductive HeldOp where
  | pop
  | popn (min max : Word)
  | iter
deriving DecidableEq, Repr

/-- A held operation and the agent that issued it (rule R42). -/
structure Held where
  agent : Agent
  op : HeldOp
deriving DecidableEq, Repr

/-- One entry of the total order in which things happen to the block (rule R72): the environment's
commands, the turns of the ring's consumer, and hardware reset (assumption log 3). -/
inductive Event where
  /-- The agent issues the command. -/
  | issue (agent : Agent) (command : Command)
  /-- The ring's consumer is scheduled: a held operation whose condition is true completes, a running
  parser with nothing held issues its `FP.ITER`. -/
  | turn
  /-- Hardware reset (rule R270). -/
  | reset
deriving DecidableEq, Repr

/-- The state of the block. -/
structure State where
  /-- The implementation parameters (rule R6); no operation changes them (assumption log 1). -/
  par : Params
  /-- The ring buffer `RB`. -/
  rb : Ring
  /-- The frame parser `FP`. -/
  fp : Parser
  /-- The channel layout engine `CLE`. -/
  cle : Layout
  /-- The set of held operations: empty or one (rule R42). -/
  held : Option Held
  /-- The output streams. -/
  out : Streams
  /-- The model's own: the agent whose operation is being performed (assumption log 3). -/
  issuer : Agent
  /-- The model's own: the responses given so far, oldest first (assumption log 4). -/
  responses : List Response
  /-- The model's own: what happens next, first first (assumption log 3). -/
  events : List Event
deriving DecidableEq, Repr

/-- The configuration registers after reset (rule R52). -/
def LayoutConfig.reset : LayoutConfig where
  channelCount := 0#9
  bigendian := false
  syncWord := 0#32
  sfidMin := 0#32
  sfidMax := 0#32
  frameLen := 0#16
  reservedLen := 0#16
  reservedSfidOffset := 0#32
  maxSfidCount := 32#32

/-- The block with the given parameters after reset (rule R52), nothing issued yet. -/
def State.resetWith (p : Params) : State where
  par := p
  rb := ⟨[], 0#32, false⟩
  fp := ⟨[], .idle, 0#32, none⟩
  cle := ⟨LayoutConfig.reset, false, false, List.replicate p.nchMax [], 0#32⟩
  held := none
  out := ⟨[], [], [], List.replicate p.nchMax [], []⟩
  issuer := .H
  responses := []
  events := []

/-- The block right after reset. The parameters are those of the test vectors (DESIGN CHOICE, assumption
log 2); every other field has the value of rule R52. -/
def State.reset : State := State.resetWith Params.vectors

end Sys2Proof.Machine
end

