-- ==== Sys2Proof/Machine/Operands.lean ====
section
/-! DEFINITION. The data encodings and the quantities the operations compute their operands from: integer
encodings (00_scope.md rule R11), the message and frame formats (30_encoding.md rules R91 to R99), the
byte-order primitives (20_memory.md rule R64), the quantities derived from the configuration (10_state.md
rule R33) and the row formulas (42_channel_layout.md rule R176). -/

namespace Sys2Proof.Machine

/-! ## Byte strings (rule R10) -/

/-- `s[a:b)`. -/
def slice (s : Bytes) (a b : Nat) : Bytes := (s.drop a).take (b - a)

/-- `last(k, s)`. -/
def lastBytes (k : Nat) (s : Bytes) : Bytes := s.drop (s.length - k)

/-- `zeros(k)` (rule R170). -/
def zeros (k : Nat) : Bytes := List.replicate k 0x00#8

/-- Byte `i` of a string; used only below its length. -/
def byteAt (s : Bytes) (i : Nat) : Byte := s.getD i 0x00#8

/-! ## Integer encodings (rule R11) -/

/-- `dec_be(s)`. -/
def decBe (s : Bytes) : Nat := s.foldl (fun v b => v * 256 + b.toNat) 0

/-- `enc_be(k, v)`. -/
def encBe : Nat → Nat → Bytes
  | 0, _ => []
  | k + 1, v => encBe k (v / 256) ++ [BitVec.ofNat 8 v]

/-- `be32(s)`. -/
def be32 (s : Bytes) : Nat := decBe s

/-- `sbe32(s)`: the same four bytes read as a two's-complement integer. -/
def sbe32 (s : Bytes) : Int := if be32 s < 2 ^ 31 then (be32 s : Int) else (be32 s : Int) - 2 ^ 32

/-! ## The message format (rules R91, R92) -/

/-- `HDR_MAGIC` (rule R6). -/
def hdrMagic : Nat := 1234567890

/-- `TRL_MAGIC` as the 32-bit two's-complement number that encodes -1234567890 (rule R92). -/
def trlMagic : Nat := 2 ^ 32 - 1234567890

/-- `HDR_BYTES`, `49 96 02 D2`. -/
def hdrBytes : Bytes := encBe 4 hdrMagic

/-- `TRL_BYTES`, `B6 69 FD 2E`. -/
def trlBytes : Bytes := encBe 4 trlMagic

/-- The shortest message: header, length and trailer around an empty payload (rule R93). -/
def minLen : Nat := 12

/-- `find_hdr(s)`: the least offset at which the header bytes stand (rule R145). -/
def findHdr : Bytes → Option Nat
  | [] => none
  | b :: t => if (b :: t).take 4 = hdrBytes then some 0 else (findHdr t).map (· + 1)

/-! ## The payload byte order (rule R64) -/

/-- `w16(a, b)` under `cfg.bigendian`. -/
def w16 (be : Bool) (a b : Byte) : Bytes := if be then [a, b] else [b, a]

/-- `swap_run(s)`: `w16` on each consecutive pair, an odd last byte unchanged. -/
def swapRun (be : Bool) : Bytes → Bytes
  | a :: b :: t => w16 be a b ++ swapRun be t
  | [a] => [a]
  | [] => []

/-! ## Fixed parameters of the frame (rule R6) and the filler (rule R98) -/

/-- `SYNC_LEN`. -/
def syncLen : Nat := 4

/-- `SFID_LEN`. -/
def sfidLen : Nat := 2

/-- `filler(k)`: `FA` at even offsets, `DE` at odd ones. -/
def filler : Nat → Bytes
  | 0 => []
  | 1 => [0xFA#8]
  | k + 2 => 0xFA#8 :: 0xDE#8 :: filler k

/-! ## The idle sentinels (rule R99) -/

/-- `SENT`. Rows 0 and 1 are the source's; rows 2 to 5 are parameters (93 U3). -/
def sentinels (p : Params) : List Bytes :=
  [ [0x00#8, 0x00#8, 0x00#8, 0x00#8, 0x00#8, 0x00#8, 0x00#8, 0x00#8],
    [0xFA#8, 0xDE#8, 0xFA#8, 0xDE#8, 0xFA#8, 0xDE#8, 0xFA#8, 0xDE#8],
    p.sent2, p.sent3, p.sent4, p.altPat ]

/-- `is_idle(p)` (43_idle_detector.md rule R220). -/
def isIdle (par : Params) (payload : Bytes) : Bool :=
  decide (payload.length < 8) || (sentinels par).contains (payload.take 8)

/-! ## Quantities derived from the configuration (rule R33) -/

/-- `N`. -/
def LayoutConfig.n (c : LayoutConfig) : Nat := c.channelCount.toNat

/-- `FL`. -/
def LayoutConfig.fl (c : LayoutConfig) : Nat := c.frameLen.toNat

/-- `RL`. -/
def LayoutConfig.rl (c : LayoutConfig) : Nat := c.reservedLen.toNat

/-- `RSO`. -/
def LayoutConfig.rso (c : LayoutConfig) : Nat := c.reservedSfidOffset.toNat

/-- `MSC`. -/
def LayoutConfig.msc (c : LayoutConfig) : Nat := c.maxSfidCount.toNat

/-- `P0`, the offset of the payload region. -/
def LayoutConfig.p0 (c : LayoutConfig) : Nat := syncLen + sfidLen + c.rl

/-- `PL`, the length of the payload region. -/
def LayoutConfig.pl (c : LayoutConfig) : Nat := c.fl - c.p0

/-- `W`, the number of whole words in the payload region. -/
def LayoutConfig.w (c : LayoutConfig) : Nat := c.pl / 2

/-- `bpc`, the bytes per channel of column-continuous. -/
def LayoutConfig.bpc (c : LayoutConfig) : Nat := c.pl / c.n

/-- `rpc`, the rows per channel of row-continuous. -/
def LayoutConfig.rpc (c : LayoutConfig) : Nat := (c.msc - c.rso) / c.n

/-- `cnt(c)`: how many words of a column-cross payload belong to channel `ch` (rules R180, R191). -/
def LayoutConfig.cnt (c : LayoutConfig) (ch : Nat) : Nat := (c.w - ch + c.n - 1) / c.n

/-- Check 5: `MSC >= RSO` and `rpc >= 1` (rule R176). -/
def LayoutConfig.check5 (c : LayoutConfig) : Bool := decide (c.rso ≤ c.msc) && decide (1 ≤ c.rpc)

/-- `row_ch(s)` (rule R176). -/
def LayoutConfig.rowCh (c : LayoutConfig) (s : Nat) : Option Nat :=
  if s < c.rso then none else some ((s - c.rso) % c.n)

/-- `rc_ch(s)`, used only when check 5 holds (rule R176). -/
def LayoutConfig.rcCh (c : LayoutConfig) (s : Nat) : Option Nat :=
  if s < c.rso then none
  else if (s - c.rso) / c.rpc < c.n then some ((s - c.rso) / c.rpc) else none

/-- The number of the first failing check of `CFG.COMMIT`, in the order of rule R172. -/
def LayoutConfig.firstFailure (par : Params) (c : LayoutConfig) : Option Nat :=
  if ¬ (1 ≤ c.n ∧ c.n ≤ par.nchMax) then some 1
  else if ¬ (syncLen + sfidLen + c.rl + 2 * c.n < c.fl) then some 2
  else if ¬ (c.sfidMin.toNat ≤ c.sfidMax.toNat) then some 3
  else if ¬ (c.sfidMax.toNat < 2 ^ (8 * sfidLen)) then some 4
  else none

/-- `next_sfid(s)` (rule R190). -/
def LayoutConfig.nextSfid (c : LayoutConfig) (s : Word) : Word :=
  if s = c.sfidMax then c.sfidMin else s + 1#32

/-- The SFID a frame carries (rule R97). -/
def frameSfid (f : Bytes) : Nat := decBe (slice f syncLen (syncLen + sfidLen))

/-- The bytes of a frame before its payload region (rules R94, R185). -/
def LayoutConfig.head (c : LayoutConfig) (sfid : Word) : Bytes :=
  encBe syncLen c.syncWord.toNat ++ encBe sfidLen sfid.toNat ++ zeros c.rl

/-- The payload region of a frame. -/
def LayoutConfig.payload (c : LayoutConfig) (f : Bytes) : Bytes := slice f c.p0 c.fl

end Sys2Proof.Machine
end

