-- ==== Sys2Proof/Machine/Flags.lean ====
section
/-! DEFINITION. The status values computed from the state (10_state.md rules R23, R41, R50), the numbers of
the status and cause codes (60_exceptions.md rules R241, R243), and the saturating count (00_scope.md rule
R12). -/

namespace Sys2Proof.Machine

/-- `sat_inc(c) = min(c + 1, 2^CNT_W - 1)`, `CNT_W = 32`. -/
def satInc (c : Word) : Word := if c = BitVec.allOnes 32 then c else c + 1#32

/-- `FULL` (rule R41). -/
def State.full (s : State) : Bool := s.rb.q.length == s.par.ringCap

/-- `EMPTY` (rule R41). -/
def State.empty (s : State) : Bool := s.rb.q.length == 0

/-- One bit of a register. -/
def bit (b : Bool) : Nat := if b then 1 else 0

/-- The code of `fp.state` (rule R28). -/
def FpState.code : FpState → Nat
  | .idle => 0
  | .run => 1
  | .halted => 2

/-- The code of a framing error (rule R243). -/
def Cause.code : Cause → Nat
  | .badLength => 1
  | .badTrailer => 2

/-- The code of `fp.lasterr` (rule R30). -/
def lasterrCode : Option Cause → Nat
  | none => 0
  | some c => c.code

/-- The number of a status (rule R241). -/
def Status.code : Status → BitVec 8
  | .ok => 0#8
  | .full => 1#8
  | .closed => 2#8
  | .badCmd => 3#8
  | .badAddr => 4#8
  | .cfgLocked => 5#8
  | .cfgInvalid => 6#8
  | .notConfigured => 7#8
  | .badOperand => 8#8
  | .stgFull => 9#8
  | .busy => 10#8

/-- Register `RB_STAT` (rule R50). -/
def State.rbStat (s : State) : Word :=
  BitVec.ofNat 32 (bit s.rb.quit + 2 * bit s.full + 4 * bit s.empty)

/-- Register `FP_STAT` (rule R50). -/
def State.fpStat (s : State) : Word :=
  BitVec.ofNat 32 (s.fp.state.code + 4 * lasterrCode s.fp.lasterr)

/-- Register `CLE_STAT` (rule R50). -/
def State.cleStat (s : State) : Word :=
  BitVec.ofNat 32 (bit s.cle.valid + 2 * bit s.cle.locked)

/-- The response as words, before its data (rule R107). -/
def Response.words (r : Response) : List Word := [r.status.code.setWidth 32, r.value]

end Sys2Proof.Machine
end

