-- ==== Sys2Proof/Machine/Ops.lean ====
section
/-! DEFINITION. The operations on the state that the meanings share: responding and raising an error
(00_scope.md rule R12, 60_exceptions.md rule R253), the roles of the agents (00_scope.md rule R8), the
consumer port and holding (rules R42, R127), appending to streams (rule R45), and the register map (rules
R50, R51). -/

namespace Sys2Proof.Machine

/-- The outcome of one operation or one step. -/
abbrev Result := Host.Outcome State Fault Refusal

/-! ## Updates of one part of the state -/

/-- The state with another ring. -/
def State.withRing (s : State) (r : Ring) : State := { s with rb := r }

/-- The state with another parser. -/
def State.withParser (s : State) (p : Parser) : State := { s with fp := p }

/-- The state with another layout engine. -/
def State.withLayout (s : State) (l : Layout) : State := { s with cle := l }

/-- The state with another set of held operations. -/
def State.withHeld (s : State) (h : Option Held) : State := { s with held := h }

/-- The state with other streams. -/
def State.withOut (s : State) (o : Streams) : State := { s with out := o }

/-- The state in which another agent's operation is performed. -/
def State.withIssuer (s : State) (a : Agent) : State := { s with issuer := a }

/-- The state with another list of events to come. -/
def State.withEvents (s : State) (e : List Event) : State := { s with events := e }

/-! ## Responding (rules R9, R107) and raising an error (rules R12, R253) -/

/-- `respond(status, value, data)`: the operation ends and its issuer receives the response. -/
def State.respond (s : State) (status : Status) (value : Word) (data : Bytes) : State :=
  { s with responses := s.responses ++ [⟨s.issuer, status, value, data⟩] }

/-- `raise status(value)`: no further state change; the operation ends with the error response. This is
all there is to "trap entry" (rule R253); there is no return operation (rule R254). -/
def State.raiseError (s : State) (status : Status) (value : Nat) : State :=
  s.respond status (BitVec.ofNat 32 value) []

/-- An operation that ends `OK` with a value and no data. -/
def State.respondOk (s : State) (value : Nat) : State := s.respond .ok (BitVec.ofNat 32 value) []

/-! ## Roles (rule R8, the "Issued by" lines, 93 U1) -/

/-- The agents rule R8 lists for an operation, with rule R142 (`FP.ITER` by `H` acting as `K`) and rule
R125 (`RB.QUIT` by any agent). -/
def mayIssue : Op → Agent → Bool
  | .csrRd, _ => true
  | .csrWr, a => a == .H
  | .rbPush, a => a == .P
  | .rbPushr, a => a == .P
  | .rbPop, a => a == .K
  | .rbPopn, a => a == .K
  | .rbQuit, _ => true
  | .rbReset, a => a == .H
  | .fpStart, a => a == .H
  | .fpIter, a => a == .K || a == .H
  | .fpReset, a => a == .H
  | .cfgCommit, a => a == .H
  | .cleReset, a => a == .H
  | .stgAppend, .S _ => true
  | .stgAppend, _ => false
  | .dmxXc, a => a == .Y
  | .dmxCc, a => a == .Y
  | .dmxRow, a => a == .Y
  | .dmxRc, a => a == .Y
  | .muxXc, a => a == .X
  | .muxCc, a => a == .X
  | .muxRow, a => a == .X
  | .muxRc, a => a == .X
  | .idleChk, a => a == .I

/-- An operation issued outside its role is an undefined access, which the model refuses (93 U1). -/
def byRole (o : Op) (s : State) (r : Result) : Result :=
  if mayIssue o s.issuer then r else .refused .outsideRole

/-! ## The consumer port: hold until the condition is true (rules R42, R127) -/

/-- The condition a consumer operation is held until (rules R123, R124, R142). -/
def HeldOp.ready (op : HeldOp) (r : Ring) : Bool :=
  match op with
  | .pop => decide (0 < r.q.length) || r.quit
  | .popn min _ => decide (min.toNat ≤ r.q.length) || r.quit
  | .iter => decide (0 < r.q.length) || r.quit

/-- Issue a consumer operation: performed at once if its condition is true, held otherwise. The ring has
one consumer, so a second one is an undefined access, which the model refuses (rule R42, 93 U1); a host
`FP.ITER` is answered `BUSY` before it comes here (rule R241). -/
def consume (op : HeldOp) (finish : State → State) (s : State) : Result :=
  match s.held with
  | some _ => .refused .secondConsumer
  | none =>
    if op.ready s.rb then .next (finish s)
    else .next (s.withHeld (some ⟨s.issuer, op⟩))

/-- An external pop is held (rule R141). -/
def State.externalPopHeld (s : State) : Bool :=
  match s.held with
  | none => false
  | some h =>
    match h.op with
    | .pop => true
    | .popn _ _ => true
    | .iter => false

/-- The condition of `BUSY` (rules R42, R126, R241): a ring operation is held or the parser runs. -/
def State.consumerBusy (s : State) : Bool :=
  s.held.isSome || s.fp.state == .run

/-! ## Buffers indexed by channel, and the streams (rules R35, R45) -/

/-- The byte string of one channel. -/
def channel (l : List Bytes) (c : Nat) : Bytes := l.getD c []

/-- Append to the byte string of one channel. -/
def appendAt (l : List Bytes) (c : Nat) (b : Bytes) : List Bytes := l.modify c (· ++ b)

/-- `emit(FRM_OUT, f)`. -/
def Streams.emitFrame (o : Streams) (f : Bytes) : Streams := { o with frmOut := o.frmOut ++ [f] }

/-- `emit(FWD, p)`. -/
def Streams.emitForward (o : Streams) (p : Bytes) : Streams := { o with fwd := o.fwd ++ [p] }

/-! ## The register map (rule R50) -/

/-- A register of the map. -/
inductive Csr where
  | rbUsed | rbLost | rbCap | rbStat
  | fpStat | fpErrcnt | fpPblen
  | cfgChcnt | cfgFlags | cfgSync | cfgSfidmin | cfgSfidmax | cfgFramelen | cfgRsvlen | cfgRso | cfgMsc
  | cleStat | cleSfid
  | stgLen (c : Nat)
deriving DecidableEq, Repr

/-- The register at a word address; `none` is an unassigned address. -/
def csrAt (par : Params) (a : BitVec 16) : Option Csr :=
  if a = 0x0010#16 then some .rbUsed
  else if a = 0x0011#16 then some .rbLost
  else if a = 0x0012#16 then some .rbCap
  else if a = 0x0013#16 then some .rbStat
  else if a = 0x0020#16 then some .fpStat
  else if a = 0x0021#16 then some .fpErrcnt
  else if a = 0x0022#16 then some .fpPblen
  else if a = 0x0030#16 then some .cfgChcnt
  else if a = 0x0031#16 then some .cfgFlags
  else if a = 0x0032#16 then some .cfgSync
  else if a = 0x0033#16 then some .cfgSfidmin
  else if a = 0x0034#16 then some .cfgSfidmax
  else if a = 0x0035#16 then some .cfgFramelen
  else if a = 0x0036#16 then some .cfgRsvlen
  else if a = 0x0037#16 then some .cfgRso
  else if a = 0x0038#16 then some .cfgMsc
  else if a = 0x0039#16 then some .cleStat
  else if a = 0x003A#16 then some .cleSfid
  else if 0x0100 ≤ a.toNat ∧ a.toNat < 0x0100 + par.nchMax then some (.stgLen (a.toNat - 0x0100))
  else none

/-- `MemRead(a, 4)`: the register's current value, bits outside its field 0 (rules R50, R51). -/
def Csr.read (r : Csr) (s : State) : Word :=
  match r with
  | .rbUsed => BitVec.ofNat 32 s.rb.q.length
  | .rbLost => s.rb.lost
  | .rbCap => BitVec.ofNat 32 s.par.ringCap
  | .rbStat => s.rbStat
  | .fpStat => s.fpStat
  | .fpErrcnt => s.fp.errcnt
  | .fpPblen => BitVec.ofNat 32 s.fp.pb.length
  | .cfgChcnt => s.cle.cfg.channelCount.setWidth 32
  | .cfgFlags => BitVec.ofNat 32 (bit s.cle.cfg.bigendian)
  | .cfgSync => s.cle.cfg.syncWord
  | .cfgSfidmin => s.cle.cfg.sfidMin
  | .cfgSfidmax => s.cle.cfg.sfidMax
  | .cfgFramelen => s.cle.cfg.frameLen.setWidth 32
  | .cfgRsvlen => s.cle.cfg.reservedLen.setWidth 32
  | .cfgRso => s.cle.cfg.reservedSfidOffset
  | .cfgMsc => s.cle.cfg.maxSfidCount
  | .cleStat => s.cleStat
  | .cleSfid => s.cle.sfidCur
  | .stgLen c => BitVec.ofNat 32 (min (channel s.cle.stg c).length (2 ^ 32 - 1))

/-- `MemWrite(a, 4, v)`: the register's field becomes the field's bits of `v`, the other bits are ignored
(rule R51); `none` for a read-only register. -/
def Csr.write (r : Csr) (v : Word) (c : LayoutConfig) : Option LayoutConfig :=
  match r with
  | .cfgChcnt => some { c with channelCount := v.setWidth 9 }
  | .cfgFlags => some { c with bigendian := v.getLsbD 0 }
  | .cfgSync => some { c with syncWord := v }
  | .cfgSfidmin => some { c with sfidMin := v }
  | .cfgSfidmax => some { c with sfidMax := v }
  | .cfgFramelen => some { c with frameLen := v.setWidth 16 }
  | .cfgRsvlen => some { c with reservedLen := v.setWidth 16 }
  | .cfgRso => some { c with reservedSfidOffset := v }
  | .cfgMsc => some { c with maxSfidCount := v }
  | .rbUsed => none
  | .rbLost => none
  | .rbCap => none
  | .rbStat => none
  | .fpStat => none
  | .fpErrcnt => none
  | .fpPblen => none
  | .cleStat => none
  | .cleSfid => none
  | .stgLen _ => none

end Sys2Proof.Machine
end

