-- ==== Sys2Proof/Machine/ChannelLayout.lean ====
section
/-! DEFINITION. The channel layout engine operations (42_channel_layout.md). -/

namespace Sys2Proof.Machine

/-! ## Configuration, session and staging -/

/-- `CFG.COMMIT` (rules R171, R172). -/
def execCfgCommit (s : State) : Result :=
  byRole .cfgCommit s <|
    if s.cle.locked then .next (s.raiseError .cfgLocked 0)
    else
      match s.cle.cfg.firstFailure s.par with
      | some i => .next (s.raiseError .cfgInvalid i)
      | none =>
        .next ((s.withLayout
          { s.cle with valid := true, locked := true, sfidCur := s.cle.cfg.sfidMin }).respondOk 0)

/-- `CLE.RESET` (rule R173). -/
def execCleReset (s : State) : Result :=
  byRole .cleReset s <|
    .next ((s.withLayout
      { s.cle with
        valid := false, locked := false, stg := s.cle.stg.map (fun _ => []), sfidCur := 0#32 }).respondOk 0)

/-- A chunk of `n` more bytes does not fit a staging buffer that holds `used` (rule R174); never, when
`STG_CAP` is unbounded. -/
def stgOverflows (par : Params) (used n : Nat) : Bool :=
  match par.stgCap with
  | none => false
  | some cap => decide (cap < used + n)

/-- `STG.APPEND ch, b0 ... b(n-1)` (rule R174). -/
def execStgAppend (ch : BitVec 8) (bytes : Bytes) (s : State) : Result :=
  byRole .stgAppend s <|
    if ¬ s.cle.valid then .next (s.raiseError .notConfigured 0)
    else if s.cle.cfg.n ≤ ch.toNat then .next (s.raiseError .badOperand 0)
    else if stgOverflows s.par (channel s.cle.stg ch.toNat).length bytes.length then
      .next (s.raiseError .stgFull 0)
    else
      .next ((s.withLayout { s.cle with stg := appendAt s.cle.stg ch.toNat bytes }).respondOk 0)

/-! ## Demultiplexing -/

/-- The checks common to the demultiplex operations (rule R175). -/
def demux (frame : Bytes) (s : State) (r : Result) : Result :=
  if ¬ s.cle.valid then .next (s.raiseError .notConfigured 0)
  else if frame.length ≠ s.cle.cfg.fl then .next (s.raiseError .badOperand 0)
  else r

/-- The state whose channel output streams are replaced. -/
def State.withDout (s : State) (d : List Bytes) : State := s.withOut { s.out with dout := d }

/-- The words of a payload routed to the channels in turn (rule R180). -/
def routeWords (c : LayoutConfig) (frame : Bytes) (dout : List Bytes) : List Bytes :=
  (List.range c.w).foldl
    (fun d i =>
      appendAt d (i % c.n)
        (w16 c.bigendian (byteAt frame (c.p0 + 2 * i)) (byteAt frame (c.p0 + 2 * i + 1))))
    dout

/-- `DMX.XC f` (rule R180). -/
def execDmxXc (frame : Bytes) (s : State) : Result :=
  byRole .dmxXc s <| demux frame s <|
    .next ((s.withDout (routeWords s.cle.cfg frame s.out.dout)).respondOk 0)

/-- The blocks of a payload appended to the channels (rule R181). -/
def routeBlocks (c : LayoutConfig) (frame : Bytes) (dout : List Bytes) : List Bytes :=
  (List.range c.n).foldl
    (fun d ch => appendAt d ch (slice frame (c.p0 + ch * c.bpc) (c.p0 + (ch + 1) * c.bpc)))
    dout

/-- `DMX.CC f` (rule R181). -/
def execDmxCc (frame : Bytes) (s : State) : Result :=
  byRole .dmxCc s <| demux frame s <|
    .next ((s.withDout (routeBlocks s.cle.cfg frame s.out.dout)).respondOk 0)

/-- A whole row's payload given to one channel, or the row ignored (rules R182, R183). -/
def routeRow (ch : Option Nat) (frame : Bytes) (s : State) : State :=
  match ch with
  | none => s.respond .ok 0xFFFFFFFF#32 []
  | some c =>
    (s.withDout
      (appendAt s.out.dout c (swapRun s.cle.cfg.bigendian (s.cle.cfg.payload frame)))).respondOk c

/-- `DMX.ROW f` (rule R182). -/
def execDmxRow (frame : Bytes) (s : State) : Result :=
  byRole .dmxRow s <| demux frame s <|
    .next (routeRow (s.cle.cfg.rowCh (frameSfid frame)) frame s)

/-- `DMX.RC f` (rule R183). -/
def execDmxRc (frame : Bytes) (s : State) : Result :=
  byRole .dmxRc s <| demux frame s <|
    if s.cle.cfg.check5 then .next (routeRow (s.cle.cfg.rcCh (frameSfid frame)) frame s)
    else .next (s.raiseError .cfgInvalid 5)

/-! ## Multiplexing (rule R185) -/

/-- Some channel has fewer staged bytes than the frame needs of it (rules R185, R186). -/
def State.short (s : State) (need : Nat → Nat) : Bool :=
  (List.range s.cle.cfg.n).any (fun c => decide ((channel s.cle.stg c).length < need c))

/-- The staging buffers with the needed bytes removed from the front of each channel `c < N`. -/
def takeNeeded (n : Nat) (need : Nat → Nat) (stg : List Bytes) : List Bytes :=
  stg.mapIdx (fun c b => if c < n then b.drop (need c) else b)

/-- The frame leaves, the SFID advances, the response says whether the frame is idle (rule R185). -/
def State.emitBuilt (s : State) (payload : Bytes) (idle : Nat) : State :=
  ((s.withOut (s.out.emitFrame (s.cle.cfg.head s.cle.sfidCur ++ payload))).withLayout
    { s.cle with sfidCur := s.cle.cfg.nextSfid s.cle.sfidCur }).respondOk idle

/-- The common part of the multiplex operations (rule R185): an idle frame if the row belongs to no
channel or a needed channel is short, else a data frame made of the needed bytes. -/
def buildFrame (unassigned : Bool) (need : Nat → Nat) (place : (Nat → Bytes) → Bytes) (s : State) :
    State :=
  if unassigned || s.short need then s.emitBuilt (filler s.cle.cfg.pl) 1
  else
    (s.withLayout { s.cle with stg := takeNeeded s.cle.cfg.n need s.cle.stg }).emitBuilt
      (place (fun c => (channel s.cle.stg c).take (need c))) 0

/-- `place` of column-cross (rule R191). -/
def placeWords (c : LayoutConfig) (u : Nat → Bytes) : Bytes :=
  (List.range c.w).flatMap
      (fun i =>
        w16 c.bigendian (byteAt (u (i % c.n)) (2 * (i / c.n))) (byteAt (u (i % c.n)) (2 * (i / c.n) + 1)))
    ++ zeros (c.pl % 2)

/-- `MUX.XC` (rule R191). -/
def execMuxXc (s : State) : Result :=
  byRole .muxXc s <|
    if ¬ s.cle.valid then .next (s.raiseError .notConfigured 0)
    else .next (buildFrame false (fun c => 2 * s.cle.cfg.cnt c) (placeWords s.cle.cfg) s)

/-- `place` of column-continuous (rule R192). -/
def placeBlocks (c : LayoutConfig) (u : Nat → Bytes) : Bytes :=
  (List.range c.n).flatMap u ++ zeros (c.pl - c.n * c.bpc)

/-- `MUX.CC` (rule R192). -/
def execMuxCc (s : State) : Result :=
  byRole .muxCc s <|
    if ¬ s.cle.valid then .next (s.raiseError .notConfigured 0)
    else .next (buildFrame false (fun _ => s.cle.cfg.bpc) (placeBlocks s.cle.cfg) s)

/-- The frame of a row that belongs to the given channel, or to none (rules R193, R194). -/
def buildRow (ch : Option Nat) (s : State) : State :=
  match ch with
  | none => buildFrame true (fun _ => 0) (fun _ => []) s
  | some own =>
    buildFrame false (fun c => if c = own then s.cle.cfg.pl else 0)
      (fun u => swapRun s.cle.cfg.bigendian (u own)) s

/-- `MUX.ROW` (rule R193). -/
def execMuxRow (s : State) : Result :=
  byRole .muxRow s <|
    if ¬ s.cle.valid then .next (s.raiseError .notConfigured 0)
    else .next (buildRow (s.cle.cfg.rowCh s.cle.sfidCur.toNat) s)

/-- `MUX.RC` (rule R194). -/
def execMuxRc (s : State) : Result :=
  byRole .muxRc s <|
    if ¬ s.cle.valid then .next (s.raiseError .notConfigured 0)
    else if s.cle.cfg.check5 then .next (buildRow (s.cle.cfg.rcCh s.cle.sfidCur.toNat) s)
    else .next (s.raiseError .cfgInvalid 5)

end Sys2Proof.Machine
end

