-- ==== Sys2Proof/Machine/CsrAccess.lean ====
section
/-! DEFINITION. The register access operations (44_csr_access.md). -/

namespace Sys2Proof.Machine

/-- `CSR.RD addr` (rule R230). -/
def execCsrRd (addr : BitVec 16) (s : State) : Result :=
  byRole .csrRd s <|
    match csrAt s.par addr with
    | none => .next (s.raiseError .badAddr 0)
    | some r => .next (s.respond .ok (r.read s) [])

/-- `CSR.WR addr, value` (rule R231): the address is tested before the lock. -/
def execCsrWr (addr : BitVec 16) (value : Word) (s : State) : Result :=
  byRole .csrWr s <|
    match (csrAt s.par addr).bind (fun r => r.write value s.cle.cfg) with
    | none => .next (s.raiseError .badAddr 0)
    | some cfg =>
      if s.cle.locked then .next (s.raiseError .cfgLocked 0)
      else .next ((s.withLayout { s.cle with cfg := cfg }).respondOk 0)

end Sys2Proof.Machine
end

