-- ==== Sys2Proof/Machine/Scan.lean ====
section
/-! DEFINITION. The scan of the parse buffer (41_frame_parser.md rules R145 to R153): a total function of
the buffer and `MAX_LEN`. -/

namespace Sys2Proof.Machine

/-- How one pass of the scan's loop ends. -/
inductive Pass where
  /-- Leave the loop with this buffer (S1, S3, S5). -/
  | stop (rest : Bytes)
  /-- Emit a message and go on with the rest (S6, match). -/
  | message (m rest : Bytes)
  /-- Report a framing error and go on with the rest (S4, S6 mismatch). -/
  | report (cause : Cause) (len : Int) (rest : Bytes)
deriving DecidableEq, Repr

/-- Steps S3 to S6 of one pass, on a buffer that begins with the header (rule R146). -/
def passAtHeader (maxLen : Nat) (b : Bytes) : Pass :=
  if b.length < 8 then .stop b
  else
    let len := sbe32 (slice b 4 8)
    if len < (minLen : Int) ∨ (maxLen : Int) < len then .report .badLength len (b.drop 4)
    else if b.length < len.toNat then .stop b
    else if slice b (len.toNat - 4) len.toNat = trlBytes then
      .message (b.take len.toNat) (b.drop len.toNat)
    else .report .badTrailer len (b.drop 4)

/-- One pass of the scan's loop (rule R146). -/
def scanPass (maxLen : Nat) (pb : Bytes) : Pass :=
  match findHdr pb with
  | none => .stop (lastBytes (min 3 pb.length) pb)
  | some h => passAtHeader maxLen (pb.drop h)

/-- What a scan emits, what it reports and the buffer it leaves (rule R156). -/
structure ScanResult where
  msgs : List Bytes
  reports : List (Cause × Int)
  rest : Bytes
deriving DecidableEq, Repr

/-- The scan's loop, at most `fuel` passes. -/
def scanLoop (maxLen : Nat) : Nat → Bytes → ScanResult
  | 0, pb => ⟨[], [], pb⟩
  | fuel + 1, pb =>
    match scanPass maxLen pb with
    | .stop rest => ⟨[], [], rest⟩
    | .message m rest =>
      let r := scanLoop maxLen fuel rest
      { r with msgs := m :: r.msgs }
    | .report cause len rest =>
      let r := scanLoop maxLen fuel rest
      { r with reports := (cause, len) :: r.reports }

/-- `SCAN()` (rule R146). Every pass that does not leave the loop removes at least four bytes (rule R153),
so a pass for every byte and one more is enough. -/
def scan (maxLen : Nat) (pb : Bytes) : ScanResult := scanLoop maxLen (pb.length + 1) pb

end Sys2Proof.Machine
end

