-- ==== Sys2Proof/Machine/FrameParser.lean ====
section
/-! DEFINITION. The frame parser operations (41_frame_parser.md). -/

namespace Sys2Proof.Machine

/-- `FP.START` (rule R141). An external pop that is held would make two consumers (93 U1). -/
def execFpStart (s : State) : Result :=
  byRole .fpStart s <|
    if s.externalPopHeld then .refused .secondConsumer
    else .next ((s.withParser { s.fp with state := .run }).respondOk 0)

/-- The parser after the scan has emitted, reported and trimmed (rules R145, R152). -/
def Parser.afterScan (p : Parser) (r : ScanResult) : Parser where
  pb := r.rest
  state := p.state
  errcnt := r.reports.foldl (fun c _ => satInc c) p.errcnt
  lasterr := r.reports.foldl (fun _ e => some e.1) p.lasterr

/-- The streams after the scan. -/
def Streams.afterScan (o : Streams) (r : ScanResult) : Streams :=
  { o with msgOut := o.msgOut ++ r.msgs, fpLog := o.fpLog ++ r.reports }

/-- What `FP.ITER` does once its condition is true (rule R142): the pop, and the scan of the parse buffer
with the batch appended, or the halt on the closed result. -/
def finishIter (s : State) : State :=
  let batch := s.rb.q
  let t := s.withRing { s.rb with q := [] }
  if batch.length = 0 then (t.withParser { s.fp with state := .halted }).raiseError .closed 0
  else
    let r := scan s.par.maxLen (s.fp.pb ++ batch)
    ((t.withParser (s.fp.afterScan r)).withOut (s.out.afterScan r)).respondOk 0

/-- `FP.ITER` (rule R142). A host iteration answers `BUSY` while the parser runs and, as rule R241 says,
while a ring operation is held (DEDUCED, assumption log 8: rule R142 does not treat the second case). -/
def execFpIter (s : State) : Result :=
  byRole .fpIter s <|
    if s.issuer = .H ∧ s.consumerBusy then .next (s.raiseError .busy 0)
    else consume .iter finishIter s

/-- `FP.RESET` (rule R143). It answers `BUSY` under every held operation, as rules R42 and R241 say; rules R143
and R271 name a held `FP.ITER` only, and following the former two is the model's choice (DESIGN CHOICE,
assumption log 20). -/
def execFpReset (s : State) : Result :=
  byRole .fpReset s <|
    if s.consumerBusy then .next (s.raiseError .busy 0)
    else .next ((s.withParser ⟨[], .idle, 0#32, none⟩).respondOk 0)

end Sys2Proof.Machine
end

