-- ==== Sys2Proof/Machine/IdleDetector.lean ====
section
/-! DEFINITION. The idle-frame detector operation (43_idle_detector.md). -/

namespace Sys2Proof.Machine

/-- `IDLE.CHK b0 ... b(n-1)` (rule R221). -/
def execIdleChk (payload : Bytes) (s : State) : Result :=
  byRole .idleChk s <|
    if isIdle s.par payload then .next (s.respondOk 1)
    else .next ((s.withOut (s.out.emitForward payload)).respondOk 0)

end Sys2Proof.Machine
end

