-- ==== Sys2Proof/Machine/RingBuffer.lean ====
section
/-! DEFINITION. The ring buffer operations (40_ring_buffer.md). -/

namespace Sys2Proof.Machine

/-- `RB.PUSH item` (rule R121). -/
def execRbPush (item : Byte) (s : State) : Result :=
  byRole .rbPush s <|
    if s.rb.q.length < s.par.ringCap then
      .next ((s.withRing { s.rb with q := s.rb.q ++ [item] }).respondOk 1)
    else
      .next ((s.withRing { s.rb with lost := satInc s.rb.lost }).raiseError .full 0)

/-- `RB.PUSHR b0 ... b(n-1)` (rule R122). -/
def execRbPushr (items : Bytes) (s : State) : Result :=
  byRole .rbPushr s <|
    let k := min items.length (s.par.ringCap - s.rb.q.length)
    .next ((s.withRing { s.rb with q := s.rb.q ++ items.take k }).respondOk k)

/-- What `RB.POP` does once its condition is true (rule R123). -/
def finishPop (s : State) : State :=
  let batch := s.rb.q
  let t := s.withRing { s.rb with q := [] }
  if 0 < batch.length then t.respond .ok (BitVec.ofNat 32 batch.length) batch
  else t.raiseError .closed 0

/-- `RB.POP` (rule R123). While the parser runs it is the consumer, and a pop is a second one (93 U1). -/
def execRbPop (s : State) : Result :=
  byRole .rbPop s <|
    if s.fp.state = .run then .refused .secondConsumer else consume .pop finishPop s

/-- What `RB.POPN min, max` does once its condition is true (rule R124). -/
def finishPopn (min max : Word) (s : State) : State :=
  if min.toNat ≤ s.rb.q.length then
    let k := Nat.min s.rb.q.length max.toNat
    (s.withRing { s.rb with q := s.rb.q.drop k }).respond .ok (BitVec.ofNat 32 k) (s.rb.q.take k)
  else s.raiseError .closed 0

/-- `RB.POPN min, max` (rule R124). -/
def execRbPopn (min max : Word) (s : State) : Result :=
  byRole .rbPopn s <|
    if s.fp.state = .run then .refused .secondConsumer
    else consume (.popn min max) (finishPopn min max) s

/-- `RB.QUIT` (rule R125). -/
def execRbQuit (s : State) : Result :=
  byRole .rbQuit s <| .next ((s.withRing { s.rb with quit := true }).respondOk 0)

/-- `RB.RESET` (rule R126). -/
def execRbReset (s : State) : Result :=
  byRole .rbReset s <|
    if s.consumerBusy then .next (s.raiseError .busy 0)
    else .next ((s.withRing ⟨[], 0#32, false⟩).respondOk 0)

end Sys2Proof.Machine
end

