-- ==== Sys2Proof/Machine/Dispatch.lean ====
section
/-! DEFINITION. The operation issued by `s.issuer`, one arm per operation. -/

namespace Sys2Proof.Machine

def exec (i : Instr) (s : State) : Host.Outcome State Fault Refusal :=
  match i with
  | .csrRd addr => Sys2Proof.Machine.execCsrRd addr s
  | .csrWr addr value => Sys2Proof.Machine.execCsrWr addr value s
  | .rbPush item => Sys2Proof.Machine.execRbPush item s
  | .rbPushr items => Sys2Proof.Machine.execRbPushr items s
  | .rbPop => Sys2Proof.Machine.execRbPop s
  | .rbPopn min max => Sys2Proof.Machine.execRbPopn min max s
  | .rbQuit => Sys2Proof.Machine.execRbQuit s
  | .rbReset => Sys2Proof.Machine.execRbReset s
  | .fpStart => Sys2Proof.Machine.execFpStart s
  | .fpIter => Sys2Proof.Machine.execFpIter s
  | .fpReset => Sys2Proof.Machine.execFpReset s
  | .cfgCommit => Sys2Proof.Machine.execCfgCommit s
  | .cleReset => Sys2Proof.Machine.execCleReset s
  | .stgAppend ch bytes => Sys2Proof.Machine.execStgAppend ch bytes s
  | .dmxXc frame => Sys2Proof.Machine.execDmxXc frame s
  | .dmxCc frame => Sys2Proof.Machine.execDmxCc frame s
  | .dmxRow frame => Sys2Proof.Machine.execDmxRow frame s
  | .dmxRc frame => Sys2Proof.Machine.execDmxRc frame s
  | .muxXc => Sys2Proof.Machine.execMuxXc s
  | .muxCc => Sys2Proof.Machine.execMuxCc s
  | .muxRow => Sys2Proof.Machine.execMuxRow s
  | .muxRc => Sys2Proof.Machine.execMuxRc s
  | .idleChk payload => Sys2Proof.Machine.execIdleChk payload s

end Sys2Proof.Machine
end

