-- ==== Sys2Proof/Machine/Issue.lean ====
section
/-! DEFINITION. What one entry of the total order of events does (20_memory.md rule R72): a command issued
by an agent (rules R101, R106), a turn of the ring's consumer (rules R127, R144), hardware reset (rule
R270); and the event by which a given command word is issued. -/

namespace Sys2Proof.Machine

/-- The agent has an operation that is held: it is blocked (rule R12). -/
def State.blocked (s : State) (a : Agent) : Bool :=
  match s.held with
  | none => false
  | some h => h.agent == a

/-- An agent issues a command (rules R101, R106): an illegal command is answered `BAD_CMD` and changes no
state and no stream; a legal one is performed. -/
def issue (a : Agent) (c : Command) (s : State) : Result :=
  if s.blocked a then .refused .issuerHeld
  else
    match decode c with
    | .instr i => exec i (s.withIssuer a)
    | .illegal _ => .next ((s.withIssuer a).raiseError .badCmd 0)
    | .malformed => .fault .malformedCommand

/-- What a held operation does once its condition is true. -/
def HeldOp.finish (op : HeldOp) (s : State) : State :=
  match op with
  | .pop => finishPop s
  | .popn min max => finishPopn min max s
  | .iter => finishIter s

/-- The ring's consumer is scheduled. A held operation whose condition is true stops being held and is
performed for the agent that issued it (rules R72, R127); while it is false there is no step (rule R12).
With nothing held, a running parser issues its next `FP.ITER` (rule R144); otherwise nobody has a step. -/
def consumerTurn (s : State) : Result :=
  match s.held with
  | some h =>
    if h.op.ready s.rb then .next (h.op.finish ((s.withHeld none).withIssuer h.agent))
    else .next s
  | none =>
    if s.fp.state = .run then execFpIter (s.withIssuer .K)
    else .next s

/-- Hardware reset (rule R270): every piece of state at its reset value, held operations discarded without
a response, the streams emptied. The parameters stay, and so does what the environment does next. -/
def hardwareReset (s : State) : State := (State.resetWith s.par).withEvents s.events

/-- The agent rule R8 lists first for an operation. -/
def defaultIssuer : Op → Agent
  | .csrRd => .H
  | .csrWr => .H
  | .rbPush => .P
  | .rbPushr => .P
  | .rbPop => .K
  | .rbPopn => .K
  | .rbQuit => .H
  | .rbReset => .H
  | .fpStart => .H
  | .fpIter => .H
  | .fpReset => .H
  | .cfgCommit => .H
  | .cleReset => .H
  | .stgAppend => .S 0
  | .dmxXc => .Y
  | .dmxCc => .Y
  | .dmxRow => .Y
  | .dmxRc => .Y
  | .muxXc => .X
  | .muxCc => .X
  | .muxRow => .X
  | .muxRc => .X
  | .idleChk => .I

/-- The event by which a command given as a number is issued: by an agent in its role, or, for a word that
names no operation, by the controller. -/
def issueOfBits (nbits w : Nat) : Event :=
  let c := commandOfBits (w % 2 ^ nbits)
  match Op.ofCode (opField c.word) with
  | none => .issue .H c
  | some o => .issue (defaultIssuer o) c

end Sys2Proof.Machine
end

