-- ==== Sys2Proof/Machine/Step.lean ====
section
/-! DEFINITION. One step of the block: the next event of the total order (20_memory.md rule R72), or, when
the environment issues nothing more, a turn of the ring's consumer (assumption log 3). -/

namespace Sys2Proof.Machine

def step (s : State) : Host.Outcome State Fault Refusal :=
  match s.events with
  | [] => consumerTurn s
  | .turn :: rest => consumerTurn (s.withEvents rest)
  | .reset :: rest => .next (hardwareReset (s.withEvents rest))
  | .issue a c :: rest => issue a c (s.withEvents rest)

/-- The state in which the command laid out in the low `nbits` bits of `w` is issued next, by an agent in
its role (assumption log 7). -/
def State.withFetchWord (s : State) (nbits w : Nat) : State :=
  s.withEvents (issueOfBits nbits w :: s.events)

end Sys2Proof.Machine
end

