-- ==== Sys2Proof/Safety.lean ====
section
/-! DEFINITION. The invariant of the block, in the terms the statements use: what holds after reset and
what every step keeps. Each part names the rule of spec/ it follows. All parts are decidable. -/

namespace Sys2Proof.Machine

/-- The header bytes stand nowhere in the string. -/
abbrev NoHeader (b : Bytes) : Prop := ∀ i < b.length, (b.drop i).take 4 ≠ hdrBytes

/-- Form (a) of rule R31. -/
abbrev BufferFormA (b : Bytes) : Prop := NoHeader b ∧ b.length ≤ 3

/-- Form (b) of rule R31. -/
abbrev BufferFormB (b : Bytes) : Prop := b.take 4 = hdrBytes ∧ b.length < 8

/-- Form (c) of rule R31. -/
abbrev BufferFormC (maxLen : Nat) (b : Bytes) : Prop :=
  b.take 4 = hdrBytes ∧ 8 ≤ b.length
    ∧ (12 : Int) ≤ sbe32 (slice b 4 8) ∧ sbe32 (slice b 4 8) ≤ (maxLen : Int)
    ∧ (b.length : Int) < sbe32 (slice b 4 8)

/-- The canonical form of the parse buffer between operations (rule R31). -/
abbrev CanonicalBuffer (maxLen : Nat) (b : Bytes) : Prop :=
  BufferFormA b ∨ BufferFormB b ∨ BufferFormC maxLen b

/-- The queue never holds more than `C` elements (rule R22). -/
abbrev State.RingInv (s : State) : Prop := s.rb.q.length ≤ s.par.ringCap

/-- The parse buffer is in canonical form (rule R31), and there is a last cause exactly if there is a
count (rules R29, R30, R152). -/
abbrev State.ParserInv (s : State) : Prop :=
  CanonicalBuffer s.par.maxLen s.fp.pb ∧ (s.fp.lasterr = none ↔ s.fp.errcnt = 0#32)

/-- `cfg_valid` and `cfg_locked` are equal (rule R34). A committed configuration passes the checks of rule
R172 and `sfid_cur` stays within `sfid_min .. sfid_max` (rule R190). Without one, `sfid_cur` is 0 (rules
R36, R173). -/
abbrev State.ConfigInv (s : State) : Prop :=
  s.cle.valid = s.cle.locked
    ∧ (s.cle.valid = true →
        s.cle.cfg.firstFailure s.par = none
          ∧ s.cle.cfg.sfidMin.toNat ≤ s.cle.sfidCur.toNat
          ∧ s.cle.sfidCur.toNat ≤ s.cle.cfg.sfidMax.toNat)
    ∧ (s.cle.valid = false → s.cle.sfidCur = 0#32)

/-- One staging buffer per channel number below `NCH_MAX`, none over `STG_CAP`, and only those of a
committed configuration's channels in use (rules R34, R35, R173). -/
abbrev State.StagingInv (s : State) : Prop :=
  s.cle.stg.length = s.par.nchMax
    ∧ (∀ b ∈ s.cle.stg, s.par.stgCap.all (fun cap => decide (b.length ≤ cap)) = true)
    ∧ (∀ c < s.cle.stg.length, s.cle.valid = false ∨ s.cle.cfg.n ≤ c → channel s.cle.stg c = [])

/-- A held pop is the external consumer's and the parser does not run; a held iteration is the
consumer's, or the host's while the parser does not run (rules R42, R142, R280). -/
abbrev HeldOk (h : Held) (st : FpState) : Prop :=
  (h.op ≠ .iter → h.agent = .K ∧ st ≠ .run)
    ∧ (h.op = .iter → h.agent = .K ∨ (h.agent = .H ∧ st ≠ .run))

/-- Whatever is held is held in its role. -/
abbrev State.HeldInv (s : State) : Prop := ∀ h ∈ s.held, HeldOk h s.fp.state

/-- The invariant of the block. -/
abbrev State.Inv (s : State) : Prop :=
  s.par.Ok ∧ s.RingInv ∧ s.ParserInv ∧ s.ConfigInv ∧ s.StagingInv
    ∧ s.out.dout.length = s.par.nchMax ∧ s.HeldInv

end Sys2Proof.Machine
end

