-- ==== Sys2Proof/Certificates/Slice0/Obligations.lean ====
section
/-! DEFINITION. The statements about the block, from the numbered rules of spec/, and the vocabulary they
are written in. A statement about an operation speaks of `exec i s`, the operation `i` issued by `s.issuer`
in the state `s`; `Host.Outcome.next t` says that it is performed (or held) and leaves `t`. -/

namespace Sys2Proof.Spec

open Sys2Proof.Machine

/-! ## Vocabulary -/

/-- The state after one more response to the issuer. -/
abbrev answered (s : State) (status : Status) (value : Word) (data : Bytes) : List Response :=
  s.responses ++ [⟨s.issuer, status, value, data⟩]

/-- The state in which nothing but the response is new. -/
abbrev onlyAnswers (s : State) (status : Status) (value : Word) : State :=
  { s with responses := answered s status value [] }

/-- The queue has the data, or the quit signal stands, that a consumer operation is held until
(rules R123, R124, R142). -/
abbrev Released : HeldOp → State → Prop
  | .pop, s => 0 < s.rb.q.length ∨ s.rb.quit = true
  | .popn min _, s => min.toNat ≤ s.rb.q.length ∨ s.rb.quit = true
  | .iter, s => 0 < s.rb.q.length ∨ s.rb.quit = true

/-- The operation a held entry stands for. -/
abbrev heldInstr : HeldOp → Instr
  | .pop => .rbPop
  | .popn min max => .rbPopn min max
  | .iter => .fpIter

/-- The rows of spec/opcode_table.json: match, mask, argument words, whether operand bytes follow. -/
def opcodeRows : List (Word × Word × Nat × Bool) :=
  [ (0x01000000#32, 0xFFFF0000#32, 0, false),   -- CSR.RD
    (0x02000000#32, 0xFFFF0000#32, 1, false),   -- CSR.WR
    (0x10000000#32, 0xFFFFFF00#32, 0, false),   -- RB.PUSH
    (0x11000000#32, 0xFFFF0000#32, 0, true),    -- RB.PUSHR
    (0x12000000#32, 0xFFFFFFFF#32, 0, false),   -- RB.POP
    (0x13000000#32, 0xFFFFFFFF#32, 2, false),   -- RB.POPN
    (0x14000000#32, 0xFFFFFFFF#32, 0, false),   -- RB.QUIT
    (0x15000000#32, 0xFFFFFFFF#32, 0, false),   -- RB.RESET
    (0x20000000#32, 0xFFFFFFFF#32, 0, false),   -- FP.START
    (0x21000000#32, 0xFFFFFFFF#32, 0, false),   -- FP.ITER
    (0x22000000#32, 0xFFFFFFFF#32, 0, false),   -- FP.RESET
    (0x30000000#32, 0xFFFFFFFF#32, 0, false),   -- CFG.COMMIT
    (0x31000000#32, 0xFFFFFFFF#32, 0, false),   -- CLE.RESET
    (0x32000000#32, 0xFF000000#32, 0, true),    -- STG.APPEND
    (0x38000000#32, 0xFFFF0000#32, 0, true),    -- DMX.XC
    (0x39000000#32, 0xFFFF0000#32, 0, true),    -- DMX.CC
    (0x3A000000#32, 0xFFFF0000#32, 0, true),    -- DMX.ROW
    (0x3B000000#32, 0xFFFF0000#32, 0, true),    -- DMX.RC
    (0x3C000000#32, 0xFFFFFFFF#32, 0, false),   -- MUX.XC
    (0x3D000000#32, 0xFFFFFFFF#32, 0, false),   -- MUX.CC
    (0x3E000000#32, 0xFFFFFFFF#32, 0, false),   -- MUX.ROW
    (0x3F000000#32, 0xFFFFFFFF#32, 0, false),   -- MUX.RC
    (0x40000000#32, 0xFFFF0000#32, 0, true) ]   -- IDLE.CHK

/-- The agents that may issue an operation: the table of rule R8 with the "Issued by" lines of rules R125
and R142. -/
def Listed : Instr → Agent → Prop
  | .csrRd _, _ => True
  | .rbQuit, _ => True
  | .rbPush _, a => a = .P
  | .rbPushr _, a => a = .P
  | .rbPop, a => a = .K
  | .rbPopn _ _, a => a = .K
  | .fpIter, a => a = .K ∨ a = .H
  | .csrWr _ _, a => a = .H
  | .rbReset, a => a = .H
  | .fpStart, a => a = .H
  | .fpReset, a => a = .H
  | .cfgCommit, a => a = .H
  | .cleReset, a => a = .H
  | .stgAppend _ _, a => ∃ j, a = .S j
  | .dmxXc _, a => a = .Y
  | .dmxCc _, a => a = .Y
  | .dmxRow _, a => a = .Y
  | .dmxRc _, a => a = .Y
  | .muxXc, a => a = .X
  | .muxCc, a => a = .X
  | .muxRow, a => a = .X
  | .muxRc, a => a = .X
  | .idleChk _, a => a = .I

/-- The registers of rule R50 and their current values. -/
def csrMap (s : State) : List (BitVec 16 × Word) :=
  [ (0x0010#16, BitVec.ofNat 32 s.rb.q.length),
    (0x0011#16, s.rb.lost),
    (0x0012#16, BitVec.ofNat 32 s.par.ringCap),
    (0x0013#16, BitVec.ofNat 32
      ((if s.rb.quit then 1 else 0) + (if s.rb.q.length = s.par.ringCap then 2 else 0)
        + (if s.rb.q.length = 0 then 4 else 0))),
    (0x0020#16, BitVec.ofNat 32
      ((match s.fp.state with | .idle => 0 | .run => 1 | .halted => 2)
        + (match s.fp.lasterr with | none => 0 | some .badLength => 4 | some .badTrailer => 8))),
    (0x0021#16, s.fp.errcnt),
    (0x0022#16, BitVec.ofNat 32 s.fp.pb.length),
    (0x0030#16, BitVec.ofNat 32 s.cle.cfg.channelCount.toNat),
    (0x0031#16, if s.cle.cfg.bigendian then 1#32 else 0#32),
    (0x0032#16, s.cle.cfg.syncWord),
    (0x0033#16, s.cle.cfg.sfidMin),
    (0x0034#16, s.cle.cfg.sfidMax),
    (0x0035#16, BitVec.ofNat 32 s.cle.cfg.frameLen.toNat),
    (0x0036#16, BitVec.ofNat 32 s.cle.cfg.reservedLen.toNat),
    (0x0037#16, s.cle.cfg.reservedSfidOffset),
    (0x0038#16, s.cle.cfg.maxSfidCount),
    (0x0039#16, BitVec.ofNat 32
      ((if s.cle.valid then 1 else 0) + (if s.cle.locked then 2 else 0))),
    (0x003A#16, s.cle.sfidCur) ]
  ++ (List.range s.par.nchMax).map (fun c =>
      (BitVec.ofNat 16 (0x0100 + c),
        BitVec.ofNat 32 (min (channel s.cle.stg c).length (2 ^ 32 - 1))))

/-- The writable registers of rule R50 and what a write of `v` makes of the configuration (rule R51). -/
def csrFields (c : LayoutConfig) (v : Word) : List (BitVec 16 × LayoutConfig) :=
  [ (0x0030#16, { c with channelCount := BitVec.ofNat 9 v.toNat }),
    (0x0031#16, { c with bigendian := decide (v.toNat % 2 = 1) }),
    (0x0032#16, { c with syncWord := v }),
    (0x0033#16, { c with sfidMin := v }),
    (0x0034#16, { c with sfidMax := v }),
    (0x0035#16, { c with frameLen := BitVec.ofNat 16 v.toNat }),
    (0x0036#16, { c with reservedLen := BitVec.ofNat 16 v.toNat }),
    (0x0037#16, { c with reservedSfidOffset := v }),
    (0x0038#16, { c with maxSfidCount := v }) ]

/-- The stored bits of each writable register (rule R50, "fields"). -/
def csrMasks : List (BitVec 16 × Word) :=
  [ (0x0030#16, 0x000001FF#32), (0x0031#16, 0x00000001#32), (0x0032#16, 0xFFFFFFFF#32),
    (0x0033#16, 0xFFFFFFFF#32), (0x0034#16, 0xFFFFFFFF#32), (0x0035#16, 0x0000FFFF#32),
    (0x0036#16, 0x0000FFFF#32), (0x0037#16, 0xFFFFFFFF#32), (0x0038#16, 0xFFFFFFFF#32) ]

/-- The checks of `CFG.COMMIT`, by number (rule R172), with `SYNC_LEN = 4` and `SFID_LEN = 2`. -/
def Check (par : Params) (c : LayoutConfig) : Nat → Prop
  | 1 => 1 ≤ c.channelCount.toNat ∧ c.channelCount.toNat ≤ par.nchMax
  | 2 => 4 + 2 + c.reservedLen.toNat + 2 * c.channelCount.toNat < c.frameLen.toNat
  | 3 => c.sfidMin.toNat ≤ c.sfidMax.toNat
  | 4 => c.sfidMax.toNat < 2 ^ 16
  | _ => True

/-- Check 5 of the row-continuous operations (rule R176). -/
def Check5 (c : LayoutConfig) : Prop :=
  c.reservedSfidOffset.toNat ≤ c.maxSfidCount.toNat
    ∧ 1 ≤ (c.maxSfidCount.toNat - c.reservedSfidOffset.toNat) / c.channelCount.toNat

/-- The channel the row policy gives an SFID (rule R176). -/
def rowChannel (c : LayoutConfig) (sfid : Nat) : Option Nat :=
  if sfid < c.reservedSfidOffset.toNat then none
  else some ((sfid - c.reservedSfidOffset.toNat) % c.channelCount.toNat)

/-- The channel the row-continuous policy gives an SFID (rule R176). -/
def runChannel (c : LayoutConfig) (sfid : Nat) : Option Nat :=
  let rpc := (c.maxSfidCount.toNat - c.reservedSfidOffset.toNat) / c.channelCount.toNat
  if sfid < c.reservedSfidOffset.toNat then none
  else if (sfid - c.reservedSfidOffset.toNat) / rpc < c.channelCount.toNat then
    some ((sfid - c.reservedSfidOffset.toNat) / rpc)
  else none

/-- Two bytes as a payload word (rule R64). -/
def word16 (c : LayoutConfig) (a b : Byte) : Bytes := if c.bigendian then [a, b] else [b, a]

/-- The two bytes of word `i` of a frame's payload, as the channel receives them. -/
def frameWord (c : LayoutConfig) (f : Bytes) (i : Nat) : Bytes :=
  word16 c (f.getD (c.p0 + 2 * i) 0#8) (f.getD (c.p0 + 2 * i + 1) 0#8)

/-- The idle filler, byte by byte (rule R98). -/
def fillerByte (j : Nat) : Byte := if j % 2 = 0 then 0xFA#8 else 0xDE#8

/-- The four layout policies. -/
inductive Policy where
  | xc | cc | row | rc
deriving DecidableEq, Repr

/-- The multiplex operation of a policy. -/
def Policy.mux : Policy → Instr
  | .xc => .muxXc
  | .cc => .muxCc
  | .row => .muxRow
  | .rc => .muxRc

/-- The demultiplex operation of a policy. -/
def Policy.dmx : Policy → Bytes → Instr
  | .xc => .dmxXc
  | .cc => .dmxCc
  | .row => .dmxRow
  | .rc => .dmxRc

/-- The channel the next frame's row belongs to; the column policies have no such channel. -/
def Policy.rowOf (p : Policy) (s : State) : Option Nat :=
  match p with
  | .xc => none
  | .cc => none
  | .row => rowChannel s.cle.cfg s.cle.sfidCur.toNat
  | .rc => runChannel s.cle.cfg s.cle.sfidCur.toNat

/-- The row of the next frame belongs to no channel (rules R193, R194). -/
def Policy.Unassigned (p : Policy) (s : State) : Prop :=
  (p = .row ∨ p = .rc) ∧ p.rowOf s = none

/-- `need[c]`: how many bytes of channel `c` the next frame takes (rules R191 to R194). -/
def Policy.need (p : Policy) (s : State) (c : Nat) : Nat :=
  let pl := s.cle.cfg.frameLen.toNat - (6 + s.cle.cfg.reservedLen.toNat)
  match p with
  | .xc => 2 * ((pl / 2 - c + s.cle.cfg.channelCount.toNat - 1) / s.cle.cfg.channelCount.toNat)
  | .cc => pl / s.cle.cfg.channelCount.toNat
  | .row => if p.rowOf s = some c then pl else 0
  | .rc => if p.rowOf s = some c then pl else 0

/-- Every channel has the bytes the next frame needs of it, and the frame belongs to a channel. -/
def Policy.Supplied (p : Policy) (s : State) : Prop :=
  ¬ p.Unassigned s ∧ ∀ c < s.cle.cfg.channelCount.toNat, p.need s c ≤ (channel s.cle.stg c).length

/-- The engine is ready for a multiplex or demultiplex operation of the policy: a committed configuration
and, for row-continuous, check 5. -/
def Policy.Ready (p : Policy) (s : State) : Prop :=
  s.cle.valid = true ∧ (p = .rc → Check5 s.cle.cfg)

/-- The header of a frame built now: sync word, SFID, zero reserved bytes (rules R94, R185). -/
def frameHead (s : State) : Bytes :=
  encBe 4 s.cle.cfg.syncWord.toNat ++ encBe 2 s.cle.sfidCur.toNat
    ++ List.replicate s.cle.cfg.reservedLen.toNat 0x00#8

/-- The SFID after the current one (rule R190). -/
def sfidAfter (s : State) : Word :=
  if s.cle.sfidCur = s.cle.cfg.sfidMax then s.cle.cfg.sfidMin else s.cle.sfidCur + 1#32

/-- A message with the given payload and the given four bytes in the trailer's place (rule R91). -/
def message (payload trailer : Bytes) : Bytes :=
  [0x49#8, 0x96#8, 0x02#8, 0xD2#8] ++ encBe 4 (12 + payload.length) ++ payload ++ trailer

/-- The trailer magic (rule R92). -/
def trailer : Bytes := [0xB6#8, 0x69#8, 0xFD#8, 0x2E#8]

/-- A valid message the parser accepts (rules R91, R93). -/
def ValidMessage (maxLen : Nat) (m : Bytes) : Prop :=
  ∃ payload, m = message payload trailer ∧ 12 + payload.length ≤ maxLen

/-- `find_hdr(s) = h` (rule R145): the header stands at `h` and nowhere before. -/
def HeaderAt (b : Bytes) (h : Nat) : Prop :=
  (b.drop h).take 4 = [0x49#8, 0x96#8, 0x02#8, 0xD2#8]
    ∧ ∀ i < h, (b.drop i).take 4 ≠ [0x49#8, 0x96#8, 0x02#8, 0xD2#8]

/-- The header stands nowhere. -/
def HeaderNowhere (b : Bytes) : Prop := ∀ i, (b.drop i).take 4 ≠ [0x49#8, 0x96#8, 0x02#8, 0xD2#8]

/-- The parser fed with one chunk after another, from a given buffer (rule R156). -/
def scanChunks (maxLen : Nat) (b : Bytes) : List Bytes → ScanResult
  | [] => ⟨[], [], b⟩
  | chunk :: chunks =>
    let r := scan maxLen (b ++ chunk)
    let r' := scanChunks maxLen r.rest chunks
    ⟨r.msgs ++ r'.msgs, r.reports ++ r'.reports, r'.rest⟩

/-- A word with the value 2^32 - 1 is kept, any other counts up by one (rule R12, `sat_inc`). -/
def countUp (w : Word) (k : Nat) : Word := BitVec.ofNat 32 (min (w.toNat + k) (2 ^ 32 - 1))

/-- The elements the next event makes a push add to the ring (rules R121, R122). -/
def accepted (s : State) : Bytes :=
  match s.events with
  | .issue _ c :: _ =>
    match decode c with
    | .instr (.rbPush x) => [x].take (s.par.ringCap - s.rb.q.length)
    | .instr (.rbPushr xs) => xs.take (s.par.ringCap - s.rb.q.length)
    | _ => []
  | _ => []

/-- The next event issues this operation. -/
def Issues (s : State) (i : Instr) : Prop :=
  ∃ a c rest, s.events = .issue a c :: rest ∧ decode c = .instr i

/-- The next event is hardware reset. -/
def Resets (s : State) : Prop := ∃ rest, s.events = .reset :: rest

/-- A run of the ring with an external consumer: no hardware reset, no `RB.RESET`, no parser iteration.
It records what was accepted by pushes and the data of the responses, each in order. -/
inductive RingRun : State → Bytes → Bytes → State → Prop where
  | start (s : State) : RingRun s [] [] s
  | step (s t u : State) (pushed popped : Bytes) :
      RingRun s pushed popped t → step t = .next u →
      ¬ Resets t → ¬ Issues t .rbReset → ¬ Issues t .fpIter → t.fp.state ≠ .run →
      (∀ h, t.held = some h → h.op ≠ .iter) →
      RingRun s (pushed ++ accepted t)
        (popped ++ (u.responses.drop t.responses.length).flatMap (fun r => r.data)) u

end Sys2Proof.Spec

open Sys2Proof Sys2Proof.Machine Sys2Proof.Spec

/-! ## Reset -/

/-- Rule R52: what reset leaves, for every choice of the parameters. -/
def Obligations.ResetLeavesTheStatedValues : Prop :=
  State.reset = State.resetWith State.reset.par ∧
  ∀ p : Params,
    let s := State.resetWith p
    s.rb.q = [] ∧ s.rb.lost = 0#32 ∧ s.rb.quit = false
      ∧ s.fp.pb = [] ∧ s.fp.state = .idle ∧ s.fp.errcnt = 0#32 ∧ s.fp.lasterr = none
      ∧ s.cle.cfg = ⟨0#9, false, 0#32, 0#32, 0#32, 0#16, 0#16, 0#32, 32#32⟩
      ∧ s.cle.valid = false ∧ s.cle.locked = false ∧ s.cle.sfidCur = 0#32
      ∧ (∀ c, channel s.cle.stg c = [])
      ∧ s.held = none
      ∧ s.out.msgOut = [] ∧ s.out.fpLog = [] ∧ s.out.frmOut = [] ∧ s.out.fwd = []
      ∧ (∀ c, channel s.out.dout c = [])

/-- Rule R50, reset column: what the registers read after reset. -/
def Obligations.RegistersReadTheirResetValues : Prop :=
  ∀ p : Params, p.Ok →
    let reads := fun (a : BitVec 16) (v : Word) =>
      exec (.csrRd a) (State.resetWith p) = .next (onlyAnswers (State.resetWith p) .ok v)
    (∀ a ∈ [0x0010#16, 0x0011#16, 0x0020#16, 0x0021#16, 0x0022#16, 0x0030#16, 0x0031#16, 0x0032#16,
        0x0033#16, 0x0034#16, 0x0035#16, 0x0036#16, 0x0037#16, 0x0039#16, 0x003A#16], reads a 0#32)
      ∧ reads 0x0012#16 (BitVec.ofNat 32 p.ringCap) ∧ reads 0x0013#16 4#32 ∧ reads 0x0038#16 32#32
      ∧ ∀ c < p.nchMax, reads (BitVec.ofNat 16 (0x0100 + c)) 0#32

/-- Rule R270: hardware reset, from every state. Keeping the parameters and the events to come is the
model's choice (assumption logs 1 and 3). -/
def Obligations.HardwareResetRestoresResetState : Prop :=
  ∀ (s : State) (rest : List Event), s.events = .reset :: rest →
    step s = .next { State.resetWith s.par with events := rest }

/-! ## Commands -/

/-- A step performs the operation of the next command, for the agent that issues it. -/
def Obligations.StepPerformsTheIssuedOperation : Prop :=
  ∀ (s : State) (a : Agent) (c : Command) (rest : List Event) (i : Instr),
    s.events = .issue a c :: rest → (∀ h, s.held = some h → h.agent ≠ a) → decode c = .instr i →
    step s = exec i { s with events := rest, issuer := a }

/-- Rule R106: a command word that no row of the opcode table matches is answered `BAD_CMD` and changes
nothing, whatever argument words and operand bytes came with it. -/
def Obligations.IllegalCommandIsAnsweredBadCmd : Prop :=
  ∀ (s : State) (a : Agent) (c : Command) (rest : List Event),
    s.events = .issue a c :: rest → (∀ h, s.held = some h → h.agent ≠ a) →
    (∀ row ∈ opcodeRows, c.word &&& row.2.1 ≠ row.1) →
    step s = .next
      { s with events := rest, issuer := a, responses := s.responses ++ [⟨a, .badCmd, 0#32, []⟩] }

/-- An agent whose operation is still held is blocked (rule R12), and a command whose argument words or
operand bytes do not fit its word is no command (rules R101, R104). That the model refuses the one and
stops on the other is its own choice (assumption logs 5 and 6). -/
def Obligations.StepStopsOnBlockedIssuerOrMalformedCommand : Prop :=
  ∀ (s : State) (a : Agent) (c : Command) (rest : List Event), s.events = .issue a c :: rest →
    ((∃ op, s.held = some ⟨a, op⟩) → step s = .refused .issuerHeld)
      ∧ ((∀ h, s.held = some h → h.agent ≠ a) → ∀ row ∈ opcodeRows, c.word &&& row.2.1 = row.1 →
          (c.args.length ≠ row.2.2.1
            ∨ c.operand.length ≠ if row.2.2.2 then c.word.toNat % 2 ^ 16 else 0) →
          step s = .fault .malformedCommand)

/-- Rules R103 to R105: the commands that carry an operation are those whose word a row of the opcode
table matches and that come with the argument words of the row and, where the row says so, `n` bytes. -/
def Obligations.CommandsAreThoseOfTheOpcodeTable : Prop :=
  ∀ c : Command,
    (∃ i, decode c = .instr i) ↔
      ∃ row ∈ opcodeRows, c.word &&& row.2.1 = row.1 ∧ c.args.length = row.2.2.1
        ∧ c.operand.length = if row.2.2.2 then c.word.toNat % 2 ^ 16 else 0

/-- Decoding an encoded operation gives it back, with every operand; and an operation has no other command
than its encoding. -/
def Obligations.DecodeAndEncodeAgree : Prop :=
  (∀ i : Instr, i.WellFormed → decode (encode i) = .instr i)
    ∧ ∀ (c : Command) (i : Instr), decode c = .instr i → i.WellFormed ∧ encode i = c

/-- A word of every operation, from the code and the format rules R105 and R103 give it (vector T-DEC-3
among them), and two illegal ones. -/
def Obligations.SampleCommandsDecode : Prop :=
  decode ⟨0x01000013#32, [], []⟩ = .instr (.csrRd 0x0013#16)
    ∧ decode ⟨0x02000035#32, [0x14#32], []⟩ = .instr (.csrWr 0x0035#16 0x14#32)
    ∧ decode ⟨0x10000041#32, [], []⟩ = .instr (.rbPush 0x41#8)
    ∧ decode ⟨0x11000003#32, [], [1#8, 2#8, 3#8]⟩ = .instr (.rbPushr [1#8, 2#8, 3#8])
    ∧ decode ⟨0x12000000#32, [], []⟩ = .instr .rbPop
    ∧ decode ⟨0x13000000#32, [2#32, 3#32], []⟩ = .instr (.rbPopn 2#32 3#32)
    ∧ decode ⟨0x14000000#32, [], []⟩ = .instr .rbQuit
    ∧ decode ⟨0x15000000#32, [], []⟩ = .instr .rbReset
    ∧ decode ⟨0x20000000#32, [], []⟩ = .instr .fpStart
    ∧ decode ⟨0x21000000#32, [], []⟩ = .instr .fpIter
    ∧ decode ⟨0x22000000#32, [], []⟩ = .instr .fpReset
    ∧ decode ⟨0x30000000#32, [], []⟩ = .instr .cfgCommit
    ∧ decode ⟨0x31000000#32, [], []⟩ = .instr .cleReset
    ∧ decode ⟨0x32010004#32, [], [1#8, 2#8, 3#8, 4#8]⟩ = .instr (.stgAppend 1#8 [1#8, 2#8, 3#8, 4#8])
    ∧ decode ⟨0x38000001#32, [], [9#8]⟩ = .instr (.dmxXc [9#8])
    ∧ decode ⟨0x39000001#32, [], [9#8]⟩ = .instr (.dmxCc [9#8])
    ∧ decode ⟨0x3A000001#32, [], [9#8]⟩ = .instr (.dmxRow [9#8])
    ∧ decode ⟨0x3B000001#32, [], [9#8]⟩ = .instr (.dmxRc [9#8])
    ∧ decode ⟨0x3C000000#32, [], []⟩ = .instr .muxXc
    ∧ decode ⟨0x3D000000#32, [], []⟩ = .instr .muxCc
    ∧ decode ⟨0x3E000000#32, [], []⟩ = .instr .muxRow
    ∧ decode ⟨0x3F000000#32, [], []⟩ = .instr .muxRc
    ∧ decode ⟨0x40000001#32, [], [9#8]⟩ = .instr (.idleChk [9#8])
    ∧ decode ⟨0x12000001#32, [], []⟩ = .illegal .mustBeZero
    ∧ decode ⟨0x41000000#32, [], []⟩ = .illegal .unassignedOp

/-- Rule R107: the response as words. -/
def Obligations.ResponseWordsCarryStatusAndValue : Prop :=
  ∀ r : Response, ∃ w0 w1, r.words = [w0, w1] ∧ w1 = r.value
    ∧ w0.toNat = (match r.status with
      | .ok => 0 | .full => 1 | .closed => 2 | .badCmd => 3 | .badAddr => 4 | .cfgLocked => 5
      | .cfgInvalid => 6 | .notConfigured => 7 | .badOperand => 8 | .stgFull => 9 | .busy => 10)

/-- Rule R8 and 93 U1: an operation is refused for its issuer exactly if the issuer is not listed for it. -/
def Obligations.OperationOutsideItsRoleIsRefused : Prop :=
  ∀ (i : Instr) (s : State), exec i s = .refused .outsideRole ↔ ¬ Listed i s.issuer

/-! ## The ring buffer -/

/-- Rule R121. -/
def Obligations.PushStoresOrCountsTheItem : Prop :=
  ∀ (x : Byte) (s : State),
    encode (.rbPush x) = ⟨0x10000000#32 + BitVec.ofNat 32 x.toNat, [], []⟩
      ∧ (s.issuer ≠ .P → exec (.rbPush x) s = .refused .outsideRole)
      ∧ (s.issuer = .P → s.rb.q.length < s.par.ringCap →
          exec (.rbPush x) s = .next
            { s with rb := { s.rb with q := s.rb.q ++ [x] }, responses := answered s .ok 1#32 [] })
      ∧ (s.issuer = .P → s.par.ringCap ≤ s.rb.q.length →
          exec (.rbPush x) s = .next
            { s with rb := { s.rb with lost := countUp s.rb.lost 1 },
                     responses := answered s .full 0#32 [] })

/-- Rule R122: as many as fit, `k = min(n, C - |rb.q|)`; the loss counter is not changed. -/
def Obligations.PushRangeStoresWhatFits : Prop :=
  ∀ (items : Bytes) (s : State),
    (items.length ≤ 65535 →
        encode (.rbPushr items) = ⟨0x11000000#32 + BitVec.ofNat 32 items.length, [], items⟩)
      ∧ (s.issuer ≠ .P → exec (.rbPushr items) s = .refused .outsideRole)
      ∧ (s.issuer = .P → ∀ k, k = min items.length (s.par.ringCap - s.rb.q.length) →
          exec (.rbPushr items) s = .next
            { s with rb := { s.rb with q := s.rb.q ++ items.take k },
                     responses := answered s .ok (BitVec.ofNat 32 k) [] })

/-- Rule R123. While the parser runs a pop is a second consumer (93 U1); that it is one also while an
operation is held is the model's reading (assumption log 8). -/
def Obligations.PopDrainsTheRingOrIsHeld : Prop :=
  ∀ s : State,
    encode .rbPop = ⟨0x12000000#32, [], []⟩
      ∧ (s.issuer ≠ .K → exec .rbPop s = .refused .outsideRole)
      ∧ (s.issuer = .K → (s.fp.state = .run ∨ s.held ≠ none) →
          exec .rbPop s = .refused .secondConsumer)
      ∧ (s.issuer = .K → s.fp.state ≠ .run → s.held = none →
          (0 < s.rb.q.length →
            exec .rbPop s = .next
              { s with rb := { s.rb with q := [] },
                       responses := answered s .ok (BitVec.ofNat 32 s.rb.q.length) s.rb.q })
          ∧ (s.rb.q = [] → s.rb.quit = true →
            exec .rbPop s = .next (onlyAnswers s .closed 0#32))
          ∧ (s.rb.q = [] → s.rb.quit = false →
            exec .rbPop s = .next { s with held := some ⟨.K, .pop⟩ }))

/-- Rule R124; the second consumer as for `RB.POP` (93 U1, assumption log 8). -/
def Obligations.PopRangeTakesUpToMax : Prop :=
  ∀ (min max : Word) (s : State),
    encode (.rbPopn min max) = ⟨0x13000000#32, [min, max], []⟩
      ∧ (s.issuer ≠ .K → exec (.rbPopn min max) s = .refused .outsideRole)
      ∧ (s.issuer = .K → (s.fp.state = .run ∨ s.held ≠ none) →
          exec (.rbPopn min max) s = .refused .secondConsumer)
      ∧ (s.issuer = .K → s.fp.state ≠ .run → s.held = none →
          (min.toNat ≤ s.rb.q.length → ∀ k, k = Nat.min s.rb.q.length max.toNat →
            exec (.rbPopn min max) s = .next
              { s with rb := { s.rb with q := s.rb.q.drop k },
                       responses := answered s .ok (BitVec.ofNat 32 k) (s.rb.q.take k) })
          ∧ (s.rb.q.length < min.toNat → s.rb.quit = true →
            exec (.rbPopn min max) s = .next (onlyAnswers s .closed 0#32))
          ∧ (s.rb.q.length < min.toNat → s.rb.quit = false →
            exec (.rbPopn min max) s = .next { s with held := some ⟨.K, .popn min max⟩ }))

/-- Rule R125: by any agent. -/
def Obligations.QuitSetsTheQuitSignal : Prop :=
  ∀ s : State,
    encode .rbQuit = ⟨0x14000000#32, [], []⟩
      ∧ exec .rbQuit s = .next
          { s with rb := { s.rb with quit := true }, responses := answered s .ok 0#32 [] }

/-- Rule R126. -/
def Obligations.RingResetClearsAQuiescentRing : Prop :=
  ∀ s : State,
    encode .rbReset = ⟨0x15000000#32, [], []⟩
      ∧ (s.issuer ≠ .H → exec .rbReset s = .refused .outsideRole)
      ∧ (s.issuer = .H → (s.held ≠ none ∨ s.fp.state = .run) →
          exec .rbReset s = .next (onlyAnswers s .busy 0#32))
      ∧ (s.issuer = .H → s.held = none → s.fp.state ≠ .run →
          exec .rbReset s = .next
            { s with rb := ⟨[], 0#32, false⟩, responses := answered s .ok 0#32 [] })

/-- Rule R130, which the spec marks as derived: `RB.POP` and `RB.POPN 1, C` behave alike in every state, but
that each is held under its own name. -/
def Obligations.PopIsPopRangeOneToCapacity : Prop :=
  ∀ (s : State) (c : Word), c.toNat = s.par.ringCap → s.rb.q.length ≤ s.par.ringCap →
    (Released .pop s ↔ Released (.popn 1#32 c) s)
      ∧ (Released .pop s → exec .rbPop s = exec (.rbPopn 1#32 c) s)
      ∧ (s.issuer ≠ .K ∨ s.fp.state = .run ∨ s.held ≠ none →
          exec .rbPop s = exec (.rbPopn 1#32 c) s)
      ∧ (¬ Released .pop s → s.held = none → s.fp.state ≠ .run → s.issuer = .K →
          exec .rbPop s = .next { s with held := some ⟨.K, .pop⟩ }
            ∧ exec (.rbPopn 1#32 c) s = .next { s with held := some ⟨.K, .popn 1#32 c⟩ })

/-- Rule R127, which the spec marks as derived: while its condition is false a held operation has no step;
only a push by `P` or `RB.QUIT` makes the condition true; once true it stays true until the operation runs.
-/
def Obligations.HeldOperationWaitsForPushOrQuit : Prop :=
  ∀ (s t : State) (h : Held), s.held = some h → ¬ Resets s → step s = .next t →
    (¬ Released h.op s → t.held = some h)
      ∧ (¬ Released h.op s → Released h.op t →
          Issues s .rbQuit ∨ (∃ x, Issues s (.rbPush x)) ∨ ∃ xs, Issues s (.rbPushr xs))
      ∧ (Released h.op s → t.held = some h → Released h.op t)
      ∧ (¬ Released h.op s → s.events = [] → t = s)

/-- Rules R72 and R127: the consumer's turn completes a held operation whose condition is true, exactly as
if it were issued at that instant. -/
def Obligations.ReleasedOperationCompletesAsIfIssued : Prop :=
  ∀ (s : State) (h : Held) (rest : List Event), s.Inv → s.held = some h → Released h.op s →
    (s.events = .turn :: rest ∨ (s.events = [] ∧ rest = [])) →
    step s = exec (heldInstr h.op) { s with held := none, issuer := h.agent, events := rest }
      ∧ ∃ t, step s = .next t ∧ t.held = none ∧ t.responses.length = s.responses.length + 1

/-- Rules R76 and R282 (c): after the quit signal nothing is held for longer than the consumer's next
turn, and nothing is held anew before a reset of the ring. -/
def Obligations.NothingStaysHeldAfterQuit : Prop :=
  ∀ s t : State, s.rb.quit = true → ¬ Resets s → step s = .next t →
    (s.held = none → t.held = none)
      ∧ (s.events = [] → t.held = none)
      ∧ (∀ rest, s.events = .turn :: rest → t.held = none)

/-- Rule R129, the loss-accounting law, which the spec marks as derived: for `N` commands `RB.PUSH` with no
pop between them, and for the same items in one `RB.PUSHR`. -/
def Obligations.LossAccounting : Prop :=
  (∀ (s : State) (items : Bytes),
    s.rb.q = [] → s.rb.lost = 0#32 → (∀ h, s.held = some h → h.agent ≠ .P) →
    s.events = items.map (fun x => Event.issue .P (encode (.rbPush x))) →
    s.par.ringCap < items.length → items.length - s.par.ringCap < 2 ^ 32 →
    ∃ t : State, Sys2Proof.core.run items.length s = .next t
      ∧ t.rb.q = items.take s.par.ringCap ∧ t.rb.q.length = s.par.ringCap
      ∧ t.rb.lost.toNat = items.length - s.par.ringCap)
  ∧ ∀ (s : State) (items : Bytes),
    s.rb.q = [] → s.rb.lost = 0#32 → s.issuer = .P → s.par.ringCap < items.length →
    ∃ t : State, exec (.rbPushr items) s = .next t ∧ t.rb.q.length = s.par.ringCap ∧ t.rb.lost = 0#32

/-- Rule R128, which the spec marks as derived, for an external consumer: what the pops return, followed by
what is still queued, is what was queued at first, followed by what the pushes added; nothing is lost,
doubled or reordered. -/
def Obligations.RingIsFirstInFirstOut : Prop :=
  ∀ (s t : State) (pushed popped : Bytes), RingRun s pushed popped t →
    s.rb.q ++ pushed = popped ++ t.rb.q

/-! ## The frame parser -/

/-- Rule R141. An external pop that is held makes the start an undefined access (93 U1). -/
def Obligations.StartMakesTheParserRun : Prop :=
  ∀ s : State,
    encode .fpStart = ⟨0x20000000#32, [], []⟩
      ∧ (s.issuer ≠ .H → exec .fpStart s = .refused .outsideRole)
      ∧ (s.issuer = .H → (∃ h, s.held = some h ∧ h.op ≠ .iter) →
          exec .fpStart s = .refused .secondConsumer)
      ∧ (s.issuer = .H → (∀ h, s.held = some h → h.op = .iter) →
          exec .fpStart s = .next
            { s with fp := { s.fp with state := .run }, responses := answered s .ok 0#32 [] })

/-- Rule R142: the whole of one iteration, in terms of the scan of the buffer with the batch appended. What
an iteration does while an operation is held is the model's reading (assumption log 8): the host's is answered
`BUSY`, as rule R241 says, and the consumer's is a second consumer (93 U1). -/
def Obligations.IterationPopsAndScans : Prop :=
  ∀ s : State,
    encode .fpIter = ⟨0x21000000#32, [], []⟩
      ∧ (s.issuer ≠ .K → s.issuer ≠ .H → exec .fpIter s = .refused .outsideRole)
      ∧ (s.issuer = .H → (s.fp.state = .run ∨ s.held ≠ none) →
          exec .fpIter s = .next (onlyAnswers s .busy 0#32))
      ∧ (s.issuer = .K → s.held ≠ none → exec .fpIter s = .refused .secondConsumer)
      ∧ ((s.issuer = .K ∨ (s.issuer = .H ∧ s.fp.state ≠ .run)) →
          (s.held = none → s.rb.q = [] → s.rb.quit = false →
            exec .fpIter s = .next { s with held := some ⟨s.issuer, .iter⟩ })
          ∧ (s.held = none → s.rb.q = [] → s.rb.quit = true →
            exec .fpIter s = .next
              { s with fp := { s.fp with state := .halted }, responses := answered s .closed 0#32 [] })
          ∧ (s.held = none → 0 < s.rb.q.length →
            ∀ r, r = scan s.par.maxLen (s.fp.pb ++ s.rb.q) →
            exec .fpIter s = .next
              { s with
                rb := { s.rb with q := [] },
                fp := { s.fp with
                  pb := r.rest,
                  errcnt := countUp s.fp.errcnt r.reports.length,
                  lasterr := (r.reports.getLast?.map (fun e => e.1)).or s.fp.lasterr },
                out := { s.out with
                  msgOut := s.out.msgOut ++ r.msgs,
                  fpLog := s.out.fpLog ++ r.reports },
                responses := answered s .ok 0#32 [] }))

/-- Rule R143, with `BUSY` under every held operation as rules R42 and R241 say. That a held `RB.POP` or
`RB.POPN` counts is the model's choice (assumption log 20): rules R143 and R271 name a held `FP.ITER` only. -/
def Obligations.ParserResetClearsTheParser : Prop :=
  ∀ s : State,
    encode .fpReset = ⟨0x22000000#32, [], []⟩
      ∧ (s.issuer ≠ .H → exec .fpReset s = .refused .outsideRole)
      ∧ (s.issuer = .H → (s.held ≠ none ∨ s.fp.state = .run) →
          exec .fpReset s = .next (onlyAnswers s .busy 0#32))
      ∧ (s.issuer = .H → s.held = none → s.fp.state ≠ .run →
          exec .fpReset s = .next
            { s with fp := ⟨[], .idle, 0#32, none⟩, responses := answered s .ok 0#32 [] })

/-- Rule R144: with nothing held, the turn of a running parser is one `FP.ITER` of the consumer `K`; a
parser that does not run has no step of its own. -/
def Obligations.RunningParserRepeatsItsIteration : Prop :=
  ∀ (s : State) (rest : List Event), s.held = none →
    (s.events = .turn :: rest ∨ (s.events = [] ∧ rest = [])) →
    (s.fp.state = .run → step s = exec .fpIter { s with events := rest, issuer := .K })
      ∧ (s.fp.state ≠ .run → step s = .next { s with events := rest })

/-- Rules R145 to R151: the scan obeys the equations of its loop. -/
def Obligations.ScanFollowsTheStatedLoop : Prop :=
  ∀ (maxLen : Nat) (pb : Bytes),
    (HeaderNowhere pb → scan maxLen pb = ⟨[], [], pb.drop (pb.length - 3)⟩)
      ∧ ∀ h b, HeaderAt pb h → b = pb.drop h →
        (b.length < 8 → scan maxLen pb = ⟨[], [], b⟩)
        ∧ (8 ≤ b.length → ∀ len, len = sbe32 (slice b 4 8) →
          ((len < 12 ∨ (maxLen : Int) < len) →
            ∀ r, r = scan maxLen (b.drop 4) →
              scan maxLen pb = ⟨r.msgs, (.badLength, len) :: r.reports, r.rest⟩)
          ∧ (12 ≤ len → len ≤ (maxLen : Int) → (b.length : Int) < len →
              scan maxLen pb = ⟨[], [], b⟩)
          ∧ ∀ l : Nat, len = (l : Int) → 12 ≤ l → l ≤ maxLen → l ≤ b.length →
            (slice b (l - 4) l = trailer →
              ∀ r, r = scan maxLen (b.drop l) →
                scan maxLen pb = ⟨b.take l :: r.msgs, r.reports, r.rest⟩)
            ∧ (slice b (l - 4) l ≠ trailer →
              ∀ r, r = scan maxLen (b.drop 4) →
                scan maxLen pb = ⟨r.msgs, (.badTrailer, len) :: r.reports, r.rest⟩))

/-- Rule R31, which the spec marks as derived: the parse buffer after a completed iteration, and the bound
on what is held during one. -/
def Obligations.ParseBufferIsCanonicalAfterAnIteration : Prop :=
  ∀ s t : State, s.Inv → exec .fpIter s = .next t →
    ((BufferFormA t.fp.pb ∧ ¬ BufferFormB t.fp.pb ∧ ¬ BufferFormC s.par.maxLen t.fp.pb)
        ∨ (¬ BufferFormA t.fp.pb ∧ BufferFormB t.fp.pb ∧ ¬ BufferFormC s.par.maxLen t.fp.pb)
        ∨ (¬ BufferFormA t.fp.pb ∧ ¬ BufferFormB t.fp.pb ∧ BufferFormC s.par.maxLen t.fp.pb))
      ∧ t.fp.pb.length < s.par.maxLen
      ∧ (s.fp.pb ++ s.rb.q).length ≤ s.par.maxLen - 1 + s.par.ringCap

/-- Rule R156, the chunking law, which the spec marks as derived: what is emitted depends only on the
concatenation of the chunks, and the messages are disjoint pieces of the stream, in its order. -/
def Obligations.ScanIgnoresChunking : Prop :=
  ∀ maxLen : Nat,
    (∀ b s1 s2 r1 r2, r1 = scan maxLen (b ++ s1) → r2 = scan maxLen (r1.rest ++ s2) →
      scan maxLen (b ++ s1 ++ s2) = ⟨r1.msgs ++ r2.msgs, r1.reports ++ r2.reports, r2.rest⟩)
    ∧ (∀ chunks : List Bytes, scanChunks maxLen [] chunks = scan maxLen chunks.flatten)
    ∧ ∀ b : Bytes, ∃ gaps : List Bytes, ∃ tail, gaps.length = (scan maxLen b).msgs.length
        ∧ b = (List.zipWith (· ++ ·) gaps (scan maxLen b).msgs).flatten ++ tail

/-- Rule R157, the framing round trip, in any chunks; the spec marks it as derived from its scan. -/
def Obligations.FramingRoundTrip : Prop :=
  ∀ (maxLen : Nat) (msgs chunks : List Bytes), maxLen ≤ 2 ^ 31 - 1 →
    (∀ m ∈ msgs, ValidMessage maxLen m) → chunks.flatten = msgs.flatten →
    scanChunks maxLen [] chunks = ⟨msgs, [], []⟩

/-- Rule R158, the resync law, which the spec marks as derived: one corrupted trailer, no header inside or
across the end of the corrupted message. -/
def Obligations.ResyncAfterOneCorruptedTrailer : Prop :=
  ∀ (maxLen : Nat) (before after chunks : List Bytes) (payload bad : Bytes), maxLen ≤ 2 ^ 31 - 1 →
    (∀ m ∈ before, ValidMessage maxLen m) → (∀ m ∈ after, ValidMessage maxLen m) →
    12 + payload.length ≤ maxLen → bad.length = 4 → bad ≠ trailer →
    (∀ j, 4 ≤ j → j < 12 + payload.length →
      ((message payload bad ++ after.flatten).drop j).take 4 ≠ [0x49#8, 0x96#8, 0x02#8, 0xD2#8]) →
    chunks.flatten = before.flatten ++ message payload bad ++ after.flatten →
    (scanChunks maxLen [] chunks).msgs = before ++ after
      ∧ (scanChunks maxLen [] chunks).reports = [(.badTrailer, ((12 + payload.length : Nat) : Int))]

/-! ## The channel layout engine -/

/-- Rules R171 and R172. -/
def Obligations.CommitValidatesAndLocks : Prop :=
  ∀ s : State,
    encode .cfgCommit = ⟨0x30000000#32, [], []⟩
      ∧ (s.issuer ≠ .H → exec .cfgCommit s = .refused .outsideRole)
      ∧ (s.issuer = .H → s.cle.locked = true →
          exec .cfgCommit s = .next (onlyAnswers s .cfgLocked 0#32))
      ∧ (s.issuer = .H → s.cle.locked = false →
          (∀ i, 1 ≤ i → i ≤ 4 → ¬ Check s.par s.cle.cfg i →
            (∀ j, 1 ≤ j → j < i → Check s.par s.cle.cfg j) →
            exec .cfgCommit s = .next (onlyAnswers s .cfgInvalid (BitVec.ofNat 32 i)))
          ∧ ((∀ i, 1 ≤ i → i ≤ 4 → Check s.par s.cle.cfg i) →
            exec .cfgCommit s = .next
              { s with
                cle := { s.cle with valid := true, locked := true, sfidCur := s.cle.cfg.sfidMin },
                responses := answered s .ok 0#32 [] }))

/-- Rule R173. -/
def Obligations.EngineResetEndsTheSession : Prop :=
  ∀ s : State,
    encode .cleReset = ⟨0x31000000#32, [], []⟩
      ∧ (s.issuer ≠ .H → exec .cleReset s = .refused .outsideRole)
      ∧ (s.issuer = .H →
          exec .cleReset s = .next
            { s with
              cle := { s.cle with
                valid := false, locked := false, stg := List.replicate s.cle.stg.length [],
                sfidCur := 0#32 },
              responses := answered s .ok 0#32 [] })

/-- Rule R174: a chunk is staged whole or not at all. -/
def Obligations.AppendStagesTheWholeChunk : Prop :=
  ∀ (ch : BitVec 8) (bytes : Bytes) (s : State) (j : Nat), s.Inv →
    (bytes.length ≤ 65535 →
        encode (.stgAppend ch bytes)
          = ⟨0x32000000#32 + BitVec.ofNat 32 (ch.toNat * 2 ^ 16 + bytes.length), [], bytes⟩)
      ∧ ((∀ k, s.issuer ≠ .S k) → exec (.stgAppend ch bytes) s = .refused .outsideRole)
      ∧ (s.issuer = .S j →
          (s.cle.valid = false →
            exec (.stgAppend ch bytes) s = .next (onlyAnswers s .notConfigured 0#32))
          ∧ (s.cle.valid = true → s.cle.cfg.channelCount.toNat ≤ ch.toNat →
            exec (.stgAppend ch bytes) s = .next (onlyAnswers s .badOperand 0#32))
          ∧ (s.cle.valid = true → ch.toNat < s.cle.cfg.channelCount.toNat →
            (∃ cap, s.par.stgCap = some cap
              ∧ cap < (channel s.cle.stg ch.toNat).length + bytes.length) →
            exec (.stgAppend ch bytes) s = .next (onlyAnswers s .stgFull 0#32))
          ∧ (s.cle.valid = true → ch.toNat < s.cle.cfg.channelCount.toNat →
            (∀ cap, s.par.stgCap = some cap →
              (channel s.cle.stg ch.toNat).length + bytes.length ≤ cap) →
            ∃ stg, exec (.stgAppend ch bytes) s = .next
                { s with cle := { s.cle with stg := stg }, responses := answered s .ok 0#32 [] }
              ∧ stg.length = s.cle.stg.length
              ∧ channel stg ch.toNat = channel s.cle.stg ch.toNat ++ bytes
              ∧ ∀ c, c ≠ ch.toNat → channel stg c = channel s.cle.stg c))

/-- The checks of rules R175, R176 and R185, in their order (rule R251): what the demultiplex operations
answer without a committed configuration, to an operand of the wrong length, and when check 5 fails; and
what the multiplex operations answer in the first and the last case. -/
def Obligations.LayoutOperationsRefuseWithoutConfiguration : Prop :=
  (∀ (p : Policy) (f : Bytes) (s : State), s.issuer = .Y →
    (s.cle.valid = false → exec (p.dmx f) s = .next (onlyAnswers s .notConfigured 0#32))
      ∧ (s.cle.valid = true → f.length ≠ s.cle.cfg.frameLen.toNat →
          exec (p.dmx f) s = .next (onlyAnswers s .badOperand 0#32))
      ∧ (s.cle.valid = true → f.length = s.cle.cfg.frameLen.toNat → p = .rc → ¬ Check5 s.cle.cfg →
          exec (p.dmx f) s = .next (onlyAnswers s .cfgInvalid 5#32)))
  ∧ ∀ (p : Policy) (s : State), s.issuer = .X →
    (s.cle.valid = false → exec p.mux s = .next (onlyAnswers s .notConfigured 0#32))
      ∧ (s.cle.valid = true → p = .rc → ¬ Check5 s.cle.cfg →
          exec p.mux s = .next (onlyAnswers s .cfgInvalid 5#32))

/-- Rule R180: channel `c` gains the words `i` of the payload with `i mod N = c`, in order. -/
def Obligations.DemuxColumnCrossRoutesWords : Prop :=
  ∀ (f : Bytes) (s : State), s.Inv → s.issuer = .Y → s.cle.valid = true →
    f.length = s.cle.cfg.frameLen.toNat →
    ∃ dout, exec (.dmxXc f) s = .next
        { s with out := { s.out with dout := dout }, responses := answered s .ok 0#32 [] }
      ∧ dout.length = s.out.dout.length
      ∧ (∀ c < s.cle.cfg.n, channel dout c = channel s.out.dout c
          ++ ((List.range ((s.cle.cfg.fl - s.cle.cfg.p0) / 2)).filter
              (fun i => i % s.cle.cfg.n = c)).flatMap (frameWord s.cle.cfg f))
      ∧ (∀ c < s.cle.cfg.n, (channel dout c).length = (channel s.out.dout c).length
          + 2 * (((s.cle.cfg.fl - s.cle.cfg.p0) / 2 - c + s.cle.cfg.n - 1) / s.cle.cfg.n))
      ∧ ∀ c, s.cle.cfg.n ≤ c → channel dout c = channel s.out.dout c

/-- Rule R181: channel `c` gains the block `c` of the payload, verbatim. -/
def Obligations.DemuxColumnContinuousRoutesBlocks : Prop :=
  ∀ (f : Bytes) (s : State), s.Inv → s.issuer = .Y → s.cle.valid = true →
    f.length = s.cle.cfg.frameLen.toNat →
    ∃ dout, exec (.dmxCc f) s = .next
        { s with out := { s.out with dout := dout }, responses := answered s .ok 0#32 [] }
      ∧ dout.length = s.out.dout.length
      ∧ (∀ bpc, bpc = (s.cle.cfg.fl - s.cle.cfg.p0) / s.cle.cfg.n → ∀ c < s.cle.cfg.n,
          channel dout c = channel s.out.dout c ++ (f.drop (s.cle.cfg.p0 + c * bpc)).take bpc)
      ∧ ∀ c, s.cle.cfg.n ≤ c → channel dout c = channel s.out.dout c

/-- Rules R182, R183 and R176: the row policies give the whole payload to the row's channel, or ignore the
row. -/
def Obligations.DemuxRowRoutesTheWholePayload : Prop :=
  ∀ (p : Policy) (f : Bytes) (s : State) (ch : Option Nat), s.Inv → s.issuer = .Y → p.Ready s →
    f.length = s.cle.cfg.frameLen.toNat →
    ((p = .row ∧ ch = rowChannel s.cle.cfg (decBe ((f.drop 4).take 2)))
      ∨ (p = .rc ∧ ch = runChannel s.cle.cfg (decBe ((f.drop 4).take 2)))) →
    (ch = none → exec (p.dmx f) s = .next (onlyAnswers s .ok 0xFFFFFFFF#32))
      ∧ ∀ own, ch = some own → own < s.cle.cfg.n ∧
          ∃ dout, exec (p.dmx f) s = .next
            { s with out := { s.out with dout := dout },
                     responses := answered s .ok (BitVec.ofNat 32 own) [] }
          ∧ dout.length = s.out.dout.length
          ∧ channel dout own
              = channel s.out.dout own ++ swapRun s.cle.cfg.bigendian (f.drop s.cle.cfg.p0)
          ∧ ∀ c, c ≠ own → channel dout c = channel s.out.dout c

/-- Rule R186 (and R197, the source's testable property): a row of no channel, or one needed channel short,
gives an idle frame; nothing is consumed, the SFID advances. -/
def Obligations.MuxBuildsAnIdleFrameWhenShort : Prop :=
  ∀ (p : Policy) (s : State), s.Inv → s.issuer = .X → p.Ready s → ¬ p.Supplied s →
    ∃ payload, exec p.mux s = .next
        { s with
          out := { s.out with frmOut := s.out.frmOut ++ [frameHead s ++ payload] },
          cle := { s.cle with sfidCur := sfidAfter s },
          responses := answered s .ok 1#32 [] }
      ∧ payload.length = s.cle.cfg.fl - s.cle.cfg.p0
      ∧ ∀ j < payload.length, payload.getD j 0#8 = fillerByte j

/-- Rules R185 and R190 to R194: with every needed channel supplied the frame is a data frame; the needed
bytes, and only they, leave the front of each staging buffer. -/
def Obligations.MuxBuildsADataFrameWhenSupplied : Prop :=
  ∀ (p : Policy) (s : State), s.Inv → s.issuer = .X → p.Ready s → p.Supplied s →
    ∃ payload stg, exec p.mux s = .next
        { s with
          out := { s.out with frmOut := s.out.frmOut ++ [frameHead s ++ payload] },
          cle := { s.cle with stg := stg, sfidCur := sfidAfter s },
          responses := answered s .ok 0#32 [] }
      ∧ payload.length = s.cle.cfg.fl - s.cle.cfg.p0
      ∧ stg.length = s.cle.stg.length
      ∧ (∀ c < s.cle.cfg.n, channel stg c = (channel s.cle.stg c).drop (p.need s c))
      ∧ ∀ c, s.cle.cfg.n ≤ c → channel stg c = channel s.cle.stg c

/-- Rule R191: where column-cross lays the staged bytes. -/
def Obligations.MuxColumnCrossInterleavesWords : Prop :=
  ∀ s t : State, s.Inv → s.issuer = .X → Policy.xc.Ready s → Policy.xc.Supplied s →
    exec .muxXc s = .next t →
    ∃ payload, t.out.frmOut = s.out.frmOut ++ [frameHead s ++ payload]
      ∧ (∀ i < (s.cle.cfg.fl - s.cle.cfg.p0) / 2,
          (payload.drop (2 * i)).take 2
            = word16 s.cle.cfg
                ((channel s.cle.stg (i % s.cle.cfg.n)).getD (2 * (i / s.cle.cfg.n)) 0#8)
                ((channel s.cle.stg (i % s.cle.cfg.n)).getD (2 * (i / s.cle.cfg.n) + 1) 0#8))
      ∧ payload.drop (2 * ((s.cle.cfg.fl - s.cle.cfg.p0) / 2))
          = List.replicate ((s.cle.cfg.fl - s.cle.cfg.p0) % 2) 0#8

/-- Rules R192 to R194: where the other policies lay the staged bytes. -/
def Obligations.MuxLaysBlocksAndRows : Prop :=
  ∀ (p : Policy) (s t : State), s.Inv → s.issuer = .X → p.Ready s → p.Supplied s →
    exec p.mux s = .next t →
    ∃ payload, t.out.frmOut = s.out.frmOut ++ [frameHead s ++ payload]
      ∧ (p = .cc → ∀ bpc, bpc = (s.cle.cfg.fl - s.cle.cfg.p0) / s.cle.cfg.n →
          (∀ c < s.cle.cfg.n,
            (payload.drop (c * bpc)).take bpc = (channel s.cle.stg c).take bpc)
          ∧ payload.drop (s.cle.cfg.n * bpc)
              = List.replicate (s.cle.cfg.fl - s.cle.cfg.p0 - s.cle.cfg.n * bpc) 0#8)
      ∧ ((p = .row ∨ p = .rc) → ∀ own, p.rowOf s = some own →
          payload = swapRun s.cle.cfg.bigendian
            ((channel s.cle.stg own).take (s.cle.cfg.fl - s.cle.cfg.p0)))

/-- Rule R195, the frame-length law, which the spec marks as derived. -/
def Obligations.EveryBuiltFrameHasTheFrameLength : Prop :=
  ∀ (p : Policy) (s t : State), s.Inv → exec p.mux s = .next t →
    t.out.frmOut = s.out.frmOut
      ∨ ∃ f : Bytes, t.out.frmOut = s.out.frmOut ++ [f] ∧ f.length = s.cle.cfg.frameLen.toNat

/-- Rule R190: starting at `sfid_min`, the SFID runs through `sfid_min .. sfid_max` and starts again. -/
def Obligations.SfidCyclesThroughItsRange : Prop :=
  ∀ c : LayoutConfig, c.sfidMin.toNat ≤ c.sfidMax.toNat →
    (∀ k, k ≤ c.sfidMax.toNat - c.sfidMin.toNat →
      (c.nextSfid^[k] c.sfidMin).toNat = c.sfidMin.toNat + k)
    ∧ c.nextSfid^[c.sfidMax.toNat - c.sfidMin.toNat + 1] c.sfidMin = c.sfidMin

/-- Rule R196, per frame; the spec marks it as derived. The demultiplexer of the same policy gives back
exactly the bytes that a data frame took. -/
def Obligations.DemuxOfMuxReturnsTheStagedBytes : Prop :=
  ∀ (p : Policy) (s t : State), s.Inv → s.issuer = .X → p.Ready s → p.Supplied s →
    exec p.mux s = .next t →
    ∃ f u, t.out.frmOut = s.out.frmOut ++ [f]
      ∧ exec (p.dmx f) { t with issuer := .Y } = .next u
      ∧ ∀ c < s.cle.cfg.n, ∃ taken,
          channel s.cle.stg c = taken ++ channel t.cle.stg c
          ∧ channel u.out.dout c = channel s.out.dout c ++ taken

/-- Rule R198, which the spec marks as derived: what the demultiplexer makes of an idle frame's filler. -/
def Obligations.DemuxOfAnIdleFrameGivesFiller : Prop :=
  ∀ (p : Policy) (f : Bytes) (s t : State), s.Inv → s.issuer = .Y → p.Ready s →
    f.length = s.cle.cfg.frameLen.toNat →
    (∀ j < s.cle.cfg.fl - s.cle.cfg.p0, f.getD (s.cle.cfg.p0 + j) 0#8 = fillerByte j) →
    exec (p.dmx f) s = .next t →
    ∀ c < s.cle.cfg.n, ∃ gain : Bytes,
      channel t.out.dout c = channel s.out.dout c ++ gain
      ∧ (p = .cc → ∀ j < gain.length,
          gain.getD j 0#8 = fillerByte (c * ((s.cle.cfg.fl - s.cle.cfg.p0) / s.cle.cfg.n) + j))
      ∧ (p ≠ .cc → s.cle.cfg.bigendian = true → ∀ j < gain.length, gain.getD j 0#8 = fillerByte j)
      ∧ (p ≠ .cc → s.cle.cfg.bigendian = false →
          ∀ j < gain.length / 2 * 2, gain.getD j 0#8 = fillerByte (j + 1))

/-! ## The idle-frame detector -/

/-- Rules R220 and R221. -/
def Obligations.IdleCheckForwardsRealPayloads : Prop :=
  ∀ (payload : Bytes) (s : State),
    (payload.length ≤ 65535 →
        encode (.idleChk payload) = ⟨0x40000000#32 + BitVec.ofNat 32 payload.length, [], payload⟩)
      ∧ (s.issuer ≠ .I → exec (.idleChk payload) s = .refused .outsideRole)
      ∧ (s.issuer = .I →
          (payload.length < 8 ∨ payload.take 8 ∈
              [ List.replicate 8 0x00#8,
                [0xFA#8, 0xDE#8, 0xFA#8, 0xDE#8, 0xFA#8, 0xDE#8, 0xFA#8, 0xDE#8],
                s.par.sent2, s.par.sent3, s.par.sent4, s.par.altPat ] →
            exec (.idleChk payload) s = .next (onlyAnswers s .ok 1#32))
          ∧ (8 ≤ payload.length → payload.take 8 ∉
              [ List.replicate 8 0x00#8,
                [0xFA#8, 0xDE#8, 0xFA#8, 0xDE#8, 0xFA#8, 0xDE#8, 0xFA#8, 0xDE#8],
                s.par.sent2, s.par.sent3, s.par.sent4, s.par.altPat ] →
            exec (.idleChk payload) s = .next
              { s with out := { s.out with fwd := s.out.fwd ++ [payload] },
                       responses := answered s .ok 0#32 [] }))

/-- Rule R222: the source's examples; and rule R100, which the spec marks as derived: the set of sentinels
is closed under reversal, so the byte order of the comparison does not matter. The last two parts take the
sentinel table of rule R99 as a hypothesis, as that rule asks. -/
def Obligations.IdleExamplesAndReversal : Prop :=
  ∀ par : Params,
    isIdle par (List.replicate 8 0x00#8) = true
      ∧ isIdle par [0xFA#8, 0xDE#8, 0xFA#8, 0xDE#8, 0xFA#8, 0xDE#8, 0xFA#8, 0xDE#8] = true
      ∧ (∀ p : Bytes, p.length = 7 → isIdle par p = true)
      ∧ (par.Ok → par.SentinelsOfTable →
          isIdle par [0x11#8, 0x22#8, 0x33#8, 0x44#8, 0x55#8, 0x66#8, 0x77#8, 0x88#8] = false)
      ∧ (par.Ok → par.SentinelsOfTable → ∀ p : Bytes, p ∈ sentinels par ↔ p.reverse ∈ sentinels par)

/-! ## The registers -/

/-- Rules R50 and R230: the register map, for every agent; every other address is `BAD_ADDR`. -/
def Obligations.RegisterReadsFollowTheMap : Prop :=
  ∀ (s : State) (a : BitVec 16), s.par.Ok →
    encode (.csrRd a) = ⟨0x01000000#32 + BitVec.ofNat 32 a.toNat, [], []⟩
      ∧ (∀ v, (a, v) ∈ csrMap s → exec (.csrRd a) s = .next (onlyAnswers s .ok v))
      ∧ (a ∉ (csrMap s).map Prod.fst → exec (.csrRd a) s = .next (onlyAnswers s .badAddr 0#32))

/-- Rules R51 and R231: a write to a writable register of an unlocked configuration changes that field and
nothing else, and a later read returns the stored bits of the written word, all others 0. -/
def Obligations.RegisterWritesChangeOneField : Prop :=
  ∀ (s : State) (a : BitVec 16) (v : Word),
    encode (.csrWr a v) = ⟨0x02000000#32 + BitVec.ofNat 32 a.toNat, [v], []⟩
      ∧ (s.issuer ≠ .H → exec (.csrWr a v) s = .refused .outsideRole)
      ∧ (s.issuer = .H →
          (a ∉ (csrFields s.cle.cfg v).map Prod.fst →
            exec (.csrWr a v) s = .next (onlyAnswers s .badAddr 0#32))
          ∧ (a ∈ (csrFields s.cle.cfg v).map Prod.fst → s.cle.locked = true →
            exec (.csrWr a v) s = .next (onlyAnswers s .cfgLocked 0#32))
          ∧ (∀ cfg, (a, cfg) ∈ csrFields s.cle.cfg v → s.cle.locked = false →
            exec (.csrWr a v) s = .next
              { s with cle := { s.cle with cfg := cfg }, responses := answered s .ok 0#32 [] })
          ∧ (∀ (t : State) (mask : Word), (a, mask) ∈ csrMasks → s.cle.locked = false →
            exec (.csrWr a v) s = .next t →
            exec (.csrRd a) t = .next (onlyAnswers t .ok (v &&& mask))))

/-! ## Laws of all operations -/

/-- Rule R242, which the spec marks as derived: every status but `OK` and `FULL` leaves all state and all
streams as they were, but for the halt of `FP.ITER`. -/
def Obligations.ErrorsLeaveTheStateAlone : Prop :=
  ∀ (i : Instr) (s t : State) (r : Response), exec i s = .next t →
    t.responses = s.responses ++ [r] → r.status ≠ .ok →
    (r.status = .full → ∃ n, t = { s with rb := { s.rb with lost := n }, responses := t.responses })
      ∧ (r.status ≠ .full → i = .fpIter → r.status = .closed →
          t = { s with fp := { s.fp with state := .halted }, responses := t.responses })
      ∧ (r.status ≠ .full → ¬ (i = .fpIter ∧ r.status = .closed) →
          t = { s with responses := t.responses })

/-- The frame of every operation: which unit's state and which stream it can change (rules R45, R238,
R258); a held operation adds no response and any other exactly one, to its issuer. -/
def Obligations.OperationsKeepToTheirUnit : Prop :=
  ∀ (i : Instr) (s t : State), exec i s = .next t →
    t.par = s.par ∧ t.issuer = s.issuer ∧ t.events = s.events
      ∧ (i.op ∉ [.rbPush, .rbPushr, .rbPop, .rbPopn, .rbQuit, .rbReset, .fpIter] → t.rb = s.rb)
      ∧ (i.op ∉ [.fpStart, .fpIter, .fpReset] → t.fp = s.fp)
      ∧ (i.op ∉ [.csrWr, .cfgCommit, .cleReset, .stgAppend, .muxXc, .muxCc, .muxRow, .muxRc] →
          t.cle = s.cle)
      ∧ (i.op ≠ .csrWr → t.cle.cfg = s.cle.cfg)
      ∧ (i.op ∉ [.rbPop, .rbPopn, .fpIter] → t.held = s.held)
      ∧ (i.op ≠ .fpIter → t.out.msgOut = s.out.msgOut ∧ t.out.fpLog = s.out.fpLog)
      ∧ (i.op ∉ [.muxXc, .muxCc, .muxRow, .muxRc] → t.out.frmOut = s.out.frmOut)
      ∧ (i.op ∉ [.dmxXc, .dmxCc, .dmxRow, .dmxRc] → t.out.dout = s.out.dout)
      ∧ (i.op ≠ .idleChk → t.out.fwd = s.out.fwd)
      ∧ ((t.responses = s.responses ∧ s.held = none ∧ t.held ≠ none)
          ∨ (t.held = s.held ∧ ∃ r, r.agent = s.issuer ∧ t.responses = s.responses ++ [r]))

/-- Rule R45: but for hardware reset, every step only appends to the streams. -/
def Obligations.StreamsOnlyGrow : Prop :=
  ∀ s t : State, ¬ Resets s → step s = .next t →
    s.out.msgOut <+: t.out.msgOut ∧ s.out.fpLog <+: t.out.fpLog ∧ s.out.frmOut <+: t.out.frmOut
      ∧ s.out.fwd <+: t.out.fwd ∧ (∀ c, channel s.out.dout c <+: channel t.out.dout c)
      ∧ s.responses <+: t.responses ∧ t.par = s.par

/-- Rule R236, which the spec marks as derived: the three state machines move only as tabulated. -/
def Obligations.StateMachinesMoveAsTabulated : Prop :=
  ∀ s t : State, ¬ Resets s → step s = .next t →
    (t.fp.state ≠ s.fp.state →
      (t.fp.state = .run ∧ Issues s .fpStart)
        ∨ (t.fp.state = .halted ∧ s.rb.q = [] ∧ s.rb.quit = true
            ∧ ∃ a, t.responses = s.responses ++ [⟨a, .closed, 0#32, []⟩])
        ∨ (t.fp.state = .idle ∧ s.fp.state = .halted ∧ Issues s .fpReset))
      ∧ (t.cle.valid ≠ s.cle.valid →
          (t.cle.valid = true ∧ Issues s .cfgCommit) ∨ (t.cle.valid = false ∧ Issues s .cleReset))
      ∧ (t.rb.quit ≠ s.rb.quit →
          (t.rb.quit = true ∧ Issues s .rbQuit) ∨ (t.rb.quit = false ∧ Issues s .rbReset))
      ∧ (s.cle.locked = true → t.cle.cfg = s.cle.cfg)

/-- Rule R254, which the spec marks as derived: with nothing held and the parser stopped, `RB.RESET`,
`FP.RESET`, `CLE.RESET` lead to the reset state, except for the streams and the `CFG_*` values. -/
def Obligations.ThreeResetsRecoverTheResetState : Prop :=
  ∀ s : State, s.Inv → s.issuer = .H → s.held = none → s.fp.state ≠ .run →
    ∃ t u v, exec .rbReset s = .next t ∧ exec .fpReset t = .next u ∧ exec .cleReset u = .next v
      ∧ v = { State.resetWith s.par with
        cle := { (State.resetWith s.par).cle with cfg := s.cle.cfg },
        out := s.out, issuer := .H, responses := v.responses, events := s.events }

/-- Reset satisfies the invariant, for every choice of the parameters that rule R6 allows. -/
def Obligations.ResetMeetsTheInvariant : Prop :=
  (∀ p : Params, p.Ok → (State.resetWith p).Inv) ∧ State.reset.Inv

/-- Every step keeps the invariant (rules R22, R31, R34, R35, R42, R172, R190). -/
def Obligations.EveryStepKeepsTheInvariant : Prop :=
  ∀ s t : State, s.Inv → step s = .next t → t.Inv

/-! ## Arithmetic and encodings -/

/-- Rule R64: the byte-order primitive and its involution. -/
def Obligations.PayloadSwapIsItsOwnInverse : Prop :=
  (∀ a b : Byte, w16 true a b = [a, b] ∧ w16 false a b = [b, a])
    ∧ ∀ (be : Bool) (s : Bytes),
      swapRun be (swapRun be s) = s ∧ (swapRun be s).length = s.length
        ∧ (∀ i, 2 * i + 1 < s.length →
            ((swapRun be s).drop (2 * i)).take 2 = w16 be (s.getD (2 * i) 0#8) (s.getD (2 * i + 1) 0#8))
        ∧ (s.length % 2 = 1 → (swapRun be s).getLast? = s.getLast?)

/-- Rules R11 and R92: big-endian encodings, the signed reading, and the magic bytes. -/
def Obligations.IntegerEncodingsAreBigEndian : Prop :=
  (∀ a b c d : Byte,
      be32 [a, b, c, d]
        = a.toNat * 2 ^ 24 + b.toNat * 2 ^ 16 + c.toNat * 2 ^ 8 + d.toNat)
    ∧ (∀ k v, v < 256 ^ k → (encBe k v).length = k ∧ decBe (encBe k v) = v)
    ∧ (∀ s : Bytes, encBe s.length (decBe s) = s)
    ∧ hdrBytes = [0x49#8, 0x96#8, 0x02#8, 0xD2#8] ∧ trlBytes = [0xB6#8, 0x69#8, 0xFD#8, 0x2E#8]
    ∧ sbe32 hdrBytes = 1234567890 ∧ sbe32 trlBytes = -1234567890
end

