-- ==== Sys2Proof/Laws/Decode.lean ====
section
/-! SUPPORT. The fields of a command word, the operation codes, and what the decoder accepts. -/

namespace Sys2Proof

/-! ## Fields of the command word -/

@[simp] theorem opField_commandWord (op ch : BitVec 8) (n : BitVec 16) :
    opField (commandWord op ch n) = op := by
  apply BitVec.eq_of_getLsbD_eq
  intro i hi
  simp only [opField, commandWord, BitVec.getLsbD_extractLsb', BitVec.getLsbD_append, hi,
    decide_true, Bool.true_and]
  simp only [show ¬ (24 + i < 16) by omega, show ¬ (24 + i - 16 < 8) by omega, if_false]
  congr 1; omega

@[simp] theorem chField_commandWord (op ch : BitVec 8) (n : BitVec 16) :
    chField (commandWord op ch n) = ch := by
  apply BitVec.eq_of_getLsbD_eq
  intro i hi
  simp only [chField, commandWord, BitVec.getLsbD_extractLsb', BitVec.getLsbD_append, hi,
    decide_true, Bool.true_and]
  simp only [show ¬ (16 + i < 16) by omega, show 16 + i - 16 < 8 by omega, if_false, if_true]
  congr 1; omega

@[simp] theorem nField_commandWord (op ch : BitVec 8) (n : BitVec 16) :
    nField (commandWord op ch n) = n := by
  apply BitVec.eq_of_getLsbD_eq
  intro i hi
  simp only [nField, commandWord, BitVec.getLsbD_extractLsb', BitVec.getLsbD_append, hi,
    decide_true, Bool.true_and]
  rw [if_pos (by omega), Nat.zero_add]

theorem itemField_eq (w : Word) : itemField w = (nField w).setWidth 8 := by
  apply BitVec.eq_of_getLsbD_eq
  intro i hi
  simp [itemField, nField, hi, show i < 16 by omega]

theorem nHighField_eq (w : Word) : nHighField w = (nField w).extractLsb' 8 8 := by
  apply BitVec.eq_of_getLsbD_eq
  intro i hi
  simp [nHighField, nField, hi]

/-- A command word is its three fields. -/
theorem commandWord_fields (w : Word) : commandWord (opField w) (chField w) (nField w) = w := by
  apply BitVec.eq_of_getLsbD_eq
  intro i hi
  simp only [commandWord, opField, chField, nField, BitVec.getLsbD_append,
    BitVec.getLsbD_extractLsb']
  by_cases h16 : i < 16
  · simp [h16]
  · by_cases h24 : i - 16 < 8
    · simp [h16, h24, show 16 + (i - 16) = i by omega]
    · simp [h16, h24, show i - 16 - 8 < 8 by omega, show 24 + (i - 16 - 8) = i by omega]

theorem commandWord_toNat (op ch : BitVec 8) (n : BitVec 16) :
    (commandWord op ch n).toNat = op.toNat * 2 ^ 24 + ch.toNat * 2 ^ 16 + n.toNat := by
  have hn := n.isLt
  have hc := ch.isLt
  simp only [commandWord, BitVec.toNat_append]
  rw [← Nat.shiftLeft_add_eq_or_of_lt hn, Nat.shiftLeft_eq, ← Nat.shiftLeft_add_eq_or_of_lt hc,
    Nat.shiftLeft_eq]
  ring

/-! ## Masked comparison of a command word, field by field -/

theorem commandWord_inj {op op' ch ch' : BitVec 8} {n n' : BitVec 16} :
    commandWord op ch n = commandWord op' ch' n' ↔ op = op' ∧ ch = ch' ∧ n = n' := by
  refine ⟨fun h => ⟨?_, ?_, ?_⟩, by rintro ⟨rfl, rfl, rfl⟩; rfl⟩
  · simpa using congrArg opField h
  · simpa using congrArg chField h
  · simpa using congrArg nField h

theorem commandWord_and (op op' ch ch' : BitVec 8) (n n' : BitVec 16) :
    commandWord op ch n &&& commandWord op' ch' n'
      = commandWord (op &&& op') (ch &&& ch') (n &&& n') := by
  apply BitVec.eq_of_getLsbD_eq
  intro i _
  simp only [commandWord, BitVec.getLsbD_and, BitVec.getLsbD_append]
  split
  · rfl
  · split <;> rfl

/-- A word masked field by field equals a command word exactly if its masked fields do. -/
theorem masked_eq_iff (w : Word) (op op' ch ch' : BitVec 8) (n n' : BitVec 16) :
    w &&& commandWord op' ch' n' = commandWord op ch n ↔
      opField w &&& op' = op ∧ chField w &&& ch' = ch ∧ nField w &&& n' = n := by
  conv_lhs => rw [← commandWord_fields w]
  rw [commandWord_and, commandWord_inj]

/-! ## Operation codes -/

@[simp] theorem Op.ofCode_code (o : Op) : Op.ofCode o.code = some o := by
  cases o <;> decide

theorem Op.code_of_ofCode {c : BitVec 8} {o : Op} (h : Op.ofCode c = some o) : o.code = c := by
  simpa using List.find?_some h

@[simp] theorem Op.mem_all (o : Op) : o ∈ Op.all := by
  cases o <;> decide

theorem Op.ofCode_eq_none_iff {c : BitVec 8} : Op.ofCode c = none ↔ ∀ o : Op, o.code ≠ c := by
  simp [Op.ofCode]

/-! ## What the decoder accepts -/

@[simp] theorem hasLength_iff {α : Type} (l : List α) (n : Nat) :
    hasLength l n = true ↔ l.length = n := by
  induction l generalizing n with
  | nil => cases n <;> simp [hasLength]
  | cons a l ih => cases n <;> simp [hasLength, ih]

/-- The decoder answers an operation exactly for a known code, zero must-be-zero bits and the right number
of argument words and operand bytes. -/
theorem decode_eq_instr_iff (c : Command) (i : Instr) :
    decode c = .instr i ↔
      ∃ o, Op.ofCode (opField c.word) = some o ∧ o.zerosOk c.word = true
        ∧ c.args.length = o.argWords ∧ c.operand.length = o.operandBytes c.word ∧ i = o.build c := by
  unfold decode
  cases Op.ofCode (opField c.word) with
  | none => simp
  | some o =>
    simp only [Option.some.injEq, exists_eq_left', Bool.and_eq_true, hasLength_iff]
    by_cases hz : o.zerosOk c.word = true
    · by_cases hl : c.args.length = o.argWords ∧ c.operand.length = o.operandBytes c.word
      · simp only [hz, hl, and_self, if_true, Decoded.instr.injEq, true_and]
        exact eq_comm
      · simp only [hz, hl, if_true, if_false, reduceCtorEq, true_and, false_iff]
        exact fun h => hl ⟨h.1, h.2.1⟩
    · simp [hz]

/-- The operation of a decoded command is the one its code names. -/
theorem op_of_decode {c : Command} {i : Instr} (h : decode c = .instr i) :
    Op.ofCode (opField c.word) = some i.op := by
  obtain ⟨o, ho, -, -, -, rfl⟩ := (decode_eq_instr_iff c i).1 h
  cases o <;> simpa [Op.build, Instr.op] using ho

end Sys2Proof
end

