-- ==== Sys2Proof/Laws/State.lean ====
section
/-! SUPPORT. What each update of the state leaves of each field: one lemma per field per update. -/

namespace Sys2Proof.Machine

section withRing
variable (s : State) (x : Ring)
@[simp] theorem State.withRing_par : (s.withRing x).par = s.par := rfl
@[simp] theorem State.withRing_rb : (s.withRing x).rb = x := rfl
@[simp] theorem State.withRing_fp : (s.withRing x).fp = s.fp := rfl
@[simp] theorem State.withRing_cle : (s.withRing x).cle = s.cle := rfl
@[simp] theorem State.withRing_held : (s.withRing x).held = s.held := rfl
@[simp] theorem State.withRing_out : (s.withRing x).out = s.out := rfl
@[simp] theorem State.withRing_issuer : (s.withRing x).issuer = s.issuer := rfl
@[simp] theorem State.withRing_responses : (s.withRing x).responses = s.responses := rfl
@[simp] theorem State.withRing_events : (s.withRing x).events = s.events := rfl
end withRing

section withParser
variable (s : State) (x : Parser)
@[simp] theorem State.withParser_par : (s.withParser x).par = s.par := rfl
@[simp] theorem State.withParser_rb : (s.withParser x).rb = s.rb := rfl
@[simp] theorem State.withParser_fp : (s.withParser x).fp = x := rfl
@[simp] theorem State.withParser_cle : (s.withParser x).cle = s.cle := rfl
@[simp] theorem State.withParser_held : (s.withParser x).held = s.held := rfl
@[simp] theorem State.withParser_out : (s.withParser x).out = s.out := rfl
@[simp] theorem State.withParser_issuer : (s.withParser x).issuer = s.issuer := rfl
@[simp] theorem State.withParser_responses : (s.withParser x).responses = s.responses := rfl
@[simp] theorem State.withParser_events : (s.withParser x).events = s.events := rfl
end withParser

section withLayout
variable (s : State) (x : Layout)
@[simp] theorem State.withLayout_par : (s.withLayout x).par = s.par := rfl
@[simp] theorem State.withLayout_rb : (s.withLayout x).rb = s.rb := rfl
@[simp] theorem State.withLayout_fp : (s.withLayout x).fp = s.fp := rfl
@[simp] theorem State.withLayout_cle : (s.withLayout x).cle = x := rfl
@[simp] theorem State.withLayout_held : (s.withLayout x).held = s.held := rfl
@[simp] theorem State.withLayout_out : (s.withLayout x).out = s.out := rfl
@[simp] theorem State.withLayout_issuer : (s.withLayout x).issuer = s.issuer := rfl
@[simp] theorem State.withLayout_responses : (s.withLayout x).responses = s.responses := rfl
@[simp] theorem State.withLayout_events : (s.withLayout x).events = s.events := rfl
end withLayout

section withHeld
variable (s : State) (x : Option Held)
@[simp] theorem State.withHeld_par : (s.withHeld x).par = s.par := rfl
@[simp] theorem State.withHeld_rb : (s.withHeld x).rb = s.rb := rfl
@[simp] theorem State.withHeld_fp : (s.withHeld x).fp = s.fp := rfl
@[simp] theorem State.withHeld_cle : (s.withHeld x).cle = s.cle := rfl
@[simp] theorem State.withHeld_held : (s.withHeld x).held = x := rfl
@[simp] theorem State.withHeld_out : (s.withHeld x).out = s.out := rfl
@[simp] theorem State.withHeld_issuer : (s.withHeld x).issuer = s.issuer := rfl
@[simp] theorem State.withHeld_responses : (s.withHeld x).responses = s.responses := rfl
@[simp] theorem State.withHeld_events : (s.withHeld x).events = s.events := rfl
end withHeld

section withOut
variable (s : State) (x : Streams)
@[simp] theorem State.withOut_par : (s.withOut x).par = s.par := rfl
@[simp] theorem State.withOut_rb : (s.withOut x).rb = s.rb := rfl
@[simp] theorem State.withOut_fp : (s.withOut x).fp = s.fp := rfl
@[simp] theorem State.withOut_cle : (s.withOut x).cle = s.cle := rfl
@[simp] theorem State.withOut_held : (s.withOut x).held = s.held := rfl
@[simp] theorem State.withOut_out : (s.withOut x).out = x := rfl
@[simp] theorem State.withOut_issuer : (s.withOut x).issuer = s.issuer := rfl
@[simp] theorem State.withOut_responses : (s.withOut x).responses = s.responses := rfl
@[simp] theorem State.withOut_events : (s.withOut x).events = s.events := rfl
end withOut

section withIssuer
variable (s : State) (x : Agent)
@[simp] theorem State.withIssuer_par : (s.withIssuer x).par = s.par := rfl
@[simp] theorem State.withIssuer_rb : (s.withIssuer x).rb = s.rb := rfl
@[simp] theorem State.withIssuer_fp : (s.withIssuer x).fp = s.fp := rfl
@[simp] theorem State.withIssuer_cle : (s.withIssuer x).cle = s.cle := rfl
@[simp] theorem State.withIssuer_held : (s.withIssuer x).held = s.held := rfl
@[simp] theorem State.withIssuer_out : (s.withIssuer x).out = s.out := rfl
@[simp] theorem State.withIssuer_issuer : (s.withIssuer x).issuer = x := rfl
@[simp] theorem State.withIssuer_responses : (s.withIssuer x).responses = s.responses := rfl
@[simp] theorem State.withIssuer_events : (s.withIssuer x).events = s.events := rfl
end withIssuer

section withEvents
variable (s : State) (x : List Event)
@[simp] theorem State.withEvents_par : (s.withEvents x).par = s.par := rfl
@[simp] theorem State.withEvents_rb : (s.withEvents x).rb = s.rb := rfl
@[simp] theorem State.withEvents_fp : (s.withEvents x).fp = s.fp := rfl
@[simp] theorem State.withEvents_cle : (s.withEvents x).cle = s.cle := rfl
@[simp] theorem State.withEvents_held : (s.withEvents x).held = s.held := rfl
@[simp] theorem State.withEvents_out : (s.withEvents x).out = s.out := rfl
@[simp] theorem State.withEvents_issuer : (s.withEvents x).issuer = s.issuer := rfl
@[simp] theorem State.withEvents_responses : (s.withEvents x).responses = s.responses := rfl
@[simp] theorem State.withEvents_events : (s.withEvents x).events = x := rfl
end withEvents

section respond
variable (s : State) (status : Status) (value : Word) (data : Bytes)
@[simp] theorem State.respond_par :
    (s.respond status value data).par = s.par := rfl
@[simp] theorem State.respond_rb :
    (s.respond status value data).rb = s.rb := rfl
@[simp] theorem State.respond_fp :
    (s.respond status value data).fp = s.fp := rfl
@[simp] theorem State.respond_cle :
    (s.respond status value data).cle = s.cle := rfl
@[simp] theorem State.respond_held :
    (s.respond status value data).held = s.held := rfl
@[simp] theorem State.respond_out :
    (s.respond status value data).out = s.out := rfl
@[simp] theorem State.respond_issuer :
    (s.respond status value data).issuer = s.issuer := rfl
@[simp] theorem State.respond_responses :
    (s.respond status value data).responses = s.responses ++ [⟨s.issuer, status, value, data⟩] := rfl
@[simp] theorem State.respond_events :
    (s.respond status value data).events = s.events := rfl
end respond

@[simp] theorem State.raiseError_eq (s : State) (status : Status) (value : Nat) :
    s.raiseError status value = s.respond status (BitVec.ofNat 32 value) [] := rfl

@[simp] theorem State.respondOk_eq (s : State) (value : Nat) :
    s.respondOk value = s.respond .ok (BitVec.ofNat 32 value) [] := rfl

@[simp] theorem State.withDout_eq (s : State) (d : List Bytes) :
    s.withDout d = s.withOut { s.out with dout := d } := rfl

end Sys2Proof.Machine
end

