-- ==== Sys2Proof/Laws/Ops.lean ====
section
/-! SUPPORT. For each shared operation, what it can do. -/

namespace Sys2Proof.Machine

/-! ## Roles -/

theorem byRole_of_mayIssue {o : Op} {s : State} {r : Result} (h : mayIssue o s.issuer = true) :
    byRole o s r = r := if_pos h

theorem byRole_of_not {o : Op} {s : State} {r : Result} (h : mayIssue o s.issuer = false) :
    byRole o s r = .refused .outsideRole := by simp [byRole, h]

/-- An operation that is performed was issued in its role. -/
theorem byRole_next {o : Op} {s t : State} {r : Result} (h : byRole o s r = .next t) :
    mayIssue o s.issuer = true ∧ r = .next t := by
  unfold byRole at h
  split at h
  · exact ⟨‹_›, h⟩
  · cases h

/-! ## The consumer port -/

theorem ready_iff_pop (r : Ring) : HeldOp.pop.ready r = true ↔ 0 < r.q.length ∨ r.quit = true := by
  simp [HeldOp.ready]

theorem ready_iff_iter (r : Ring) : HeldOp.iter.ready r = true ↔ 0 < r.q.length ∨ r.quit = true := by
  simp [HeldOp.ready]

theorem ready_iff_popn (min max : Word) (r : Ring) :
    (HeldOp.popn min max).ready r = true ↔ min.toNat ≤ r.q.length ∨ r.quit = true := by
  simp [HeldOp.ready]

/-- A quit signal releases every held operation (rule R125). -/
theorem ready_of_quit {r : Ring} (op : HeldOp) (h : r.quit = true) : op.ready r = true := by
  cases op <;> simp [HeldOp.ready, h]

/-- A consumer operation that is not refused found nothing held; it is performed if its condition is true
and held otherwise. -/
theorem consume_next {op : HeldOp} {finish : State → State} {s t : State}
    (h : consume op finish s = .next t) :
    s.held = none
      ∧ ((op.ready s.rb = true ∧ t = finish s)
        ∨ (op.ready s.rb = false ∧ t = s.withHeld (some ⟨s.issuer, op⟩))) := by
  unfold consume at h
  split at h
  · cases h
  · rename_i hn
    refine ⟨hn, ?_⟩
    split at h <;> cases h
    · exact .inl ⟨‹_›, rfl⟩
    · exact .inr ⟨by simp_all, rfl⟩

theorem consume_ready {op : HeldOp} {finish : State → State} {s : State} (hn : s.held = none)
    (hr : op.ready s.rb = true) : consume op finish s = .next (finish s) := by
  simp [consume, hn, hr]

theorem consume_hold {op : HeldOp} {finish : State → State} {s : State} (hn : s.held = none)
    (hr : op.ready s.rb = false) :
    consume op finish s = .next (s.withHeld (some ⟨s.issuer, op⟩)) := by
  simp [consume, hn, hr]

theorem consume_second {op : HeldOp} {finish : State → State} {s : State} (hn : s.held ≠ none) :
    consume op finish s = .refused .secondConsumer := by
  obtain ⟨h, hh⟩ := Option.ne_none_iff_exists'.1 hn
  simp [consume, hh]

theorem externalPopHeld_iff (s : State) :
    s.externalPopHeld = true ↔ ∃ h, s.held = some h ∧ h.op ≠ .iter := by
  unfold State.externalPopHeld
  split
  · simp_all
  · rename_i h hh
    rw [hh]
    cases ho : h.op <;> simp [ho]

/-- When `RB.RESET`, `FP.RESET` and a host `FP.ITER` are answered `BUSY`. -/
theorem consumerBusy_iff (s : State) : s.consumerBusy = true ↔ s.held ≠ none ∨ s.fp.state = .run := by
  simp [State.consumerBusy, Option.isSome_iff_ne_none]

/-- When they are performed. -/
theorem consumerBusy_false_iff (s : State) :
    s.consumerBusy = false ↔ s.held = none ∧ s.fp.state ≠ .run := by
  simp [State.consumerBusy]

theorem blocked_iff (s : State) (a : Agent) :
    s.blocked a = true ↔ ∃ h, s.held = some h ∧ h.agent = a := by
  unfold State.blocked
  split
  · simp_all
  · rename_i h hh
    simp [hh]

/-! ## Saturating counters -/

/-- `sat_inc` counts up to `2^32 - 1` and stays there (rule R12). -/
theorem satInc_toNat (w : Word) : (satInc w).toNat = min (w.toNat + 1) (2 ^ 32 - 1) := by
  have hw := w.isLt
  unfold satInc
  split
  · subst w; decide
  · rename_i h
    have : w.toNat ≠ 2 ^ 32 - 1 := fun he => h (BitVec.eq_of_toNat_eq (by simpa using he))
    rw [BitVec.toNat_add]
    simp
    omega

/-- Counting up once for every element of a list. -/
theorem foldl_satInc_toNat {α : Type} (l : List α) (w : Word) :
    (l.foldl (fun c _ => satInc c) w).toNat = min (w.toNat + l.length) (2 ^ 32 - 1) := by
  induction l generalizing w with
  | nil => have := w.isLt; simp; omega
  | cons a l ih => rw [List.foldl_cons, ih, satInc_toNat, List.length_cons]; omega

/-! ## Byte strings by channel -/

@[simp] theorem appendAt_length (l : List Bytes) (c : Nat) (b : Bytes) :
    (appendAt l c b).length = l.length := by simp [appendAt]

theorem channel_appendAt (l : List Bytes) (c d : Nat) (b : Bytes) (h : c < l.length) :
    channel (appendAt l c b) d = if d = c then channel l d ++ b else channel l d := by
  unfold channel appendAt
  by_cases hd : d = c
  · subst hd; simp [List.getD_eq_getElem?_getD, h]
  · simp [List.getD_eq_getElem?_getD, hd, Ne.symm hd]

@[simp] theorem channel_replicate (n c : Nat) : channel (List.replicate n []) c = [] := by
  simp only [channel, List.getD_eq_getElem?_getD, List.getElem?_replicate]
  split <;> rfl

theorem channel_of_length_le {l : List Bytes} {c : Nat} (h : l.length ≤ c) : channel l c = [] := by
  simp [channel, List.getD_eq_getElem?_getD, h]

@[simp] theorem takeNeeded_length (n : Nat) (need : Nat → Nat) (l : List Bytes) :
    (takeNeeded n need l).length = l.length := by simp [takeNeeded]

theorem channel_takeNeeded (n : Nat) (need : Nat → Nat) (l : List Bytes) (c : Nat) :
    channel (takeNeeded n need l) c
      = if c < n then (channel l c).drop (need c) else channel l c := by
  simp only [channel, takeNeeded, List.getD_eq_getElem?_getD, List.getElem?_mapIdx]
  cases l[c]? with
  | none => simp
  | some b => split <;> simp [*]

theorem short_iff (s : State) (need : Nat → Nat) :
    s.short need = true ↔ ∃ c < s.cle.cfg.n, (channel s.cle.stg c).length < need c := by
  simp [State.short]

end Sys2Proof.Machine
end

