-- ==== Sys2Proof/Laws/Scan.lean ====
section
/-! SUPPORT. The header search, the integer encodings, and the scan of the parse buffer: the equations of its
loop, its independence of the number of passes allowed, and what a longer buffer changes. -/

namespace Sys2Proof.Machine

/-! ## Integer encodings -/

theorem hdrBytes_eq : hdrBytes = [0x49#8, 0x96#8, 0x02#8, 0xD2#8] := by decide

theorem trlBytes_eq : trlBytes = [0xB6#8, 0x69#8, 0xFD#8, 0x2E#8] := by decide

@[simp] theorem encBe_length (k v : Nat) : (encBe k v).length = k := by
  induction k generalizing v with
  | zero => rfl
  | succ k ih => simp [encBe, ih]

theorem decBe_append_singleton (s : Bytes) (b : Byte) : decBe (s ++ [b]) = decBe s * 256 + b.toNat := by
  simp [decBe]

theorem decBe_encBe (k v : Nat) : decBe (encBe k v) = v % 256 ^ k := by
  induction k generalizing v with
  | zero => simp [encBe, decBe, Nat.mod_one]
  | succ k ih =>
    have hm := Nat.mod_mul (a := 256) (b := 256 ^ k) (x := v)
    have hp : 256 ^ (k + 1) = 256 * 256 ^ k := Nat.pow_succ'
    rw [encBe, decBe_append_singleton, ih, BitVec.toNat_ofNat, hp, hm]
    omega

theorem decBe_lt (s : Bytes) : decBe s < 256 ^ s.length := by
  induction s using List.reverseRecOn with
  | nil => simp [decBe]
  | append_singleton s b ih =>
    rw [decBe_append_singleton, List.length_append, List.length_singleton, Nat.pow_succ]
    have := b.isLt
    omega

theorem encBe_decBe (s : Bytes) : encBe s.length (decBe s) = s := by
  induction s using List.reverseRecOn with
  | nil => rfl
  | append_singleton s b ih =>
    have hb := b.isLt
    have h1 : (decBe s * 256 + b.toNat) / 256 = decBe s := by omega
    have h2 : BitVec.ofNat 8 (decBe s * 256 + b.toNat) = b := by
      apply BitVec.eq_of_toNat_eq
      rw [BitVec.toNat_ofNat]
      omega
    rw [decBe_append_singleton, List.length_append, List.length_singleton, encBe, h1, h2, ih]

/-- A length below `2^31` is read back from its four bytes. -/
theorem sbe32_encBe {v : Nat} (h : v < 2 ^ 31) : sbe32 (encBe 4 v) = (v : Int) := by
  have : be32 (encBe 4 v) = v := by rw [be32, decBe_encBe, Nat.mod_eq_of_lt (by omega)]
  rw [sbe32, this, if_pos h]

/-! ## The header search -/

theorem findHdr_cons (b : Byte) (t : Bytes) :
    findHdr (b :: t) = if (b :: t).take 4 = hdrBytes then some 0 else (findHdr t).map (· + 1) := rfl

/-- `find_hdr` answers the first offset at which the header stands (rule R145). -/
theorem findHdr_eq_some_iff (b : Bytes) (h : Nat) :
    findHdr b = some h
      ↔ (b.drop h).take 4 = hdrBytes ∧ ∀ i < h, (b.drop i).take 4 ≠ hdrBytes := by
  induction b generalizing h with
  | nil => simp [findHdr, hdrBytes_eq]
  | cons x t ih =>
    rw [findHdr_cons]
    split
    · rename_i h0
      constructor
      · rintro ⟨⟩
        exact ⟨h0, by omega⟩
      · rintro ⟨-, h2⟩
        cases h with
        | zero => rfl
        | succ h => exact absurd h0 (h2 0 (by omega))
    · rename_i h0
      cases h with
      | zero => simpa using h0
      | succ h =>
        simp only [Option.map_eq_some_iff, Nat.add_right_cancel_iff, exists_eq_right, ih, List.drop_succ_cons]
        constructor
        · rintro ⟨h1, h2⟩
          refine ⟨h1, fun i hi => ?_⟩
          cases i with
          | zero => exact h0
          | succ i => exact h2 i (by omega)
        · rintro ⟨h1, h2⟩
          exact ⟨h1, fun i hi => h2 (i + 1) (by omega)⟩

/-- `find_hdr` answers `none` exactly if the header stands nowhere. -/
theorem findHdr_eq_none_iff (b : Bytes) :
    findHdr b = none ↔ ∀ i, (b.drop i).take 4 ≠ hdrBytes := by
  induction b with
  | nil => simp [findHdr, hdrBytes_eq]
  | cons x t ih =>
    rw [findHdr_cons]
    split
    · rename_i h0
      exact ⟨fun h => by simp at h, fun h => absurd h0 (h 0)⟩
    · rename_i h0
      simp only [Option.map_eq_none_iff, ih]
      constructor
      · intro h i
        cases i with
        | zero => exact h0
        | succ i => exact h i
      · intro h i
        exact h (i + 1)

theorem noHeader_iff (b : Bytes) : NoHeader b ↔ findHdr b = none := by
  rw [findHdr_eq_none_iff]
  constructor
  · intro h i
    by_cases hi : i < b.length
    · exact h i hi
    · simp [List.drop_eq_nil_of_le (Nat.le_of_not_lt hi), hdrBytes_eq]
  · exact fun h i _ => h i

/-- The header stands in full where it is found. -/
theorem length_of_take_hdr {b : Bytes} (h : b.take 4 = hdrBytes) : 4 ≤ b.length := by
  have := congrArg List.length h
  rw [hdrBytes_eq] at this
  simp at this
  omega

theorem findHdr_le {b : Bytes} {h : Nat} (hf : findHdr b = some h) : h + 4 ≤ b.length := by
  have := length_of_take_hdr ((findHdr_eq_some_iff b h).1 hf).1
  rw [List.length_drop] at this
  omega

/-- A buffer that begins with the header is found to. -/
theorem findHdr_of_take {b : Bytes} (h : b.take 4 = hdrBytes) : findHdr b = some 0 :=
  (findHdr_eq_some_iff b 0).2 ⟨h, by omega⟩

/-- More bytes at the end do not move the first header. -/
theorem findHdr_append {b : Bytes} {h : Nat} (hf : findHdr b = some h) (s : Bytes) :
    findHdr (b ++ s) = some h := by
  have hl := findHdr_le hf
  rw [findHdr_eq_some_iff] at hf ⊢
  have e : ∀ i ≤ h, ((b ++ s).drop i).take 4 = (b.drop i).take 4 := by
    intro i hi
    rw [List.drop_append_of_le_length (by omega), List.take_append_of_le_length (by simp; omega)]
  rw [e h (Nat.le_refl h)]
  exact ⟨hf.1, fun i hi => by rw [e i (by omega)]; exact hf.2 i hi⟩

/-- Bytes at the front at which no header begins only shift the first header. -/
theorem findHdr_drop {b : Bytes} (k : Nat) (h : ∀ i < k, (b.drop i).take 4 ≠ hdrBytes) :
    findHdr b = (findHdr (b.drop k)).map (· + k) := by
  induction k generalizing b with
  | zero => simp
  | succ k ih =>
    cases b with
    | nil => simp [findHdr]
    | cons x t =>
      have h0 : ¬ (x :: t).take 4 = hdrBytes := h 0 (by omega)
      rw [findHdr_cons, if_neg h0, ih (fun i hi => h (i + 1) (by omega))]
      rw [List.drop_succ_cons, Option.map_map]
      congr 1

/-! ## One pass -/

/-- How a pass at the header can end, in terms of the buffer. -/
def PassOf (b : Bytes) : Pass → Prop
  | .stop rest => rest = b
  | .message m rest => b = m ++ rest ∧ 12 ≤ m.length
  | .report _ _ rest => rest = b.drop 4 ∧ 8 ≤ b.length

theorem passAtHeader_of (maxLen : Nat) (b : Bytes) : PassOf b (passAtHeader maxLen b) := by
  unfold passAtHeader
  by_cases h8 : b.length < 8
  · rw [if_pos h8]; exact rfl
  · rw [if_neg h8]
    dsimp only
    by_cases hlen : sbe32 (slice b 4 8) < (minLen : Int) ∨ (maxLen : Int) < sbe32 (slice b 4 8)
    · rw [if_pos hlen]
      exact ⟨rfl, by omega⟩
    · rw [if_neg hlen]
      by_cases hin : b.length < (sbe32 (slice b 4 8)).toNat
      · rw [if_pos hin]; exact rfl
      · rw [if_neg hin]
        split
        · simp only [minLen] at *
          refine ⟨(List.take_append_drop _ _).symm, ?_⟩
          rw [List.length_take]
          omega
        · exact ⟨rfl, by omega⟩

/-- A pass that does not leave the loop removes at least four bytes (rule R153). -/
def PassShrinks (pb : Bytes) : Pass → Prop
  | .stop rest => rest.length ≤ pb.length
  | .message _ rest => rest.length + 12 ≤ pb.length
  | .report _ _ rest => rest.length + 4 ≤ pb.length

theorem scanPass_shrinks (maxLen : Nat) (pb : Bytes) : PassShrinks pb (scanPass maxLen pb) := by
  unfold scanPass
  cases hf : findHdr pb with
  | none => simp [PassShrinks, lastBytes]
  | some k =>
    have hl := findHdr_le hf
    have hp := passAtHeader_of maxLen (pb.drop k)
    dsimp only
    cases h : passAtHeader maxLen (pb.drop k) with
    | stop rest =>
      rw [h, PassOf] at hp
      rw [PassShrinks, hp]
      simp
    | message m rest =>
      rw [h, PassOf] at hp
      have := congrArg List.length hp.1
      rw [List.length_drop, List.length_append] at this
      rw [PassShrinks]
      omega
    | report c l rest =>
      rw [h, PassOf, List.length_drop] at hp
      rw [PassShrinks, hp.1, List.length_drop, List.length_drop]
      omega

/-! ## The loop -/

/-- With a pass for every byte the loop runs to its end, so more passes change nothing. -/
theorem scanLoop_eq (maxLen : Nat) (pb : Bytes) (fuel : Nat) (h : pb.length < fuel) :
    scanLoop maxLen fuel pb = scan maxLen pb := by
  suffices H : ∀ n (pb : Bytes) f g, pb.length ≤ n → pb.length < f → pb.length < g →
      scanLoop maxLen f pb = scanLoop maxLen g pb from
    H pb.length pb fuel (pb.length + 1) (Nat.le_refl _) h (by omega)
  intro n
  induction n with
  | zero =>
    intro pb f g hn hf hg
    obtain ⟨f, rfl⟩ := Nat.exists_eq_succ_of_ne_zero (by omega : f ≠ 0)
    obtain ⟨g, rfl⟩ := Nat.exists_eq_succ_of_ne_zero (by omega : g ≠ 0)
    have hp := scanPass_shrinks maxLen pb
    simp only [scanLoop]
    cases h : scanPass maxLen pb <;> simp only [h, PassShrinks] at hp ⊢ <;> omega
  | succ n ih =>
    intro pb f g hn hf hg
    obtain ⟨f, rfl⟩ := Nat.exists_eq_succ_of_ne_zero (by omega : f ≠ 0)
    obtain ⟨g, rfl⟩ := Nat.exists_eq_succ_of_ne_zero (by omega : g ≠ 0)
    have hp := scanPass_shrinks maxLen pb
    simp only [scanLoop]
    cases h : scanPass maxLen pb with
    | stop rest => rfl
    | message m rest =>
      rw [h, PassShrinks] at hp
      dsimp only
      rw [ih rest f g (by omega) (by omega) (by omega)]
    | report c l rest =>
      rw [h, PassShrinks] at hp
      dsimp only
      rw [ih rest f g (by omega) (by omega) (by omega)]

theorem scan_stop {maxLen : Nat} {pb rest : Bytes} (h : scanPass maxLen pb = .stop rest) :
    scan maxLen pb = ⟨[], [], rest⟩ := by
  simp [scan, scanLoop, h]

theorem scan_message {maxLen : Nat} {pb m rest : Bytes} (h : scanPass maxLen pb = .message m rest) :
    scan maxLen pb
      = ⟨m :: (scan maxLen rest).msgs, (scan maxLen rest).reports, (scan maxLen rest).rest⟩ := by
  have hp := scanPass_shrinks maxLen pb
  rw [h, PassShrinks] at hp
  rw [scan, scanLoop, h]
  simp only [scanLoop_eq maxLen rest pb.length (by omega)]

theorem scan_report {maxLen : Nat} {pb rest : Bytes} {cause : Cause} {len : Int}
    (h : scanPass maxLen pb = .report cause len rest) :
    scan maxLen pb
      = ⟨(scan maxLen rest).msgs, (cause, len) :: (scan maxLen rest).reports,
          (scan maxLen rest).rest⟩ := by
  have hp := scanPass_shrinks maxLen pb
  rw [h, PassShrinks] at hp
  rw [scan, scanLoop, h]
  simp only [scanLoop_eq maxLen rest pb.length (by omega)]

/-- Induction along the passes of a scan. -/
theorem scan_induction {maxLen : Nat} {motive : Bytes → Prop}
    (stop : ∀ pb rest, scanPass maxLen pb = .stop rest → motive pb)
    (message : ∀ pb m rest, scanPass maxLen pb = .message m rest → motive rest → motive pb)
    (report : ∀ pb cause len rest, scanPass maxLen pb = .report cause len rest → motive rest →
      motive pb)
    (pb : Bytes) : motive pb := by
  suffices H : ∀ n (pb : Bytes), pb.length < n → motive pb from H _ pb (Nat.lt_succ_self _)
  intro n
  induction n with
  | zero => intro pb h; omega
  | succ n ih =>
    intro pb hn
    have hp := scanPass_shrinks maxLen pb
    cases h : scanPass maxLen pb <;> simp only [h, PassShrinks] at hp
    · exact stop _ _ h
    · exact message _ _ _ h (ih _ (by omega))
    · exact report _ _ _ _ h (ih _ (by omega))

/-! ## The equations of the loop (rules R147 to R151) -/

theorem scan_noHeader {maxLen : Nat} {pb : Bytes} (h : findHdr pb = none) :
    scan maxLen pb = ⟨[], [], pb.drop (pb.length - 3)⟩ := by
  apply scan_stop
  simp only [scanPass, h, lastBytes]
  congr 2
  omega

/-- The bytes before the first header are discarded. -/
theorem scan_drop {maxLen : Nat} {pb : Bytes} {h : Nat} (hf : findHdr pb = some h) :
    scan maxLen pb = scan maxLen (pb.drop h) := by
  have ht := findHdr_of_take ((findHdr_eq_some_iff pb h).1 hf).1
  have e : scanPass maxLen (pb.drop h) = scanPass maxLen pb := by
    simp [scanPass, hf, ht]
  cases hp : scanPass maxLen pb <;> rw [hp] at e
  · rw [scan_stop hp, scan_stop e]
  · rw [scan_message hp, scan_message e]
  · rw [scan_report hp, scan_report e]

section atHeader
variable {maxLen : Nat} {b : Bytes} (hb : b.take 4 = hdrBytes)
include hb

theorem scanPass_atHeader : scanPass maxLen b = passAtHeader maxLen b := by
  simp [scanPass, findHdr_of_take hb]

theorem scan_shortHeader (h : b.length < 8) : scan maxLen b = ⟨[], [], b⟩ :=
  scan_stop (by rw [scanPass_atHeader hb]; simp [passAtHeader, h])

theorem scan_badLength (h : 8 ≤ b.length)
    (hl : sbe32 (slice b 4 8) < 12 ∨ (maxLen : Int) < sbe32 (slice b 4 8)) :
    scan maxLen b
      = ⟨(scan maxLen (b.drop 4)).msgs,
          (.badLength, sbe32 (slice b 4 8)) :: (scan maxLen (b.drop 4)).reports,
          (scan maxLen (b.drop 4)).rest⟩ := by
  apply scan_report
  rw [scanPass_atHeader hb, passAtHeader, if_neg (by omega)]
  exact if_pos hl

variable {len : Nat} (h8 : 8 ≤ b.length) (hlen : sbe32 (slice b 4 8) = (len : Int)) (h12 : 12 ≤ len)
  (hmax : len ≤ maxLen)
include h8 hlen h12 hmax

omit hb in
theorem passAtHeader_goodLength :
    passAtHeader maxLen b
      = if b.length < len then .stop b
        else if slice b (len - 4) len = trlBytes then .message (b.take len) (b.drop len)
        else .report .badTrailer len (b.drop 4) := by
  have h1 : ¬ ((len : Int) < (12 : Nat) ∨ (maxLen : Int) < (len : Int)) := by omega
  simp only [passAtHeader, hlen, minLen, Int.toNat_natCast, if_neg (Nat.not_lt.2 h8), if_neg h1]

theorem scan_incomplete (h : b.length < len) : scan maxLen b = ⟨[], [], b⟩ :=
  scan_stop (by rw [scanPass_atHeader hb, passAtHeader_goodLength h8 hlen h12 hmax, if_pos h])

theorem scan_goodTrailer (h : len ≤ b.length) (ht : slice b (len - 4) len = trlBytes) :
    scan maxLen b
      = ⟨b.take len :: (scan maxLen (b.drop len)).msgs, (scan maxLen (b.drop len)).reports,
          (scan maxLen (b.drop len)).rest⟩ :=
  scan_message (by
    rw [scanPass_atHeader hb, passAtHeader_goodLength h8 hlen h12 hmax, if_neg (by omega),
      if_pos ht])

theorem scan_badTrailer (h : len ≤ b.length) (ht : slice b (len - 4) len ≠ trlBytes) :
    scan maxLen b
      = ⟨(scan maxLen (b.drop 4)).msgs,
          (.badTrailer, (len : Int)) :: (scan maxLen (b.drop 4)).reports,
          (scan maxLen (b.drop 4)).rest⟩ :=
  scan_report (by
    rw [scanPass_atHeader hb, passAtHeader_goodLength h8 hlen h12 hmax, if_neg (by omega),
      if_neg ht])

end atHeader

/-! ## What more bytes at the end change -/

theorem slice_append {b : Bytes} {i j : Nat} (h : j ≤ b.length) (s : Bytes) :
    slice (b ++ s) i j = slice b i j := by
  unfold slice
  by_cases hij : i ≤ j
  · rw [List.drop_append_of_le_length (by omega), List.take_append_of_le_length (by simp; omega)]
  · simp [Nat.sub_eq_zero_of_le (Nat.le_of_not_le hij)]

/-- The same end of a pass, with more bytes behind it. -/
def Pass.append (s : Bytes) : Pass → Pass
  | .stop rest => .stop rest
  | .message m rest => .message m (rest ++ s)
  | .report cause len rest => .report cause len (rest ++ s)

/-- The pass leaves the loop. -/
def Pass.isStop : Pass → Bool
  | .stop _ => true
  | .message _ _ => false
  | .report _ _ _ => false

theorem passAtHeader_append (maxLen : Nat) (b s : Bytes)
    (hs : (passAtHeader maxLen b).isStop = false) :
    passAtHeader maxLen (b ++ s) = (passAtHeader maxLen b).append s := by
  unfold passAtHeader at hs ⊢
  by_cases h8 : b.length < 8
  · rw [if_pos h8] at hs; cases hs
  · have h8' : ¬ (b ++ s).length < 8 := by rw [List.length_append]; omega
    rw [if_neg h8] at hs ⊢
    rw [if_neg h8']
    dsimp only at hs ⊢
    rw [slice_append (s := s) (Nat.le_of_not_lt h8)]
    by_cases hlen : sbe32 (slice b 4 8) < (minLen : Int) ∨ (maxLen : Int) < sbe32 (slice b 4 8)
    · rw [if_pos hlen, if_pos hlen, List.drop_append_of_le_length (by omega)]
      rfl
    · rw [if_neg hlen] at hs ⊢
      rw [if_neg hlen]
      by_cases hin : b.length < (sbe32 (slice b 4 8)).toNat
      · rw [if_pos hin] at hs; cases hs
      · have hin' : ¬ (b ++ s).length < (sbe32 (slice b 4 8)).toNat := by
          rw [List.length_append]; omega
        rw [if_neg hin, if_neg hin', slice_append (s := s) (Nat.le_of_not_lt hin)]
        by_cases ht : slice b ((sbe32 (slice b 4 8)).toNat - 4) (sbe32 (slice b 4 8)).toNat = trlBytes
        · rw [if_pos ht, if_pos ht, List.drop_append_of_le_length (by omega),
            List.take_append_of_le_length (by omega)]
          rfl
        · rw [if_neg ht, if_neg ht, List.drop_append_of_le_length (by omega)]
          rfl

/-- A pass that emits or reports does the same with more bytes at the end. -/
theorem scanPass_append (maxLen : Nat) (pb s : Bytes) (hs : (scanPass maxLen pb).isStop = false) :
    scanPass maxLen (pb ++ s) = (scanPass maxLen pb).append s := by
  unfold scanPass at hs ⊢
  cases hf : findHdr pb with
  | none => rw [hf] at hs; cases hs
  | some k =>
    have hl := findHdr_le hf
    rw [hf] at hs
    rw [findHdr_append hf s]
    dsimp only at hs ⊢
    rw [List.drop_append_of_le_length (by omega)]
    exact passAtHeader_append maxLen _ s hs

/-- Bytes at the front at which no header begins can be left out, if at least three bytes follow them. -/
theorem scan_skip {maxLen : Nat} {b : Bytes} {k : Nat} (hk : k + 3 ≤ b.length)
    (h : ∀ i < k, (b.drop i).take 4 ≠ hdrBytes) : scan maxLen b = scan maxLen (b.drop k) := by
  have hf := findHdr_drop k h
  cases he : findHdr (b.drop k) with
  | none =>
    rw [he] at hf
    rw [scan_noHeader hf, scan_noHeader he, List.drop_drop, List.length_drop]
    congr 2
    omega
  | some j =>
    rw [he] at hf
    rw [scan_drop hf, scan_drop he, List.drop_drop, Nat.add_comm]

/-- The buffer a pass leaves when it leaves the loop stands for the whole one. -/
theorem scan_stop_append {maxLen : Nat} {pb rest : Bytes} (h : scanPass maxLen pb = .stop rest)
    (s : Bytes) : scan maxLen (pb ++ s) = scan maxLen (rest ++ s) := by
  unfold scanPass at h
  cases hf : findHdr pb with
  | none =>
    simp only [hf] at h
    obtain rfl : lastBytes (min 3 pb.length) pb = rest := by simpa using h
    have hn := (findHdr_eq_none_iff pb).1 hf
    have hk : lastBytes (min 3 pb.length) pb = pb.drop (pb.length - 3) := by
      unfold lastBytes; congr 1; omega
    rw [hk, ← List.drop_append_of_le_length (Nat.sub_le _ _)]
    by_cases h3 : pb.length ≤ 3
    · rw [Nat.sub_eq_zero_of_le h3, List.drop_zero]
    · refine scan_skip (by simp; omega) fun i hi => ?_
      rw [List.drop_append_of_le_length (by omega), List.take_append_of_le_length (by simp; omega)]
      exact hn i
  | some k =>
    simp only [hf] at h
    have hp := passAtHeader_of maxLen (pb.drop k)
    rw [h, PassOf] at hp
    rw [hp, scan_drop (findHdr_append hf s),
      List.drop_append_of_le_length (by have := findHdr_le hf; omega)]

end Sys2Proof.Machine
end

