-- ==== Sys2Proof/Laws/Layout.lean ====
section
/-! SUPPORT. The configuration checks, the lengths and bytes of the layout engine's byte strings, and which
bytes each channel gains or gives. -/

namespace Sys2Proof.Machine

/-! ## The checks of a configuration (rule R172) -/

theorem firstFailure_eq_none_iff (par : Params) (c : LayoutConfig) :
    c.firstFailure par = none
      ↔ (1 ≤ c.n ∧ c.n ≤ par.nchMax) ∧ 6 + c.rl + 2 * c.n < c.fl
        ∧ c.sfidMin.toNat ≤ c.sfidMax.toNat ∧ c.sfidMax.toNat < 2 ^ 16 := by
  unfold LayoutConfig.firstFailure
  by_cases h1 : 1 ≤ c.n ∧ c.n ≤ par.nchMax
  · by_cases h2 : syncLen + sfidLen + c.rl + 2 * c.n < c.fl
    · by_cases h3 : c.sfidMin.toNat ≤ c.sfidMax.toNat
      · by_cases h4 : c.sfidMax.toNat < 2 ^ (8 * sfidLen)
        · rw [if_neg (not_not.2 h1), if_neg (not_not.2 h2), if_neg (not_not.2 h3),
            if_neg (not_not.2 h4)]
          exact iff_of_true rfl ⟨h1, h2, h3, h4⟩
        · rw [if_neg (not_not.2 h1), if_neg (not_not.2 h2), if_neg (not_not.2 h3), if_pos h4]
          exact iff_of_false (by simp) fun h => h4 h.2.2.2
      · rw [if_neg (not_not.2 h1), if_neg (not_not.2 h2), if_pos h3]
        exact iff_of_false (by simp) fun h => h3 h.2.2.1
    · rw [if_neg (not_not.2 h1), if_pos h2]
      exact iff_of_false (by simp) fun h => h2 h.2.1
  · rw [if_pos h1]
    exact iff_of_false (by simp) fun h => h1 h.1

/-- The next SFID stays in the cycle (rule R190). -/
theorem nextSfid_mem {c : LayoutConfig} {s : Word} (h1 : c.sfidMin.toNat ≤ s.toNat)
    (h2 : s.toNat ≤ c.sfidMax.toNat) (hm : c.sfidMin.toNat ≤ c.sfidMax.toNat) :
    c.sfidMin.toNat ≤ (c.nextSfid s).toNat ∧ (c.nextSfid s).toNat ≤ c.sfidMax.toNat := by
  unfold LayoutConfig.nextSfid
  split
  · exact ⟨Nat.le_refl _, hm⟩
  · rename_i hne
    have hlt : s.toNat ≠ c.sfidMax.toNat := fun h => hne (BitVec.eq_of_toNat_eq h)
    have := c.sfidMax.isLt
    rw [BitVec.toNat_add, BitVec.toNat_ofNat]
    omega

/-! ## Byte strings -/

@[simp] theorem w16_length (be : Bool) (a b : Byte) : (w16 be a b).length = 2 := by
  cases be <;> rfl

@[simp] theorem zeros_length (k : Nat) : (zeros k).length = k := List.length_replicate

@[simp] theorem filler_length (k : Nat) : (filler k).length = k := by
  induction k using filler.induct with
  | case1 => rfl
  | case2 => rfl
  | case3 k ih => simp [filler, ih]

/-- `filler(k)[j]` (rule R98). -/
theorem filler_getD (k j : Nat) (h : j < k) (d : Byte) :
    (filler k).getD j d = if j % 2 = 0 then 0xFA#8 else 0xDE#8 := by
  induction k using filler.induct generalizing j with
  | case1 => omega
  | case2 => obtain rfl : j = 0 := by omega
             rfl
  | case3 k ih =>
    match j with
    | 0 => rfl
    | 1 => rfl
    | j + 2 =>
      have := ih j (by omega)
      simpa [filler] using this

@[simp] theorem swapRun_length (be : Bool) (s : Bytes) : (swapRun be s).length = s.length := by
  induction s using swapRun.induct with
  | case1 a b t ih => simp [swapRun, ih]; omega
  | case2 a => rfl
  | case3 => rfl

theorem flatMap_length_const {α : Type} (l : List α) (f : α → Bytes) (k : Nat)
    (h : ∀ a ∈ l, (f a).length = k) : (l.flatMap f).length = k * l.length := by
  induction l with
  | nil => rfl
  | cons a l ih =>
    rw [List.flatMap_cons, List.length_append, h a (by simp), ih fun b hb => h b (by simp [hb]),
      List.length_cons, Nat.mul_succ, Nat.add_comm]

/-- Piece `i` of a string made of pieces of `k` bytes each, whatever stands behind them. -/
theorem drop_take_flatMap_range (n k i : Nat) (f : Nat → Bytes) (tail : Bytes) (hi : i < n)
    (h : ∀ j < n, (f j).length = k) :
    (((List.range n).flatMap f ++ tail).drop (k * i)).take k = f i := by
  induction n generalizing tail with
  | zero => omega
  | succ n ih =>
    rw [List.range_succ, List.flatMap_append, List.flatMap_singleton, List.append_assoc]
    by_cases hn : i = n
    · subst hn
      have hl := flatMap_length_const (List.range i) f k fun a ha => h a (by
        have := List.mem_range.1 ha; omega)
      rw [List.length_range] at hl
      rw [List.drop_append, hl, Nat.sub_self, List.drop_zero,
        List.drop_eq_nil_of_le (Nat.le_of_eq hl), List.nil_append,
        List.take_append_of_le_length (Nat.le_of_eq (h i (by omega)).symm),
        List.take_of_length_le (Nat.le_of_eq (h i (by omega)))]
    · exact ih (f n ++ tail) (by omega) fun j hj => h j (by omega)

/-! ## Frames -/

theorem head_length (c : LayoutConfig) (sfid : Word) : (c.head sfid).length = c.p0 := by
  simp [LayoutConfig.head, LayoutConfig.p0, Nat.add_assoc]

/-- Of a frame of the configured length, the payload is all behind the header. -/
theorem payload_eq {c : LayoutConfig} {f : Bytes} (h : f.length = c.fl) :
    c.payload f = f.drop c.p0 := by
  rw [LayoutConfig.payload, slice, List.take_of_length_le]
  rw [List.length_drop, h]

theorem payload_length {c : LayoutConfig} {f : Bytes} (h : f.length = c.fl) :
    (c.payload f).length = c.pl := by
  rw [payload_eq h, List.length_drop, h, LayoutConfig.pl]

/-! ## Which words belong to a channel (rules R180, R191) -/

/-- The word numbers of channel `ch`, in order. -/
theorem filter_range_mod (w n ch : Nat) (h : ch < n) :
    (List.range w).filter (fun i => i % n = ch)
      = (List.range ((w - ch + n - 1) / n)).map (fun k => k * n + ch) := by
  induction w with
  | zero => simp [Nat.div_eq_of_lt (show n - 1 < n by omega)]
  | succ w ih =>
    rw [List.range_succ, List.filter_append, ih]
    by_cases hw : ch ≤ w
    · have e1 : w + 1 - ch + n - 1 = (w - ch + n - 1) + 1 := by omega
      have e2 : w - ch + n - 1 + 1 = w - ch + n := by omega
      have e3 : n ∣ w - ch + n ↔ w % n = ch := by
        rw [Nat.dvd_add_self_right, Nat.dvd_iff_mod_eq_zero]
        constructor
        · intro hd
          obtain ⟨k, hk⟩ := Nat.dvd_of_mod_eq_zero hd
          have : w = ch + n * k := by omega
          rw [this, Nat.add_mul_mod_self_left, Nat.mod_eq_of_lt h]
        · intro hm
          have := Nat.div_add_mod w n
          have : w - ch = n * (w / n) := by omega
          rw [this, Nat.mul_mod_right]
      rw [e1, Nat.succ_div, e2]
      by_cases hm : w % n = ch
      · have hk : (w - ch + n - 1) / n * n + ch = w := by
          have h1 := Nat.div_add_mod w n
          have h2 : w - ch + n - 1 = n * (w / n) + (n - 1) := by omega
          rw [h2, Nat.mul_add_div (by omega), Nat.div_eq_of_lt (show n - 1 < n by omega), Nat.add_zero,
            Nat.mul_comm]
          omega
        simp [e3, hm, List.range_succ, hk]
      · simp [e3, hm]
    · have hm : w % n ≠ ch := by rw [Nat.mod_eq_of_lt (by omega)]; omega
      have e1 : w + 1 - ch + n - 1 = w - ch + n - 1 := by omega
      simp [hm, e1]

/-- Channel `c` gains, in order, the pieces sent to it. -/
theorem channel_foldl_appendAt {α : Type} (l : List α) (ix : α → Nat) (b : α → Bytes)
    (d : List Bytes) (h : ∀ a ∈ l, ix a < d.length) (c : Nat) :
    channel (l.foldl (fun d a => appendAt d (ix a) (b a)) d) c
      = channel d c ++ (l.filter (fun a => ix a = c)).flatMap b := by
  induction l generalizing d with
  | nil => simp
  | cons a l ih =>
    rw [List.foldl_cons, ih _ (by intro x hx; rw [appendAt_length]; exact h x (by simp [hx])),
      channel_appendAt _ _ _ _ (h a (by simp))]
    by_cases hc : ix a = c
    · subst hc; simp
    · simp [hc, Ne.symm hc]

theorem foldl_appendAt_length {α : Type} (l : List α) (ix : α → Nat) (b : α → Bytes)
    (d : List Bytes) : (l.foldl (fun d a => appendAt d (ix a) (b a)) d).length = d.length := by
  induction l generalizing d with
  | nil => rfl
  | cons a l ih => rw [List.foldl_cons, ih, appendAt_length]

theorem filter_range_eq (n c : Nat) :
    (List.range n).filter (fun i => i = c) = if c < n then [c] else [] := by
  induction n with
  | zero => rfl
  | succ n ih =>
    rw [List.range_succ, List.filter_append, ih]
    by_cases hc : c < n
    · simp [hc, Nat.lt_succ_of_lt hc]; omega
    · by_cases he : n = c
      · subst he; simp
      · simp [hc, he, show ¬ c < n + 1 by omega]

/-- Rule R181, for any number of blocks below the number of channels. -/
theorem channel_routeBlocks (c : LayoutConfig) (f : Bytes) (d : List Bytes) (h : c.n ≤ d.length)
    (ch : Nat) :
    channel (routeBlocks c f d) ch
      = if ch < c.n then
          channel d ch ++ slice f (c.p0 + ch * c.bpc) (c.p0 + (ch + 1) * c.bpc)
        else channel d ch := by
  have := channel_foldl_appendAt (List.range c.n) (fun i => i)
    (fun i => slice f (c.p0 + i * c.bpc) (c.p0 + (i + 1) * c.bpc)) d
    (by intro a ha; have := List.mem_range.1 ha; omega) ch
  rw [filter_range_eq] at this
  rw [routeBlocks, this]
  split <;> simp

/-- Rule R180: channel `ch` gains the words whose number is `ch` modulo `N`. -/
theorem channel_routeWords (c : LayoutConfig) (f : Bytes) (d : List Bytes) (h : c.n ≤ d.length)
    (hn : 0 < c.n) (ch : Nat) :
    channel (routeWords c f d) ch
      = channel d ch ++ ((List.range c.w).filter (fun i => i % c.n = ch)).flatMap
          (fun i => w16 c.bigendian (byteAt f (c.p0 + 2 * i)) (byteAt f (c.p0 + 2 * i + 1))) :=
  channel_foldl_appendAt (List.range c.w) (fun i => i % c.n) _ d
    (by intro a _; have := Nat.mod_lt a hn; omega) ch

theorem routeWords_length (c : LayoutConfig) (f : Bytes) (d : List Bytes) :
    (routeWords c f d).length = d.length := foldl_appendAt_length ..

theorem routeBlocks_length (c : LayoutConfig) (f : Bytes) (d : List Bytes) :
    (routeBlocks c f d).length = d.length := foldl_appendAt_length ..

/-! ## The payload a data frame gets -/

theorem placeWords_length (c : LayoutConfig) (u : Nat → Bytes) : (placeWords c u).length = c.pl := by
  rw [placeWords, List.length_append, flatMap_length_const _ _ 2 (fun _ _ => w16_length ..),
    List.length_range, zeros_length, LayoutConfig.w]
  omega

theorem placeBlocks_length (c : LayoutConfig) (u : Nat → Bytes)
    (h : ∀ i < c.n, (u i).length = c.bpc) : (placeBlocks c u).length = c.pl := by
  rw [placeBlocks, List.length_append, flatMap_length_const _ _ c.bpc fun a ha =>
    h a (List.mem_range.1 ha), List.length_range, zeros_length]
  have : c.n * c.bpc ≤ c.pl := Nat.mul_div_le ..
  rw [Nat.mul_comm]
  omega

end Sys2Proof.Machine
end

