-- ==== Sys2Proof/Laws/PerInstr.lean ====
section
/-! SUPPORT. Facts about every operation as syntax, one lemma per constructor. -/

namespace Sys2Proof.Laws.CommandShape

/-- The command that carries the operation has the operation's code, zero must-be-zero bits, and the
argument words and operand bytes that its word announces (30_encoding.md rules R103, R104). -/
def Statement (i : Instr) : Prop :=
  i.WellFormed →
    opField (encode i).word = i.op.code ∧ i.op.zerosOk (encode i).word = true
      ∧ (encode i).args.length = i.op.argWords
      ∧ (encode i).operand.length = i.op.operandBytes (encode i).word

/-- A command of format `Z`. -/
theorem formatZ (o : Op) (h : o.format = .Z) :
    opField (encodeZ o).word = o.code ∧ o.zerosOk (encodeZ o).word = true
      ∧ (encodeZ o).args.length = o.argWords
      ∧ (encodeZ o).operand.length = o.operandBytes (encodeZ o).word := by
  simp [encodeZ, Op.zerosOk, Op.argWords, Op.operandBytes, h]

/-- A command of format `D`. -/
theorem formatD (o : Op) (ch : BitVec 8) (b : Bytes) (h : o.format = .D)
    (hc : o = .stgAppend ∨ ch = 0#8) (hb : b.length ≤ 65535) :
    opField (encodeD o ch b).word = o.code ∧ o.zerosOk (encodeD o ch b).word = true
      ∧ (encodeD o ch b).args.length = o.argWords
      ∧ (encodeD o ch b).operand.length = o.operandBytes (encodeD o ch b).word := by
  have : b.length < 65536 := by omega
  refine ⟨by simp [encodeD], ?_, by simp [encodeD, Op.argWords, h], ?_⟩
  · rcases hc with rfl | rfl <;> simp [encodeD, Op.zerosOk, h]
  · simp [encodeD, Op.operandBytes, h, Nat.mod_eq_of_lt this]

theorem csrRd (addr : BitVec 16) : Statement (.csrRd addr) := fun _ => by
  simp [encode, Instr.op, Op.zerosOk, Op.argWords, Op.operandBytes, Op.format]
theorem csrWr (addr : BitVec 16) (value : Word) : Statement (.csrWr addr value) := fun _ => by
  simp [encode, Instr.op, Op.zerosOk, Op.argWords, Op.operandBytes, Op.format]
theorem rbPush (item : Byte) : Statement (.rbPush item) := fun _ => by
  refine ⟨by simp [encode, Instr.op], ?_, by simp [encode, Instr.op, Op.argWords, Op.format],
    by simp [encode, Instr.op, Op.operandBytes, Op.format]⟩
  have : item.toNat >>> 8 = 0 := by rw [Nat.shiftRight_eq_div_pow]; omega
  simp only [encode, Instr.op, Op.zerosOk, Op.format, chField_commandWord, nHighField_eq,
    nField_commandWord, Bool.and_eq_true, beq_iff_eq, true_and]
  apply BitVec.eq_of_toNat_eq
  simp [Nat.mod_eq_of_lt (show item.toNat < 65536 by omega), this]
theorem rbPushr (items : Bytes) : Statement (.rbPushr items) := fun h =>
  formatD .rbPushr 0#8 items rfl (.inr rfl) h
theorem rbPop : Statement .rbPop := fun _ => formatZ .rbPop rfl
theorem rbPopn (min max : Word) : Statement (.rbPopn min max) := fun _ => by
  simp [encode, Instr.op, Op.zerosOk, Op.argWords, Op.operandBytes, Op.format]
theorem rbQuit : Statement .rbQuit := fun _ => formatZ .rbQuit rfl
theorem rbReset : Statement .rbReset := fun _ => formatZ .rbReset rfl
theorem fpStart : Statement .fpStart := fun _ => formatZ .fpStart rfl
theorem fpIter : Statement .fpIter := fun _ => formatZ .fpIter rfl
theorem fpReset : Statement .fpReset := fun _ => formatZ .fpReset rfl
theorem cfgCommit : Statement .cfgCommit := fun _ => formatZ .cfgCommit rfl
theorem cleReset : Statement .cleReset := fun _ => formatZ .cleReset rfl
theorem stgAppend (ch : BitVec 8) (bytes : Bytes) : Statement (.stgAppend ch bytes) := fun h =>
  formatD .stgAppend ch bytes rfl (.inl rfl) h
theorem dmxXc (frame : Bytes) : Statement (.dmxXc frame) := fun h =>
  formatD .dmxXc 0#8 frame rfl (.inr rfl) h
theorem dmxCc (frame : Bytes) : Statement (.dmxCc frame) := fun h =>
  formatD .dmxCc 0#8 frame rfl (.inr rfl) h
theorem dmxRow (frame : Bytes) : Statement (.dmxRow frame) := fun h =>
  formatD .dmxRow 0#8 frame rfl (.inr rfl) h
theorem dmxRc (frame : Bytes) : Statement (.dmxRc frame) := fun h =>
  formatD .dmxRc 0#8 frame rfl (.inr rfl) h
theorem muxXc : Statement .muxXc := fun _ => formatZ .muxXc rfl
theorem muxCc : Statement .muxCc := fun _ => formatZ .muxCc rfl
theorem muxRow : Statement .muxRow := fun _ => formatZ .muxRow rfl
theorem muxRc : Statement .muxRc := fun _ => formatZ .muxRc rfl
theorem idleChk (payload : Bytes) : Statement (.idleChk payload) := fun h =>
  formatD .idleChk 0#8 payload rfl (.inr rfl) h

end Sys2Proof.Laws.CommandShape
end

