-- ==== Sys2Proof/Laws/Step.lean ====
section
/-! SUPPORT. What each meaning and each step can do: if it answers a next state, then that state is one of
those listed. The statements about all operations and all steps go through these. -/

namespace Sys2Proof.Machine

/-! ## Registers -/

theorem execCsrRd_next {a : BitVec 16} {s t : State} (h : execCsrRd a s = .next t) :
    (csrAt s.par a = none ∧ t = s.respond .badAddr 0#32 [])
      ∨ ∃ r, csrAt s.par a = some r ∧ t = s.respond .ok (r.read s) [] := by
  unfold execCsrRd at h
  have := (byRole_next h).2
  split at this <;> cases this
  · exact .inl ⟨‹_›, rfl⟩
  · exact .inr ⟨_, ‹_›, rfl⟩

theorem execCsrWr_next {a : BitVec 16} {v : Word} {s t : State} (h : execCsrWr a v s = .next t) :
    s.issuer = .H
      ∧ (t = s.respond .badAddr 0#32 []
        ∨ (s.cle.locked = true ∧ t = s.respond .cfgLocked 0#32 [])
        ∨ (s.cle.locked = false ∧ ∃ r cfg, csrAt s.par a = some r ∧ r.write v s.cle.cfg = some cfg
            ∧ t = (s.withLayout { s.cle with cfg := cfg }).respond .ok 0#32 [])) := by
  unfold execCsrWr at h
  obtain ⟨hi, h⟩ := byRole_next h
  refine ⟨by simpa [mayIssue] using hi, ?_⟩
  split at h
  · cases h; exact .inl rfl
  · rename_i cfg hc
    obtain ⟨r, hr, hw⟩ := Option.bind_eq_some_iff.1 hc
    split at h <;> cases h
    · exact .inr (.inl ⟨‹_›, rfl⟩)
    · exact .inr (.inr ⟨Bool.eq_false_iff.2 ‹_›, r, cfg, hr, hw, rfl⟩)

/-! ## The ring buffer -/

theorem execRbPush_next {x : Byte} {s t : State} (h : execRbPush x s = .next t) :
    s.issuer = .P
      ∧ ((s.rb.q.length < s.par.ringCap
          ∧ t = (s.withRing { s.rb with q := s.rb.q ++ [x] }).respond .ok 1#32 [])
        ∨ (s.par.ringCap ≤ s.rb.q.length
          ∧ t = (s.withRing { s.rb with lost := satInc s.rb.lost }).respond .full 0#32 [])) := by
  unfold execRbPush at h
  obtain ⟨hi, h⟩ := byRole_next h
  refine ⟨by simpa [mayIssue] using hi, ?_⟩
  split at h <;> cases h
  · exact .inl ⟨‹_›, rfl⟩
  · exact .inr ⟨Nat.le_of_not_lt ‹_›, rfl⟩

theorem execRbPushr_next {items : Bytes} {s t : State} (h : execRbPushr items s = .next t) :
    s.issuer = .P ∧ ∃ k, k = min items.length (s.par.ringCap - s.rb.q.length)
      ∧ t = (s.withRing { s.rb with q := s.rb.q ++ items.take k }).respond .ok (BitVec.ofNat 32 k)
          [] := by
  unfold execRbPushr at h
  obtain ⟨hi, h⟩ := byRole_next h
  refine ⟨by simpa [mayIssue] using hi, _, rfl, ?_⟩
  cases h
  rfl

theorem execRbPop_next {s t : State} (h : execRbPop s = .next t) :
    s.issuer = .K ∧ s.fp.state ≠ .run ∧ s.held = none
      ∧ ((HeldOp.pop.ready s.rb = true ∧ t = finishPop s)
        ∨ (HeldOp.pop.ready s.rb = false ∧ t = s.withHeld (some ⟨s.issuer, .pop⟩))) := by
  unfold execRbPop at h
  obtain ⟨hi, h⟩ := byRole_next h
  split at h
  · cases h
  · exact ⟨by simpa [mayIssue] using hi, ‹_›, consume_next h⟩

theorem execRbPopn_next {min max : Word} {s t : State} (h : execRbPopn min max s = .next t) :
    s.issuer = .K ∧ s.fp.state ≠ .run ∧ s.held = none
      ∧ (((HeldOp.popn min max).ready s.rb = true ∧ t = finishPopn min max s)
        ∨ ((HeldOp.popn min max).ready s.rb = false
          ∧ t = s.withHeld (some ⟨s.issuer, .popn min max⟩))) := by
  unfold execRbPopn at h
  obtain ⟨hi, h⟩ := byRole_next h
  split at h
  · cases h
  · exact ⟨by simpa [mayIssue] using hi, ‹_›, consume_next h⟩

theorem execRbQuit_next {s t : State} (h : execRbQuit s = .next t) :
    t = (s.withRing { s.rb with quit := true }).respond .ok 0#32 [] := by
  unfold execRbQuit at h
  cases (byRole_next h).2
  rfl

theorem execRbReset_next {s t : State} (h : execRbReset s = .next t) :
    s.issuer = .H
      ∧ ((s.consumerBusy = true ∧ t = s.respond .busy 0#32 [])
        ∨ (s.consumerBusy = false ∧ t = (s.withRing ⟨[], 0#32, false⟩).respond .ok 0#32 [])) := by
  unfold execRbReset at h
  obtain ⟨hi, h⟩ := byRole_next h
  refine ⟨by simpa [mayIssue] using hi, ?_⟩
  split at h <;> cases h
  · exact .inl ⟨‹_›, rfl⟩
  · exact .inr ⟨Bool.eq_false_iff.2 ‹_›, rfl⟩

/-! ## The frame parser -/

theorem execFpStart_next {s t : State} (h : execFpStart s = .next t) :
    s.issuer = .H ∧ s.externalPopHeld = false
      ∧ t = (s.withParser { s.fp with state := .run }).respond .ok 0#32 [] := by
  unfold execFpStart at h
  obtain ⟨hi, h⟩ := byRole_next h
  split at h
  · cases h
  · cases h
    exact ⟨by simpa [mayIssue] using hi, Bool.eq_false_iff.2 ‹_›, rfl⟩

theorem execFpIter_next {s t : State} (h : execFpIter s = .next t) :
    (s.issuer = .K ∨ s.issuer = .H)
      ∧ ((s.issuer = .H ∧ s.consumerBusy = true ∧ t = s.respond .busy 0#32 [])
        ∨ (s.issuer = .H → s.fp.state ≠ .run) ∧ s.held = none
          ∧ ((HeldOp.iter.ready s.rb = true ∧ t = finishIter s)
            ∨ (HeldOp.iter.ready s.rb = false ∧ t = s.withHeld (some ⟨s.issuer, .iter⟩)))) := by
  unfold execFpIter at h
  obtain ⟨hi, h⟩ := byRole_next h
  refine ⟨by simpa [mayIssue] using hi, ?_⟩
  split at h
  · cases h
    exact .inl ⟨‹_ ∧ _›.1, ‹_ ∧ _›.2, rfl⟩
  · rename_i hc
    exact .inr ⟨fun h1 h2 => hc ⟨h1, (consumerBusy_iff s).2 (.inr h2)⟩, consume_next h⟩

theorem execFpReset_next {s t : State} (h : execFpReset s = .next t) :
    s.issuer = .H
      ∧ ((s.consumerBusy = true ∧ t = s.respond .busy 0#32 [])
        ∨ (s.consumerBusy = false
          ∧ t = (s.withParser ⟨[], .idle, 0#32, none⟩).respond .ok 0#32 [])) := by
  unfold execFpReset at h
  obtain ⟨hi, h⟩ := byRole_next h
  refine ⟨by simpa [mayIssue] using hi, ?_⟩
  split at h <;> cases h
  · exact .inl ⟨‹_›, rfl⟩
  · exact .inr ⟨Bool.eq_false_iff.2 ‹_›, rfl⟩

/-! ## The channel layout engine -/

theorem execCfgCommit_next {s t : State} (h : execCfgCommit s = .next t) :
    s.issuer = .H
      ∧ ((s.cle.locked = true ∧ t = s.respond .cfgLocked 0#32 [])
        ∨ (∃ i, s.cle.cfg.firstFailure s.par = some i
          ∧ t = s.respond .cfgInvalid (BitVec.ofNat 32 i) [])
        ∨ (s.cle.locked = false ∧ s.cle.cfg.firstFailure s.par = none
          ∧ t = (s.withLayout { s.cle with
                  valid := true, locked := true, sfidCur := s.cle.cfg.sfidMin }).respond .ok 0#32
                [])) := by
  unfold execCfgCommit at h
  obtain ⟨hi, h⟩ := byRole_next h
  refine ⟨by simpa [mayIssue] using hi, ?_⟩
  split at h
  · cases h; exact .inl ⟨‹_›, rfl⟩
  · split at h <;> cases h
    · exact .inr (.inl ⟨_, ‹_›, rfl⟩)
    · exact .inr (.inr ⟨Bool.eq_false_iff.2 ‹_›, ‹_›, rfl⟩)

theorem execCleReset_next {s t : State} (h : execCleReset s = .next t) :
    s.issuer = .H
      ∧ t = (s.withLayout { s.cle with
              valid := false, locked := false, stg := s.cle.stg.map (fun _ => []),
              sfidCur := 0#32 }).respond .ok 0#32 [] := by
  unfold execCleReset at h
  obtain ⟨hi, h⟩ := byRole_next h
  cases h
  exact ⟨by simpa [mayIssue] using hi, rfl⟩

theorem execStgAppend_next {ch : BitVec 8} {b : Bytes} {s t : State}
    (h : execStgAppend ch b s = .next t) :
    (∃ j, s.issuer = .S j)
      ∧ ((∃ status, status ≠ .ok ∧ status ≠ .full ∧ t = s.respond status 0#32 [])
        ∨ (s.cle.valid = true ∧ ch.toNat < s.cle.cfg.n
          ∧ stgOverflows s.par (channel s.cle.stg ch.toNat).length b.length = false
          ∧ t = (s.withLayout
                  { s.cle with stg := appendAt s.cle.stg ch.toNat b }).respond .ok 0#32 [])) := by
  unfold execStgAppend at h
  obtain ⟨hi, h⟩ := byRole_next h
  refine ⟨by cases hs : s.issuer <;> simp_all [mayIssue], ?_⟩
  split at h
  · cases h; exact .inl ⟨.notConfigured, by decide, by decide, rfl⟩
  · split at h
    · cases h; exact .inl ⟨.badOperand, by decide, by decide, rfl⟩
    · split at h
      · cases h; exact .inl ⟨.stgFull, by decide, by decide, rfl⟩
      · cases h
        exact .inr ⟨by simpa using ‹¬ ¬ _›, by omega, by simpa using ‹¬ (_ = true)›, rfl⟩

/-- A demultiplex operation answers an error or changes only the channel output streams. -/
def DemuxNext (s t : State) : Prop :=
  (∃ status value, status ≠ .ok ∧ status ≠ .full ∧ t = s.respond status value [])
    ∨ ∃ dout value, t = (s.withOut { s.out with dout := dout }).respond .ok value []
        ∧ dout.length = s.out.dout.length ∧ ∀ c, channel s.out.dout c <+: channel dout c

theorem demux_next {f : Bytes} {s t : State} {r : Result} (h : demux f s r = .next t) :
    (∃ status value, status ≠ .ok ∧ status ≠ .full ∧ t = s.respond status value [])
      ∨ (s.cle.valid = true ∧ f.length = s.cle.cfg.fl ∧ r = .next t) := by
  unfold demux at h
  split at h
  · cases h; exact .inl ⟨.notConfigured, _, by decide, by decide, rfl⟩
  · split at h
    · cases h; exact .inl ⟨.badOperand, _, by decide, by decide, rfl⟩
    · exact .inr ⟨by simpa using ‹¬ ¬ _›, by omega, h⟩

theorem appendAt_prefix (l : List Bytes) (i : Nat) (b : Bytes) (c : Nat) :
    channel l c <+: channel (appendAt l i b) c := by
  by_cases hi : i < l.length
  · rw [channel_appendAt l i c b hi]
    split
    · exact List.prefix_append ..
    · exact List.prefix_rfl
  · rw [appendAt, List.modify_eq_self (by omega)]

/-- Appending to one channel after another only appends. -/
theorem foldl_appendAt {α : Type} (l : List α) (ix : α → Nat) (b : α → Bytes) (d : List Bytes) :
    (l.foldl (fun d a => appendAt d (ix a) (b a)) d).length = d.length
      ∧ ∀ c, channel d c <+: channel (l.foldl (fun d a => appendAt d (ix a) (b a)) d) c := by
  induction l generalizing d with
  | nil => exact ⟨rfl, fun c => List.prefix_rfl⟩
  | cons a l ih =>
    obtain ⟨h1, h2⟩ := ih (appendAt d (ix a) (b a))
    exact ⟨by rw [List.foldl_cons, h1, appendAt_length],
      fun c => (appendAt_prefix d (ix a) (b a) c).trans (h2 c)⟩

theorem routeRow_next (ch : Option Nat) (f : Bytes) (s : State) : DemuxNext s (routeRow ch f s) := by
  cases ch with
  | none => exact .inr ⟨s.out.dout, _, rfl, rfl, fun c => List.prefix_rfl⟩
  | some c => exact .inr ⟨_, _, rfl, appendAt_length .., fun _ => appendAt_prefix ..⟩

theorem execDmxXc_next {f : Bytes} {s t : State} (h : execDmxXc f s = .next t) :
    s.issuer = .Y ∧ DemuxNext s t := by
  unfold execDmxXc at h
  obtain ⟨hi, h⟩ := byRole_next h
  refine ⟨by simpa [mayIssue] using hi, ?_⟩
  rcases demux_next h with h | ⟨-, -, h⟩
  · exact .inl h
  · cases h
    have := foldl_appendAt (List.range s.cle.cfg.w) (fun i => i % s.cle.cfg.n)
      (fun i => w16 s.cle.cfg.bigendian (byteAt f (s.cle.cfg.p0 + 2 * i))
        (byteAt f (s.cle.cfg.p0 + 2 * i + 1))) s.out.dout
    exact .inr ⟨_, _, rfl, this⟩

theorem execDmxCc_next {f : Bytes} {s t : State} (h : execDmxCc f s = .next t) :
    s.issuer = .Y ∧ DemuxNext s t := by
  unfold execDmxCc at h
  obtain ⟨hi, h⟩ := byRole_next h
  refine ⟨by simpa [mayIssue] using hi, ?_⟩
  rcases demux_next h with h | ⟨-, -, h⟩
  · exact .inl h
  · cases h
    have := foldl_appendAt (List.range s.cle.cfg.n) (fun i => i)
      (fun ch => slice f (s.cle.cfg.p0 + ch * s.cle.cfg.bpc)
        (s.cle.cfg.p0 + (ch + 1) * s.cle.cfg.bpc)) s.out.dout
    exact .inr ⟨_, _, rfl, this⟩

theorem execDmxRow_next {f : Bytes} {s t : State} (h : execDmxRow f s = .next t) :
    s.issuer = .Y ∧ DemuxNext s t := by
  unfold execDmxRow at h
  obtain ⟨hi, h⟩ := byRole_next h
  refine ⟨by simpa [mayIssue] using hi, ?_⟩
  rcases demux_next h with h | ⟨-, -, h⟩
  · exact .inl h
  · cases h; exact routeRow_next ..

theorem execDmxRc_next {f : Bytes} {s t : State} (h : execDmxRc f s = .next t) :
    s.issuer = .Y ∧ DemuxNext s t := by
  unfold execDmxRc at h
  obtain ⟨hi, h⟩ := byRole_next h
  refine ⟨by simpa [mayIssue] using hi, ?_⟩
  rcases demux_next h with h | ⟨-, -, h⟩
  · exact .inl h
  · split at h <;> cases h
    · exact routeRow_next ..
    · exact .inl ⟨.cfgInvalid, _, by decide, by decide, rfl⟩

/-- A multiplex operation answers an error, or emits one frame, lets the SFID advance, and may take bytes
from the front of the staging buffers of the configured channels. -/
def MuxNext (s t : State) : Prop :=
  (∃ status value, status ≠ .ok ∧ status ≠ .full ∧ t = s.respond status value [])
    ∨ (s.cle.valid = true ∧ ∃ frame stg value,
        t = ((s.withOut (s.out.emitFrame frame)).withLayout
              { s.cle with stg := stg, sfidCur := s.cle.cfg.nextSfid s.cle.sfidCur }).respond .ok
            value []
          ∧ (stg = s.cle.stg ∨ ∃ need, stg = takeNeeded s.cle.cfg.n need s.cle.stg))

theorem buildFrame_next (unassigned : Bool) (need : Nat → Nat) (place : (Nat → Bytes) → Bytes)
    (s : State) (hv : s.cle.valid = true) : MuxNext s (buildFrame unassigned need place s) := by
  unfold buildFrame
  split
  · exact .inr ⟨hv, _, s.cle.stg, _, rfl, .inl rfl⟩
  · exact .inr ⟨hv, _, _, _, rfl, .inr ⟨need, rfl⟩⟩

theorem buildRow_next (ch : Option Nat) (s : State) (hv : s.cle.valid = true) :
    MuxNext s (buildRow ch s) := by
  cases ch with
  | none => rw [buildRow]; exact buildFrame_next _ _ _ _ hv
  | some own => rw [buildRow]; exact buildFrame_next _ _ _ _ hv

section mux
variable {s t : State}

theorem execMuxXc_next (h : execMuxXc s = .next t) : s.issuer = .X ∧ MuxNext s t := by
  unfold execMuxXc at h
  obtain ⟨hi, h⟩ := byRole_next h
  refine ⟨by simpa [mayIssue] using hi, ?_⟩
  split at h
  · cases h; exact .inl ⟨.notConfigured, _, by decide, by decide, rfl⟩
  · exact Host.Outcome.next.inj h ▸ buildFrame_next _ _ _ _ (by simpa using ‹¬ ¬ _›)

theorem execMuxCc_next (h : execMuxCc s = .next t) : s.issuer = .X ∧ MuxNext s t := by
  unfold execMuxCc at h
  obtain ⟨hi, h⟩ := byRole_next h
  refine ⟨by simpa [mayIssue] using hi, ?_⟩
  split at h
  · cases h; exact .inl ⟨.notConfigured, _, by decide, by decide, rfl⟩
  · exact Host.Outcome.next.inj h ▸ buildFrame_next _ _ _ _ (by simpa using ‹¬ ¬ _›)

theorem execMuxRow_next (h : execMuxRow s = .next t) : s.issuer = .X ∧ MuxNext s t := by
  unfold execMuxRow at h
  obtain ⟨hi, h⟩ := byRole_next h
  refine ⟨by simpa [mayIssue] using hi, ?_⟩
  split at h
  · cases h; exact .inl ⟨.notConfigured, _, by decide, by decide, rfl⟩
  · exact Host.Outcome.next.inj h ▸ buildRow_next _ _ (by simpa using ‹¬ ¬ _›)

theorem execMuxRc_next (h : execMuxRc s = .next t) : s.issuer = .X ∧ MuxNext s t := by
  unfold execMuxRc at h
  obtain ⟨hi, h⟩ := byRole_next h
  refine ⟨by simpa [mayIssue] using hi, ?_⟩
  split at h
  · cases h; exact .inl ⟨.notConfigured, _, by decide, by decide, rfl⟩
  · split at h
    · exact Host.Outcome.next.inj h ▸ buildRow_next _ _ (by simpa using ‹¬ ¬ _›)
    · cases h; exact .inl ⟨.cfgInvalid, _, by decide, by decide, rfl⟩

end mux

/-! ## The idle-frame detector -/

theorem execIdleChk_next {p : Bytes} {s t : State} (h : execIdleChk p s = .next t) :
    s.issuer = .I
      ∧ ((isIdle s.par p = true ∧ t = s.respond .ok 1#32 [])
        ∨ (isIdle s.par p = false
          ∧ t = (s.withOut (s.out.emitForward p)).respond .ok 0#32 [])) := by
  unfold execIdleChk at h
  obtain ⟨hi, h⟩ := byRole_next h
  refine ⟨by simpa [mayIssue] using hi, ?_⟩
  split at h <;> cases h
  · exact .inl ⟨‹_›, rfl⟩
  · exact .inr ⟨Bool.eq_false_iff.2 ‹_›, rfl⟩

/-! ## The end of a consumer operation -/

theorem finishPop_cases (s : State) :
    (0 < s.rb.q.length
        ∧ finishPop s = (s.withRing { s.rb with q := [] }).respond .ok
            (BitVec.ofNat 32 s.rb.q.length) s.rb.q)
      ∨ (s.rb.q = [] ∧ finishPop s = s.respond .closed 0#32 []) := by
  unfold finishPop
  by_cases h : 0 < s.rb.q.length
  · exact .inl ⟨h, if_pos h⟩
  · have hq : s.rb.q = [] := by simpa using h
    refine .inr ⟨hq, (if_neg h).trans ?_⟩
    obtain ⟨par, ⟨q, lost, quit⟩, fp, cle, held, out, issuer, responses, events⟩ := s
    obtain rfl : q = [] := hq
    rfl

theorem finishPopn_cases (min max : Word) (s : State) :
    (min.toNat ≤ s.rb.q.length ∧ ∃ k, k = Nat.min s.rb.q.length max.toNat
        ∧ finishPopn min max s = (s.withRing { s.rb with q := s.rb.q.drop k }).respond .ok
            (BitVec.ofNat 32 k) (s.rb.q.take k))
      ∨ (s.rb.q.length < min.toNat ∧ finishPopn min max s = s.respond .closed 0#32 []) := by
  unfold finishPopn
  by_cases h : min.toNat ≤ s.rb.q.length
  · exact .inl ⟨h, _, rfl, if_pos h⟩
  · exact .inr ⟨Nat.lt_of_not_le h, if_neg h⟩

theorem finishIter_cases (s : State) :
    (s.rb.q = []
        ∧ finishIter s = (s.withParser { s.fp with state := .halted }).respond .closed 0#32 [])
      ∨ (s.rb.q ≠ [] ∧ ∃ r, r = scan s.par.maxLen (s.fp.pb ++ s.rb.q)
        ∧ finishIter s
          = (((s.withRing { s.rb with q := [] }).withParser (s.fp.afterScan r)).withOut
              (s.out.afterScan r)).respond .ok 0#32 []) := by
  unfold finishIter
  by_cases h : s.rb.q.length = 0
  · have hq : s.rb.q = [] := by simpa using h
    refine .inl ⟨hq, (if_pos h).trans ?_⟩
    obtain ⟨par, ⟨q, lost, quit⟩, fp, cle, held, out, issuer, responses, events⟩ := s
    obtain rfl : q = [] := hq
    rfl
  · exact .inr ⟨by simpa using h, _, rfl, if_neg h⟩

/-! ## Steps -/

theorem consumerTurn_next {s t : State} (h : consumerTurn s = .next t) :
    (∃ hd, s.held = some hd
        ∧ ((hd.op.ready s.rb = true ∧ t = hd.op.finish ((s.withHeld none).withIssuer hd.agent))
          ∨ (hd.op.ready s.rb = false ∧ t = s)))
      ∨ (s.held = none
        ∧ ((s.fp.state = .run ∧ exec .fpIter (s.withIssuer .K) = .next t)
          ∨ (s.fp.state ≠ .run ∧ t = s))) := by
  unfold consumerTurn at h
  split at h
  · rename_i hd hh
    refine .inl ⟨hd, hh, ?_⟩
    split at h <;> cases h
    · exact .inl ⟨‹_›, rfl⟩
    · exact .inr ⟨Bool.eq_false_iff.2 ‹_›, rfl⟩
  · refine .inr ⟨‹_›, ?_⟩
    split at h
    · exact .inl ⟨‹_›, h⟩
    · cases h; exact .inr ⟨‹_›, rfl⟩

theorem issue_next {a : Agent} {c : Command} {s t : State} (h : issue a c s = .next t) :
    (∀ hd, s.held = some hd → hd.agent ≠ a)
      ∧ ((∃ i, decode c = .instr i ∧ exec i (s.withIssuer a) = .next t)
        ∨ (∃ why, decode c = .illegal why ∧ t = (s.withIssuer a).respond .badCmd 0#32 [])) := by
  unfold issue at h
  split at h
  · cases h
  · rename_i hb
    refine ⟨fun hd hh ha => hb ((blocked_iff s a).2 ⟨hd, hh, ha⟩), ?_⟩
    split at h
    · exact .inl ⟨_, ‹_›, h⟩
    · cases h; exact .inr ⟨_, ‹_›, rfl⟩
    · cases h

/-- Everything a step can do. -/
theorem step_next {s t : State} (h : step s = .next t) :
    (∃ rest, s.events = .reset :: rest ∧ t = (State.resetWith s.par).withEvents rest)
      ∨ (∃ a c rest i, s.events = .issue a c :: rest ∧ (∀ hd, s.held = some hd → hd.agent ≠ a)
          ∧ decode c = .instr i ∧ exec i ((s.withEvents rest).withIssuer a) = .next t)
      ∨ (∃ a c rest why, s.events = .issue a c :: rest ∧ decode c = .illegal why
          ∧ t = ((s.withEvents rest).withIssuer a).respond .badCmd 0#32 [])
      ∨ (∃ rest, (s.events = .turn :: rest ∨ (s.events = [] ∧ rest = []))
          ∧ consumerTurn (s.withEvents rest) = .next t) := by
  unfold step at h
  split at h
  · rename_i he
    refine .inr (.inr (.inr ⟨[], .inr ⟨he, rfl⟩, ?_⟩))
    have : s.withEvents [] = s := by rw [← he]; rfl
    rwa [this]
  · exact .inr (.inr (.inr ⟨_, .inl ‹_›, h⟩))
  · cases h; exact .inl ⟨_, ‹_›, rfl⟩
  · rename_i a c rest he
    obtain ⟨hb, ⟨i, hd, hx⟩ | ⟨why, hd, rfl⟩⟩ := issue_next h
    · exact .inr (.inl ⟨a, c, rest, i, he, hb, hd, hx⟩)
    · exact .inr (.inr (.inl ⟨a, c, rest, why, he, hd, rfl⟩))

end Sys2Proof.Machine
end

