-- ==== Sys2Proof/Tests/Slice0.lean ====
section
/-! SUPPORT. Tests of the model against spec/95_test_vectors.md and the rules' own examples, the smoke test of
`WellFormed`, decode tests with words written from rule R105, and for every statement with hypotheses a
witness that something meets them. Expected values come from the spec, never from the model. -/

namespace Sys2Proof.Tests

open Sys2Proof Sys2Proof.Machine Sys2Proof.Spec

/-! ## Well-formedness: an ill-formed term for each check -/

/-- One operand byte more than the `n` field can count. -/
def tooMany : Bytes := List.replicate 65536 0x00#8

theorem tooMany_long : ¬ tooMany.length ≤ 65535 := by
  rw [tooMany, List.length_replicate]; omega

theorem test_illformed_rbPushr : ¬ (Instr.rbPushr tooMany).WellFormed := tooMany_long
theorem test_illformed_stgAppend : ¬ (Instr.stgAppend 0x00#8 tooMany).WellFormed := tooMany_long
theorem test_illformed_dmxXc : ¬ (Instr.dmxXc tooMany).WellFormed := tooMany_long
theorem test_illformed_dmxCc : ¬ (Instr.dmxCc tooMany).WellFormed := tooMany_long
theorem test_illformed_dmxRow : ¬ (Instr.dmxRow tooMany).WellFormed := tooMany_long
theorem test_illformed_dmxRc : ¬ (Instr.dmxRc tooMany).WellFormed := tooMany_long
theorem test_illformed_idleChk : ¬ (Instr.idleChk tooMany).WellFormed := tooMany_long
theorem test_wellformed_boundary : (Instr.rbPushr (List.replicate 65535 0x00#8)).WellFormed :=
  Nat.le_of_eq List.length_replicate

/-! ## Decoding: a word for every constructor, from the tables of rules R103 and R105 -/

theorem test_decode_csrRd : decode ⟨0x01000013#32, [], []⟩ = .instr (.csrRd 0x0013#16) := by decide
theorem test_decode_csrWr :
    decode ⟨0x02000035#32, [0x00010014#32], []⟩ = .instr (.csrWr 0x0035#16 0x00010014#32) := by decide
theorem test_decode_rbPush : decode ⟨0x10000041#32, [], []⟩ = .instr (.rbPush 0x41#8) := by decide
theorem test_decode_rbPushr :
    decode ⟨0x11000003#32, [], [0x0A#8, 0x0B#8, 0x0C#8]⟩ = .instr (.rbPushr [0x0A#8, 0x0B#8, 0x0C#8]) := by
  decide
theorem test_decode_rbPop : decode ⟨0x12000000#32, [], []⟩ = .instr .rbPop := by decide
theorem test_decode_rbPopn :
    decode ⟨0x13000000#32, [2#32, 3#32], []⟩ = .instr (.rbPopn 2#32 3#32) := by decide
theorem test_decode_rbQuit : decode ⟨0x14000000#32, [], []⟩ = .instr .rbQuit := by decide
theorem test_decode_rbReset : decode ⟨0x15000000#32, [], []⟩ = .instr .rbReset := by decide
theorem test_decode_fpStart : decode ⟨0x20000000#32, [], []⟩ = .instr .fpStart := by decide
theorem test_decode_fpIter : decode ⟨0x21000000#32, [], []⟩ = .instr .fpIter := by decide
theorem test_decode_fpReset : decode ⟨0x22000000#32, [], []⟩ = .instr .fpReset := by decide
theorem test_decode_cfgCommit : decode ⟨0x30000000#32, [], []⟩ = .instr .cfgCommit := by decide
theorem test_decode_cleReset : decode ⟨0x31000000#32, [], []⟩ = .instr .cleReset := by decide
theorem test_decode_stgAppend :
    decode ⟨0x32020001#32, [], [0x00#8]⟩ = .instr (.stgAppend 0x02#8 [0x00#8]) := by decide
theorem test_decode_dmxXc :
    decode ⟨0x38000002#32, [], [0xFE#8, 0x6B#8]⟩ = .instr (.dmxXc [0xFE#8, 0x6B#8]) := by decide
theorem test_decode_dmxCc :
    decode ⟨0x39000002#32, [], [0xFE#8, 0x6B#8]⟩ = .instr (.dmxCc [0xFE#8, 0x6B#8]) := by decide
theorem test_decode_dmxRow :
    decode ⟨0x3A000002#32, [], [0xFE#8, 0x6B#8]⟩ = .instr (.dmxRow [0xFE#8, 0x6B#8]) := by decide
theorem test_decode_dmxRc :
    decode ⟨0x3B000002#32, [], [0xFE#8, 0x6B#8]⟩ = .instr (.dmxRc [0xFE#8, 0x6B#8]) := by decide
theorem test_decode_muxXc : decode ⟨0x3C000000#32, [], []⟩ = .instr .muxXc := by decide
theorem test_decode_muxCc : decode ⟨0x3D000000#32, [], []⟩ = .instr .muxCc := by decide
theorem test_decode_muxRow : decode ⟨0x3E000000#32, [], []⟩ = .instr .muxRow := by decide
theorem test_decode_muxRc : decode ⟨0x3F000000#32, [], []⟩ = .instr .muxRc := by decide
theorem test_decode_idleChk :
    decode ⟨0x40000002#32, [], [0xAA#8, 0xBB#8]⟩ = .instr (.idleChk [0xAA#8, 0xBB#8]) := by decide

/-- The bits of one command per format, field by field: `op`, `ch`, `n` (rule R102). -/
theorem test_decode_bits :
    decode ⟨(0b00010000#8 ++ 0b00000000#8 ++ 0b0000000001000001#16 : BitVec 32), [], []⟩
        = .instr (.rbPush 0b01000001#8)
      ∧ decode ⟨(0b00100010#8 ++ 0b00000000#8 ++ 0b0000000000000000#16 : BitVec 32), [], []⟩
        = .instr .fpReset
      ∧ decode ⟨(0b00110010#8 ++ 0b00000011#8 ++ 0b0000000000000001#16 : BitVec 32), [], [0x7F#8]⟩
        = .instr (.stgAppend 0b00000011#8 [0x7F#8])
      ∧ decode ⟨(0b00000001#8 ++ 0b00000000#8 ++ 0b0000000100000011#16 : BitVec 32), [], []⟩
        = .instr (.csrRd 0b0000000100000011#16)
      ∧ decode ⟨(0b01000000#8 ++ 0b00000000#8 ++ 0b0000000000000000#16 : BitVec 32), [], []⟩
        = .instr (.idleChk []) := by decide

/-- T-DEC-1 and T-DEC-2. -/
theorem test_decode_illegal :
    ([0x00000000#32, 0x03000000#32, 0x16000000#32, 0x33000000#32, 0x41000000#32, 0xFF000000#32].all
        (fun w => decode ⟨w, [], []⟩ == .illegal .unassignedOp)) = true
      ∧ ([0x12000001#32, 0x10000100#32, 0x14010000#32, 0x38010014#32].all
        (fun w => decode ⟨w, [], []⟩ == .illegal .mustBeZero)) = true := by decide

/-- No word matches two rows of the opcode table. -/
theorem test_rows_disjoint :
    opcodeRows.Pairwise (fun a b => a.2.1 &&& b.2.1 &&& (a.1 ^^^ b.1) ≠ 0#32) := by decide

/-- The host's two entry points, on a row with an argument word and a row with operand bytes. -/
theorem test_table_words :
    decodeTableWord 64 (0x02000035 + 20 * 2 ^ 32) = some (.csrWr 0x0035#16 20#32)
      ∧ decodeTableWord 32 0x32010004 = some (.stgAppend 1#8 [0#8, 0#8, 0#8, 0#8])
      ∧ decodeTableWord 48 (0x11000002 + 0xBBAA * 2 ^ 32) = some (.rbPushr [0xAA#8, 0xBB#8])
      ∧ decodeTableWord 32 0x12000001 = none := by decide

/-! ## One step on a small state -/

/-- One field of the state an operation leaves, if it leaves one. -/
def after {α : Type} (r : Result) (f : State → α) : Option α :=
  match r with
  | .next t => some (f t)
  | .fault _ => none
  | .refused _ => none

/-- The last response. -/
def answer (t : State) : Option Response := t.responses.getLast?

/-- A ring with these contents, `C = 4`, used by this agent. -/
def ringState (a : Agent) (q : Bytes) (lost : Word) (quit : Bool) : State :=
  { State.reset with issuer := a, rb := ⟨q, lost, quit⟩ }

/-- A parser with this buffer and a ring with this content. -/
def parserState (a : Agent) (st : FpState) (pb q : Bytes) (quit : Bool) : State :=
  { State.reset with issuer := a, fp := ⟨pb, st, 0#32, none⟩, rb := ⟨q, 0#32, quit⟩ }

/-- A configuration in the terms of the vectors: `N`, `BE`, `RL`, `FL`, `RSO`; SFIDs 0 to 31. -/
def config (n : BitVec 9) (be : Bool) (rl fl : BitVec 16) (rso : Word) : LayoutConfig :=
  ⟨n, be, 0xFE6B2840#32, 0#32, 31#32, fl, rl, rso, 32#32⟩

/-- A committed engine, used by this agent. -/
def engine (a : Agent) (c : LayoutConfig) (sfid : Word) (stg : List Bytes) : State :=
  { State.reset with issuer := a, cle := ⟨c, true, true, stg, sfid⟩ }

def a12 : Bytes := [0xA0#8, 0xA1#8, 0xA2#8, 0xA3#8, 0xA4#8, 0xA5#8, 0xA6#8, 0xA7#8, 0xA8#8, 0xA9#8, 0xAA#8, 0xAB#8]
def b6 : Bytes := [0xB0#8, 0xB1#8, 0xB2#8, 0xB3#8, 0xB4#8, 0xB5#8]
def sync : Bytes := [0xFE#8, 0x6B#8, 0x28#8, 0x40#8]

/-- T-CSR-1: `RB_STAT` after reset. -/
theorem test_csrRd_stat : after (exec (.csrRd 0x0013#16) State.reset) answer = some (some ⟨.H, .ok, 4#32, []⟩) := by
  decide
/-- T-CSR-8: `STG_LEN[3]`, and the first address above the map. -/
theorem test_csrRd_edge :
    after (exec (.csrRd 0x0103#16) State.reset) answer = some (some ⟨.H, .ok, 0#32, []⟩)
      ∧ after (exec (.csrRd 0x0104#16) State.reset) answer = some (some ⟨.H, .badAddr, 0#32, []⟩) := by decide
/-- T-CSR-7: `CFG_CHCNT` keeps bits 8 to 0. -/
theorem test_csrWr_mask :
    after (exec (.csrWr 0x0030#16 0x300#32) State.reset) (fun t => t.cle.cfg.channelCount)
      = some 0x100#9 := by decide
/-- T-CSR-5, T-CLE-2: a read-only register; a locked configuration. -/
theorem test_csrWr_refused :
    after (exec (.csrWr 0x0010#16 5#32) State.reset) answer = some (some ⟨.H, .badAddr, 0#32, []⟩)
      ∧ after (exec (.csrWr 0x0035#16 24#32) (engine .H (config 2#9 true 2#16 20#16 0#32) 0#32 []))
          answer = some (some ⟨.H, .cfgLocked, 0#32, []⟩) := by decide
/-- T-RB-2: a full ring, a saturated count. -/
theorem test_rbPush_saturates :
    after (exec (.rbPush 5#8) (ringState .P [1#8, 2#8, 3#8, 4#8] 0xFFFFFFFF#32 false))
        (fun t => (t.rb.lost, answer t)) = some (0xFFFFFFFF#32, some ⟨.P, .full, 0#32, []⟩) := by decide
/-- T-RB-21: a push after quit. -/
theorem test_rbPush_after_quit :
    after (exec (.rbPush 9#8) (ringState .P [] 0#32 true)) (fun t => (t.rb.q, answer t))
      = some ([9#8], some ⟨.P, .ok, 1#32, []⟩) := by decide
/-- T-RB-3. -/
theorem test_rbPushr_partial :
    after (exec (.rbPushr [0xA#8, 0xB#8, 0xC#8, 0xD#8, 0xE#8]) (ringState .P [1#8] 0#32 false))
        (fun t => (t.rb, answer t))
      = some (⟨[1#8, 0xA#8, 0xB#8, 0xC#8], 0#32, false⟩, some ⟨.P, .ok, 3#32, []⟩) := by decide
/-- T-RB-6. -/
theorem test_rbPop :
    after (exec .rbPop (ringState .K [0x41#8, 0x42#8, 0x43#8] 0#32 false)) (fun t => (t.rb.q, answer t))
      = some ([], some ⟨.K, .ok, 3#32, [0x41#8, 0x42#8, 0x43#8]⟩) := by decide
/-- T-RB-7: held. -/
theorem test_rbPop_held :
    after (exec .rbPop (ringState .K [] 0#32 false)) (fun t => (t.held, answer t))
      = some (some ⟨.K, .pop⟩, none) := by decide
/-- T-RB-16: `max < min`. -/
theorem test_rbPopn_max_below_min :
    after (exec (.rbPopn 3#32 1#32) (ringState .K [0x10#8, 0x11#8, 0x12#8] 0#32 false))
        (fun t => (t.rb.q, answer t))
      = some ([0x11#8, 0x12#8], some ⟨.K, .ok, 1#32, [0x10#8]⟩) := by decide
/-- T-RB-13: closed, the element stays. -/
theorem test_rbPopn_closed :
    after (exec (.rbPopn 2#32 3#32) (ringState .K [0x10#8] 0#32 true)) (fun t => (t.rb.q, answer t))
      = some ([0x10#8], some ⟨.K, .closed, 0#32, []⟩) := by decide
/-- T-RB-9: quit, then the consumer's turn closes the held pop. -/
theorem test_rbQuit_releases :
    after (exec .rbQuit { ringState .H [] 0#32 false with held := some ⟨.K, .pop⟩ })
        (fun t => (t.rb.quit, t.held, after (step t) (fun u => (u.held, answer u))))
      = some (true, some ⟨.K, .pop⟩, some (none, some ⟨.K, .closed, 0#32, []⟩)) := by decide
/-- T-RB-18. -/
theorem test_rbReset :
    after (exec .rbReset (ringState .H [1#8, 2#8] 7#32 true)) (fun t => (t.rb, answer t))
      = some (⟨[], 0#32, false⟩, some ⟨.H, .ok, 0#32, []⟩) := by decide
/-- T-RB-19. -/
theorem test_rbReset_busy :
    after (exec .rbReset { ringState .H [] 0#32 false with held := some ⟨.K, .pop⟩ }) answer
      = some (some ⟨.H, .busy, 0#32, []⟩) := by decide
/-- T-FP-20. -/
theorem test_fpStart :
    after (exec .fpStart State.reset) (fun t => (t.fp.state, t.fpStat)) = some (.run, 1#32) := by decide
/-- T-FP-25. -/
theorem test_fpIter_message :
    after (exec .fpIter (parserState .H .idle [0x49#8, 0x96#8, 0x02#8]
        [0xD2#8, 0#8, 0#8, 0#8, 0x0D#8, 0x7F#8, 0xB6#8, 0x69#8, 0xFD#8, 0x2E#8] false))
        (fun t => (t.rb.q, t.fp.pb, t.fp.state, t.out.msgOut))
      = some ([], [], .idle, [[0x49#8, 0x96#8, 0x02#8, 0xD2#8, 0#8, 0#8, 0#8, 0x0D#8, 0x7F#8,
          0xB6#8, 0x69#8, 0xFD#8, 0x2E#8]]) := by decide
/-- T-FP-26, second iteration: the running parser halts; rule R241, `BUSY`: a host iteration while a pop is
held. -/
theorem test_fpIter_halts_or_busy :
    after (step (parserState .H .run [1#8] [] true)) (fun t => (t.fp.state, t.fp.pb, answer t))
        = some (.halted, [1#8], some ⟨.K, .closed, 0#32, []⟩)
      ∧ after (exec .fpIter { ringState .H [1#8] 0#32 false with held := some ⟨.K, .popn 2#32 2#32⟩ }) answer
        = some (some ⟨.H, .busy, 0#32, []⟩) := by decide
/-- T-FP-24. -/
theorem test_fpReset :
    after (exec .fpReset { State.reset with
        fp := ⟨[0x49#8, 0x96#8, 0x02#8, 0xD2#8, 0#8], .halted, 3#32, some .badTrailer⟩ })
        (fun t => (t.fp, answer t)) = some (⟨[], .idle, 0#32, none⟩, some ⟨.H, .ok, 0#32, []⟩) := by decide
/-- T-FP-23. -/
theorem test_fpReset_busy :
    after (exec .fpReset (parserState .H .run [] [] false)) answer = some (some ⟨.H, .busy, 0#32, []⟩) := by decide

set_option maxRecDepth 4000 in
/-- T-FP-5, the middle message's trailer corrupted. -/
theorem test_scan_resync :
    scan 64 ([0x49#8, 0x96#8, 0x02#8, 0xD2#8, 0#8, 0#8, 0#8, 0x0E#8, 0x11#8, 0x22#8, 0xB6#8, 0x69#8, 0xFD#8, 0x2F#8]
        ++ [0x49#8, 0x96#8, 0x02#8, 0xD2#8, 0#8, 0#8, 0#8, 0x0D#8, 0x03#8, 0xB6#8, 0x69#8, 0xFD#8, 0x2E#8])
      = ⟨[[0x49#8, 0x96#8, 0x02#8, 0xD2#8, 0#8, 0#8, 0#8, 0x0D#8, 0x03#8, 0xB6#8, 0x69#8, 0xFD#8, 0x2E#8]],
          [(.badTrailer, 14)], []⟩ := by decide
/-- T-FP-6 (d): a negative length; T-FP-15: a partial header is kept; T-FP-3 (a): no header. -/
theorem test_scan_edges :
    (scan 64 [0x49#8, 0x96#8, 0x02#8, 0xD2#8, 0xFF#8, 0xFF#8, 0xFF#8, 0xFF#8]).reports = [(.badLength, -1)]
      ∧ (scan 64 [0x49#8, 0x96#8, 0x02#8, 0xD2#8, 0#8, 0#8, 0#8, 0x0C#8, 0xB6#8, 0x69#8, 0xFD#8, 0x2E#8,
          0x49#8, 0x96#8]).rest = [0x49#8, 0x96#8]
      ∧ scan 64 [1#8, 2#8, 3#8, 4#8, 5#8, 6#8, 7#8, 8#8, 9#8, 0xA#8] = ⟨[], [], [8#8, 9#8, 0xA#8]⟩ := by decide

/-- T-CLE-1 (c) and (b): 13 > 12 and not 12 > 12. -/
theorem test_cfgCommit :
    after (exec .cfgCommit { State.reset with cle :=
        ⟨config 2#9 true 2#16 13#16 0#32, false, false, [[], [], [], []], 0#32⟩ })
        (fun t => (t.cle.valid, t.cle.locked)) = some (true, true)
      ∧ after (exec .cfgCommit { State.reset with cle :=
        ⟨config 2#9 true 2#16 12#16 0#32, false, false, [[], [], [], []], 0#32⟩ })
        answer = some (some ⟨.H, .cfgInvalid, 2#32, []⟩) := by decide
/-- T-CLE-18. -/
theorem test_cleReset :
    after (exec .cleReset (engine .H (config 2#9 true 2#16 20#16 0#32) 2#32 [[0xA6#8, 0xA7#8], [], [], []]))
        (fun t => t.cle) = some ⟨config 2#9 true 2#16 20#16 0#32, false, false, [[], [], [], []], 0#32⟩ := by
  decide
/-- Rule R174's example. -/
theorem test_stgAppend :
    after (exec (.stgAppend 1#8 [0xB2#8, 0xB3#8])
        (engine (.S 0) (config 2#9 true 2#16 20#16 0#32) 0#32 [[], [0xB0#8, 0xB1#8], [], []]))
        (fun t => (t.cle.stg, answer t))
      = some ([[], [0xB0#8, 0xB1#8, 0xB2#8, 0xB3#8], [], []], some ⟨.S 0, .ok, 0#32, []⟩) := by decide
/-- T-CLE-17: one byte too many for `STG_CAP = 8`, nothing appended. -/
theorem test_stgAppend_full :
    after (exec (.stgAppend 0#8 [1#8, 2#8, 3#8])
        { engine (.S 0) (config 2#9 true 2#16 20#16 0#32) 0#32 [b6, [], [], []] with
          par := { Params.vectors with stgCap := some 8 } })
        (fun t => (t.cle.stg, answer t)) = some ([b6, [], [], []], some ⟨.S 0, .stgFull, 0#32, []⟩) := by decide
/-- Rule R180's example. -/
theorem test_dmxXc :
    after (exec (.dmxXc (sync ++ [0#8, 0#8, 0#8, 0#8, 0xA1#8, 0xA0#8, 0xB1#8, 0xB0#8, 0xA3#8, 0xA2#8, 0xB3#8, 0xB2#8,
        0xA5#8, 0xA4#8, 0xB5#8, 0xB4#8])) (engine .Y (config 2#9 false 2#16 20#16 0#32) 0#32 [[], [], [], []]))
        (fun t => t.out.dout) = some [a12.take 6, b6, [], []] := by decide
/-- Rule R181's example. -/
theorem test_dmxCc :
    after (exec (.dmxCc (sync ++ [0#8, 0#8, 0#8, 0#8, 0x10#8, 0x11#8, 0x12#8, 0x13#8, 0x20#8, 0x21#8, 0x22#8, 0x23#8,
        0x30#8, 0x31#8, 0x32#8, 0x33#8, 0#8, 0#8])) (engine .Y (config 3#9 false 2#16 22#16 0#32) 0#32 []))
        (fun t => t.out.dout)
      = some [[0x10#8, 0x11#8, 0x12#8, 0x13#8], [0x20#8, 0x21#8, 0x22#8, 0x23#8],
          [0x30#8, 0x31#8, 0x32#8, 0x33#8], []] := by decide
/-- The frame of T-CLE-9. -/
def rowFrame : Bytes := sync ++ [0#8, 1#8, 0#8, 0#8, 0xA1#8, 0xA0#8, 0xA3#8, 0xA2#8, 0xA5#8, 0xA4#8, 0xA7#8, 0xA6#8,
  0xA9#8, 0xA8#8, 0xAB#8, 0xAA#8]
/-- T-CLE-9. -/
theorem test_dmxRow :
    after (exec (.dmxRow rowFrame) (engine .Y (config 2#9 false 2#16 20#16 1#32) 0#32 []))
        (fun t => (t.out.dout, answer t)) = some ([a12, [], [], []], some ⟨.Y, .ok, 0#32, []⟩) := by decide
/-- P4 step 15: a reserved row. -/
theorem test_dmxRow_reserved :
    after (exec (.dmxRow (sync ++ [0#8, 0#8, 0#8, 0#8] ++ a12))
        (engine .Y (config 2#9 false 2#16 20#16 1#32) 0#32 []))
        (fun t => (t.out.dout, answer t))
      = some ([[], [], [], []], some ⟨.Y, .ok, 0xFFFFFFFF#32, []⟩) := by decide
/-- T-CLE-10. -/
theorem test_dmxRc :
    after (exec (.dmxRc (sync ++ [0#8, 0x10#8, 0#8, 0#8] ++ a12))
        (engine .Y (config 2#9 true 2#16 20#16 0#32) 0#32 []))
        (fun t => (t.out.dout, answer t)) = some ([[], a12, [], []], some ⟨.Y, .ok, 1#32, []⟩) := by decide
/-- T-CLE-12: check 5. -/
theorem test_dmxRc_check5 :
    after (exec (.dmxRc (sync ++ [0#8, 0x10#8, 0#8, 0#8] ++ a12))
        (engine .Y (config 4#9 true 2#16 20#16 30#32) 0#32 [])) answer
      = some (some ⟨.Y, .cfgInvalid, 5#32, []⟩) := by decide
/-- Rule R191's example. -/
theorem test_muxXc :
    after (exec .muxXc (engine .X (config 2#9 false 2#16 20#16 0#32) 0#32 [a12.take 8, b6, [], []]))
        (fun t => (t.out.frmOut, t.cle.stg, t.cle.sfidCur))
      = some ([sync ++ [0#8, 0#8, 0#8, 0#8, 0xA1#8, 0xA0#8, 0xB1#8, 0xB0#8, 0xA3#8, 0xA2#8, 0xB3#8, 0xB2#8,
          0xA5#8, 0xA4#8, 0xB5#8, 0xB4#8]], [[0xA6#8, 0xA7#8], [], [], []], 1#32) := by decide
/-- Its second frame: idle. -/
theorem test_muxXc_idle :
    after (exec .muxXc (engine .X (config 2#9 false 2#16 20#16 0#32) 1#32 [[0xA6#8, 0xA7#8], [], [], []]))
        (fun t => (t.out.frmOut, t.cle.stg, t.cle.sfidCur, answer t))
      = some ([sync ++ [0#8, 1#8, 0#8, 0#8, 0xFA#8, 0xDE#8, 0xFA#8, 0xDE#8, 0xFA#8, 0xDE#8, 0xFA#8, 0xDE#8,
          0xFA#8, 0xDE#8, 0xFA#8, 0xDE#8]], [[0xA6#8, 0xA7#8], [], [], []], 2#32, some ⟨.X, .ok, 1#32, []⟩) := by
  decide
/-- T-CLE-8, frame 1. -/
theorem test_muxCc :
    after (exec .muxCc (engine .X (config 3#9 false 2#16 22#16 0#32) 0#32
        [[0x10#8, 0x11#8, 0x12#8, 0x13#8], [0x20#8, 0x21#8, 0x22#8, 0x23#8],
          [0x30#8, 0x31#8, 0x32#8, 0x33#8, 0x34#8], []]))
        (fun t => (t.out.frmOut, t.cle.stg))
      = some ([sync ++ [0#8, 0#8, 0#8, 0#8, 0x10#8, 0x11#8, 0x12#8, 0x13#8, 0x20#8, 0x21#8, 0x22#8, 0x23#8,
          0x30#8, 0x31#8, 0x32#8, 0x33#8, 0#8, 0#8]], [[], [], [0x34#8], []]) := by decide
/-- T-CLE-9. -/
theorem test_muxRow :
    after (exec .muxRow (engine .X (config 2#9 false 2#16 20#16 1#32) 1#32 [a12, [], [], []]))
        (fun t => (t.out.frmOut, t.cle.stg, t.cle.sfidCur, answer t))
      = some ([rowFrame], [[], [], [], []], 2#32, some ⟨.X, .ok, 0#32, []⟩) := by decide
/-- T-CLE-10 with the sync word of the others. -/
theorem test_muxRc :
    after (exec .muxRc (engine .X (config 2#9 true 2#16 20#16 0#32) 16#32 [[], a12, [], []]))
        (fun t => (t.out.frmOut, t.cle.stg, t.cle.sfidCur))
      = some ([sync ++ [0#8, 0x10#8, 0#8, 0#8] ++ a12], [[], [], [], []], 17#32) := by decide
/-- The wrap of the SFID: at `sfid_max` it starts again at `sfid_min` (rule R190). -/
theorem test_muxRc_wrap :
    after (exec .muxRc (engine .X (config 2#9 true 2#16 20#16 0#32) 31#32 [[], [], [], []]))
        (fun t => (t.cle.sfidCur, answer t)) = some (0#32, some ⟨.X, .ok, 1#32, []⟩) := by decide
/-- T-IFD-4 and T-IFD-7. -/
theorem test_idleChk :
    after (exec (.idleChk [0x11#8, 0x22#8, 0x33#8, 0x44#8, 0x55#8, 0x66#8, 0x77#8, 0x88#8])
        { State.reset with issuer := .I }) (fun t => (t.out.fwd, answer t))
      = some ([[0x11#8, 0x22#8, 0x33#8, 0x44#8, 0x55#8, 0x66#8, 0x77#8, 0x88#8]], some ⟨.I, .ok, 0#32, []⟩)
    ∧ after (exec (.idleChk [0xFA#8, 0xDE#8, 0xFA#8, 0xDE#8, 0xFA#8, 0xDE#8, 0xFA#8, 0xDE#8, 1#8, 2#8, 3#8])
        { State.reset with issuer := .I }) (fun t => (t.out.fwd, answer t))
      = some ([], some ⟨.I, .ok, 1#32, []⟩) := by decide

/-! ## From reset: a placed command is the first thing that happens -/

theorem test_withFetchWord :
    after (step (State.reset.withFetchWord 32 0x10000041)) (fun t => (t.rb.q, t.issuer, t.events))
        = some ([0x41#8], .P, [])
      ∧ after (step (State.reset.withFetchWord 64 (0x02000035 + 20 * 2 ^ 32))) (fun t => t.cle.cfg.frameLen)
        = some 20#16
      ∧ after (step (State.reset.withFetchWord 32 0x00000000)) answer = some (some ⟨.H, .badCmd, 0#32, []⟩) := by
  decide

/-! ## Witnesses: for every statement with hypotheses, something that meets them, clause by clause -/

/-- The widest parameters but for the ring, which is the smallest (rule R6). -/
def wide : Params :=
  { Params.vectors with ringCap := 1, maxLen := 2 ^ 31 - 1, nchMax := 256, stgCap := some 1,
                        altPat := List.replicate 8 0x55#8 }

theorem witness_params : Params.vectors.Ok ∧ wide.Ok ∧ Params.vectors.SentinelsOfTable := by decide

theorem witness_RegistersReadTheirResetValues :
    wide.Ok ∧ (0 < wide.nchMax ∧ 255 < wide.nchMax) ∧ 0x0039#16 ∈ [0x0010#16, 0x0039#16] := by decide

/-- Reset, and one command to come. -/
def issuing (a : Agent) (c : Command) : State := { State.reset with events := [.issue a c] }

/-- The same while the consumer `K` is held. -/
def issuingHeld (a : Agent) (c : Command) : State := { issuing a c with held := some ⟨.K, .pop⟩ }

theorem witness_HardwareResetRestoresResetState :
    ∃ (s : State) (rest : List Event), s.events = .reset :: rest ∧ s.held ≠ none :=
  ⟨{ issuingHeld .P ⟨0#32, [], []⟩ with events := [.reset, .turn] }, [.turn], rfl, by decide⟩

theorem witness_StepPerformsTheIssuedOperation :
    ∃ (s : State) (a : Agent) (c : Command) (rest : List Event) (i : Instr),
      s.events = .issue a c :: rest ∧ (∀ h, s.held = some h → h.agent ≠ a) ∧ s.held ≠ none
        ∧ decode c = .instr i :=
  ⟨issuingHeld .P ⟨0x10000041#32, [], []⟩, .P, _, [], .rbPush 0x41#8, rfl, by rintro h ⟨⟩; decide,
    by decide, by decide⟩

/-- With a must-be-zero bit set, and with an unassigned `op` and operand bytes beside it. -/
theorem witness_IllegalCommandIsAnsweredBadCmd :
    ∀ c ∈ [(⟨0x12000001#32, [], []⟩ : Command), ⟨0x41000000#32, [1#32], [1#8]⟩],
      ∃ (s : State) (a : Agent) (rest : List Event), s.events = .issue a c :: rest
        ∧ (∀ h, s.held = some h → h.agent ≠ a) ∧ ∀ row ∈ opcodeRows, c.word &&& row.2.1 ≠ row.1 := by
  intro c hc
  refine ⟨issuing .H c, .H, [], rfl, by rintro h ⟨⟩, ?_⟩
  revert c
  decide

theorem witness_StepStopsOnBlockedIssuer :
    ∃ (s : State) (a : Agent) (c : Command) (rest : List Event), s.events = .issue a c :: rest
      ∧ ∃ op, s.held = some ⟨a, op⟩ :=
  ⟨issuingHeld .K ⟨0x01000010#32, [], []⟩, .K, _, [], rfl, .pop, rfl⟩

/-- An argument word too few, an operand byte too many, an operand byte too few. -/
theorem witness_StepStopsOnMalformedCommand :
    ∀ c ∈ [(⟨0x13000000#32, [1#32], []⟩ : Command), ⟨0x12000000#32, [], [1#8]⟩, ⟨0x11000002#32, [], [1#8]⟩],
      ∃ row ∈ opcodeRows, c.word &&& row.2.1 = row.1
        ∧ (c.args.length ≠ row.2.2.1
          ∨ c.operand.length ≠ if row.2.2.2 then c.word.toNat % 2 ^ 16 else 0) := by decide

theorem witness_DecodeAndEncodeAgree :
    (Instr.dmxXc (List.replicate 65535 0#8)).WellFormed
      ∧ (∃ (c : Command) (i : Instr), decode c = .instr i) :=
  ⟨Nat.le_of_eq List.length_replicate, ⟨0x10000041#32, [], []⟩, .rbPush 0x41#8, by decide⟩

theorem witness_OperationOutsideItsRoleIsRefused :
    Listed (.rbPush 1#8) .P ∧ ¬ Listed (.rbPush 1#8) .K ∧ Listed (.stgAppend 0#8 []) (.S 7) :=
  ⟨rfl, by simp [Listed], ⟨7, rfl⟩⟩

/-- One place left, and none. -/
theorem witness_PushStoresOrCountsTheItem :
    (ringState .P [1#8, 2#8, 3#8] 0#32 false).rb.q.length < (ringState .P [] 0#32 false).par.ringCap
      ∧ Params.vectors.ringCap ≤ (ringState .P [1#8, 2#8, 3#8, 4#8] 0#32 false).rb.q.length
      ∧ (ringState .H [] 0#32 false).issuer ≠ .P := by decide

theorem witness_PushRangeStoresWhatFits :
    (List.replicate 65535 (0#8 : Byte)).length ≤ 65535 ∧ (ringState .P [] 0#32 false).issuer = .P :=
  ⟨Nat.le_of_eq List.length_replicate, rfl⟩

/-- The three cases of a pop, and the two in which it is a second consumer. -/
theorem witness_PopDrainsTheRingOrIsHeld :
    (∃ s : State, s.issuer = .K ∧ s.fp.state ≠ .run ∧ s.held = none ∧ 0 < s.rb.q.length)
      ∧ (∃ s : State, s.issuer = .K ∧ s.fp.state ≠ .run ∧ s.held = none ∧ s.rb.q = [] ∧ s.rb.quit = true)
      ∧ (∃ s : State, s.issuer = .K ∧ s.fp.state ≠ .run ∧ s.held = none ∧ s.rb.q = [] ∧ s.rb.quit = false)
      ∧ (∃ s : State, s.issuer = .K ∧ s.fp.state = .run)
      ∧ ∃ s : State, s.issuer = .K ∧ s.held ≠ none :=
  ⟨⟨ringState .K [1#8] 0#32 false, by decide⟩, ⟨ringState .K [] 0#32 true, by decide⟩,
    ⟨ringState .K [] 0#32 false, by decide⟩, ⟨parserState .K .run [] [] false, by decide⟩,
    ⟨{ ringState .K [] 0#32 false with held := some ⟨.K, .pop⟩ }, by decide⟩⟩

/-- `min` equal to the number queued, one more with and without quit; `min = 0` on an empty ring. -/
theorem witness_PopRangeTakesUpToMax :
    (∃ s : State, s.issuer = .K ∧ s.fp.state ≠ .run ∧ s.held = none ∧ (2#32).toNat ≤ s.rb.q.length)
      ∧ (∃ s : State, s.issuer = .K ∧ s.fp.state ≠ .run ∧ s.held = none
          ∧ s.rb.q.length < (3#32).toNat ∧ s.rb.quit = true)
      ∧ (∃ s : State, s.issuer = .K ∧ s.fp.state ≠ .run ∧ s.held = none
          ∧ s.rb.q.length < (3#32).toNat ∧ s.rb.quit = false)
      ∧ ∃ s : State, s.issuer = .K ∧ s.rb.q = [] ∧ (0#32).toNat ≤ s.rb.q.length :=
  ⟨⟨ringState .K [1#8, 2#8] 0#32 false, by decide⟩, ⟨ringState .K [1#8, 2#8] 0#32 true, by decide⟩,
    ⟨ringState .K [1#8, 2#8] 0#32 false, by decide⟩, ⟨ringState .K [] 0#32 false, by decide⟩⟩

theorem witness_RingResetClearsAQuiescentRing :
    (∃ s : State, s.issuer = .H ∧ s.held ≠ none) ∧ (∃ s : State, s.issuer = .H ∧ s.fp.state = .run)
      ∧ ∃ s : State, s.issuer = .H ∧ s.held = none ∧ s.fp.state ≠ .run ∧ s.rb.quit = true :=
  ⟨⟨issuingHeld .H ⟨0#32, [], []⟩, by decide⟩, ⟨parserState .H .run [] [] false, by decide⟩,
    ⟨ringState .H [1#8] 1#32 true, by decide⟩⟩

theorem witness_PopIsPopRangeOneToCapacity :
    (∃ (s : State) (c : Word), c.toNat = s.par.ringCap ∧ s.rb.q.length = s.par.ringCap ∧ Released .pop s)
      ∧ ∃ (s : State) (c : Word), c.toNat = s.par.ringCap ∧ s.rb.q.length ≤ s.par.ringCap
          ∧ ¬ Released .pop s ∧ s.held = none ∧ s.fp.state ≠ .run ∧ s.issuer = .K :=
  ⟨⟨ringState .K [1#8, 2#8, 3#8, 4#8] 0#32 false, 4#32, by decide⟩,
    ⟨ringState .K [] 0#32 false, 4#32, by decide⟩⟩

theorem noResets {s : State} (h : s.events.head? ≠ some .reset) : ¬ Resets s := by
  rintro ⟨rest, hr⟩
  simp [hr] at h

/-- Not released and nothing to come; released by a push, and by quit; released and still waiting for its
turn. -/
theorem witness_HeldOperationWaitsForPushOrQuit :
    (∃ (s t : State) (h : Held), s.held = some h ∧ ¬ Resets s ∧ step s = .next t
        ∧ ¬ Released h.op s ∧ s.events = [])
      ∧ (∃ (s t : State) (h : Held), s.held = some h ∧ ¬ Resets s ∧ step s = .next t
        ∧ ¬ Released h.op s ∧ Released h.op t ∧ t.rb.quit = false)
      ∧ (∃ (s t : State) (h : Held), s.held = some h ∧ ¬ Resets s ∧ step s = .next t
        ∧ ¬ Released h.op s ∧ Released h.op t ∧ t.rb.q = [])
      ∧ ∃ (s t : State) (h : Held), s.held = some h ∧ ¬ Resets s ∧ step s = .next t
        ∧ Released h.op s ∧ t.held = some h :=
  ⟨⟨{ ringState .K [] 0#32 false with held := some ⟨.K, .pop⟩ }, _, _, rfl, noResets (by decide), rfl,
      by decide, by decide⟩,
    ⟨issuingHeld .P ⟨0x10000041#32, [], []⟩, _, _, rfl, noResets (by decide), rfl, by decide, by decide,
      by decide⟩,
    ⟨issuingHeld .H ⟨0x14000000#32, [], []⟩, _, _, rfl, noResets (by decide), rfl, by decide, by decide,
      by decide⟩,
    ⟨{ issuingHeld .H ⟨0x14000000#32, [], []⟩ with rb := ⟨[1#8], 0#32, false⟩ }, _, _, rfl,
      noResets (by decide), rfl, by decide, by decide⟩⟩

theorem witness_ReleasedOperationCompletesAsIfIssued :
    (∃ (s : State) (h : Held) (rest : List Event), s.Inv ∧ s.held = some h ∧ Released h.op s
        ∧ s.events = .turn :: rest)
      ∧ ∃ (s : State) (h : Held), s.Inv ∧ s.held = some h ∧ Released h.op s ∧ s.events = [] :=
  ⟨⟨{ ringState .H [1#8, 2#8] 0#32 false with held := some ⟨.K, .popn 2#32 1#32⟩, events := [.turn] }, _, _,
      ⟨by decide, by decide, by decide, by decide, by decide, by decide, by decide⟩, rfl, by decide, rfl⟩,
    ⟨{ parserState .P .idle [] [] true with held := some ⟨.H, .iter⟩ }, _,
      ⟨by decide, by decide, by decide, by decide, by decide, by decide, by decide⟩, rfl, by decide, rfl⟩⟩

theorem witness_NothingStaysHeldAfterQuit :
    (∃ s t : State, s.rb.quit = true ∧ ¬ Resets s ∧ step s = .next t ∧ s.held = none ∧ t ≠ s)
      ∧ (∃ s t : State, s.rb.quit = true ∧ ¬ Resets s ∧ step s = .next t ∧ s.held ≠ none ∧ s.events = [])
      ∧ ∃ (s t : State) (rest : List Event), s.rb.quit = true ∧ ¬ Resets s ∧ step s = .next t
          ∧ s.held ≠ none ∧ s.events = .turn :: rest :=
  ⟨⟨{ ringState .H [] 0#32 true with events := [.issue .K ⟨0x12000000#32, [], []⟩] }, _, by decide,
      noResets (by decide), rfl, by decide, by decide⟩,
    ⟨{ ringState .H [] 0#32 true with held := some ⟨.K, .pop⟩ }, _, by decide, noResets (by decide), rfl,
      by decide, by decide⟩,
    ⟨{ ringState .H [] 0#32 true with held := some ⟨.K, .pop⟩, events := [.turn] }, _, _, by decide,
      noResets (by decide), rfl, by decide, rfl⟩⟩

/-- Six items, `C = 4` (P1). -/
theorem witness_LossAccounting :
    (∃ (s : State) (items : Bytes), s.rb.q = [] ∧ s.rb.lost = 0#32
        ∧ (∀ h, s.held = some h → h.agent ≠ .P)
        ∧ s.events = items.map (fun x => Event.issue .P (encode (.rbPush x)))
        ∧ s.par.ringCap < items.length ∧ items.length - s.par.ringCap < 2 ^ 32)
      ∧ ∃ (s : State) (items : Bytes), s.rb.q = [] ∧ s.rb.lost = 0#32 ∧ s.issuer = .P
          ∧ s.par.ringCap < items.length :=
  ⟨⟨{ State.reset with events := (a12.take 6).map (fun x => Event.issue .P (encode (.rbPush x))) },
      a12.take 6, by decide, by decide, by rintro h ⟨⟩, rfl, by decide, by decide⟩,
    ⟨ringState .P [] 0#32 false, a12, by decide⟩⟩

theorem noIssue {s : State} {i : Instr}
    (h : s.events.head?.all (fun e => match e with
      | .issue _ c => !(decode c == .instr i)
      | .turn => true
      | .reset => true) = true) : ¬ Issues s i := by
  rintro ⟨a, c, rest, he, hd⟩
  simp [he, hd] at h

/-- A push and the pop of what was pushed. -/
theorem witness_RingIsFirstInFirstOut : ∃ s t : State, RingRun s [0x41#8] [0x41#8] t := by
  let s : State := { State.reset with
    events := [.issue .P ⟨0x10000041#32, [], []⟩, .issue .K ⟨0x12000000#32, [], []⟩] }
  let t : State := { s with
    rb := ⟨[0x41#8], 0#32, false⟩, issuer := .P, responses := [⟨.P, .ok, 1#32, []⟩],
    events := [.issue .K ⟨0x12000000#32, [], []⟩] }
  exact ⟨s, _, .step s t _ [0x41#8] []
    (.step s s t [] [] (.start s) rfl (noResets (by decide)) (noIssue (by decide)) (noIssue (by decide))
      (by decide) (by rintro h ⟨⟩))
    rfl (noResets (by decide)) (noIssue (by decide)) (noIssue (by decide)) (by decide) (by rintro h ⟨⟩)⟩

theorem witness_StartMakesTheParserRun :
    (∃ s : State, s.issuer = .H ∧ ∃ h, s.held = some h ∧ h.op ≠ .iter)
      ∧ (∃ s : State, s.issuer = .H ∧ s.held ≠ none ∧ ∀ h, s.held = some h → h.op = .iter)
      ∧ ∃ s : State, s.issuer = .H ∧ s.fp.state = .halted ∧ ∀ h, s.held = some h → h.op = .iter :=
  ⟨⟨issuingHeld .H ⟨0#32, [], []⟩, rfl, _, rfl, by decide⟩,
    ⟨{ State.reset with held := some ⟨.K, .iter⟩ }, rfl, by decide, by rintro h ⟨⟩; rfl⟩,
    ⟨parserState .H .halted [] [] false, rfl, rfl, by rintro h ⟨⟩⟩⟩

/-- Each case of an iteration, for the parser and for the host. -/
theorem witness_IterationPopsAndScans :
    (∃ s : State, s.issuer = .H ∧ s.fp.state = .run)
      ∧ (∃ s : State, s.issuer = .H ∧ s.fp.state ≠ .run ∧ s.held ≠ none)
      ∧ (∃ s : State, s.issuer = .K ∧ s.held ≠ none)
      ∧ (∃ s : State, s.issuer = .K ∧ s.held = none ∧ s.rb.q = [] ∧ s.rb.quit = false)
      ∧ (∃ s : State, s.issuer = .K ∧ s.fp.state = .run ∧ s.held = none ∧ s.rb.q = [] ∧ s.rb.quit = true)
      ∧ (∃ s : State, s.issuer = .H ∧ s.fp.state ≠ .run ∧ s.held = none ∧ 0 < s.rb.q.length)
      ∧ ∃ s : State, s.issuer ≠ .K ∧ s.issuer ≠ .H :=
  ⟨⟨parserState .H .run [] [] false, by decide⟩, ⟨issuingHeld .H ⟨0#32, [], []⟩, by decide⟩,
    ⟨{ ringState .K [] 0#32 false with held := some ⟨.H, .iter⟩ }, by decide⟩,
    ⟨ringState .K [] 0#32 false, by decide⟩, ⟨parserState .K .run [] [] true, by decide⟩,
    ⟨parserState .H .idle [] [1#8] false, by decide⟩, ⟨ringState .P [] 0#32 false, by decide⟩⟩

/-- An iteration held, a pop held, the parser running; none of them; another issuer. -/
theorem witness_ParserResetClearsTheParser :
    (∃ s : State, s.issuer = .H ∧ ∃ a, s.held = some ⟨a, .iter⟩)
      ∧ (∃ s : State, s.issuer = .H ∧ s.fp.state ≠ .run ∧ ∃ h, s.held = some h ∧ h.op ≠ .iter)
      ∧ (∃ s : State, s.issuer = .H ∧ s.held = none ∧ s.fp.state = .run)
      ∧ (∃ s : State, s.issuer = .H ∧ s.held = none ∧ s.fp.state ≠ .run)
      ∧ ∃ s : State, s.issuer ≠ .H :=
  ⟨⟨{ State.reset with held := some ⟨.K, .iter⟩ }, rfl, _, rfl⟩,
    ⟨issuingHeld .H ⟨0#32, [], []⟩, rfl, by decide, _, rfl, by decide⟩,
    ⟨parserState .H .run [] [] false, by decide⟩, ⟨State.reset, by decide⟩,
    ⟨ringState .P [] 0#32 false, by decide⟩⟩

theorem witness_RunningParserRepeatsItsIteration :
    (∃ (s : State) (rest : List Event), s.held = none ∧ s.events = .turn :: rest ∧ s.fp.state = .run)
      ∧ (∃ s : State, s.held = none ∧ s.events = [] ∧ s.fp.state = .run)
      ∧ ∃ s : State, s.held = none ∧ s.events = [] ∧ s.fp.state ≠ .run :=
  ⟨⟨{ parserState .H .run [] [1#8] false with events := [.turn] }, _, rfl, rfl, rfl⟩,
    ⟨parserState .H .run [] [1#8] false, rfl, rfl, rfl⟩, ⟨State.reset, by decide⟩⟩

/-- A message whose trailer is the given bytes, its length field `L`, as in the vectors. -/
def shortest : Bytes := [0x49#8, 0x96#8, 0x02#8, 0xD2#8, 0#8, 0#8, 0#8, 0x0C#8, 0xB6#8, 0x69#8, 0xFD#8, 0x2E#8]

theorem headerAt_zero {b : Bytes} (h : b.take 4 = [0x49#8, 0x96#8, 0x02#8, 0xD2#8]) : HeaderAt b 0 :=
  ⟨by simpa using h, by omega⟩

/-- No header; a header behind two bytes of noise; too short; the smallest length and the largest below
it; one byte missing; both trailers. -/
theorem witness_ScanFollowsTheStatedLoop :
    HeaderNowhere [0x49#8, 0x96#8, 0x02#8]
      ∧ HeaderAt ([0x49#8, 0x96#8] ++ shortest) 2
      ∧ (HeaderAt (shortest.take 7) 0 ∧ (shortest.take 7).length < 8)
      ∧ (HeaderAt (shortest.take 7 ++ [0x0B#8]) 0
          ∧ sbe32 (slice (shortest.take 7 ++ [0x0B#8]) 4 8) < 12)
      ∧ (HeaderAt (shortest.take 7 ++ [0x41#8]) 0
          ∧ (64 : Int) < sbe32 (slice (shortest.take 7 ++ [0x41#8]) 4 8))
      ∧ (HeaderAt (shortest.take 11) 0 ∧ sbe32 (slice (shortest.take 11) 4 8) = 12
          ∧ ((shortest.take 11).length : Int) < 12)
      ∧ (HeaderAt shortest 0 ∧ sbe32 (slice shortest 4 8) = ((12 : Nat) : Int) ∧ 12 ≤ shortest.length
          ∧ slice shortest (12 - 4) 12 = trailer)
      ∧ (HeaderAt (shortest.take 8 ++ [0#8, 0#8, 0#8, 0#8]) 0
          ∧ slice (shortest.take 8 ++ [0#8, 0#8, 0#8, 0#8]) (12 - 4) 12 ≠ trailer) := by
  refine ⟨?_, ⟨by decide, by decide⟩, ⟨headerAt_zero (by decide), by decide⟩,
    ⟨headerAt_zero (by decide), by decide⟩, ⟨headerAt_zero (by decide), by decide⟩,
    ⟨headerAt_zero (by decide), by decide, by decide⟩,
    ⟨headerAt_zero (by decide), by decide, by decide, by decide⟩,
    ⟨headerAt_zero (by decide), by decide⟩⟩
  intro i h
  have := congrArg List.length h
  simp at this
  omega

/-- One completed iteration for each form of rule R31. -/
theorem witness_ParseBufferIsCanonicalAfterAnIteration :
    (∃ s t : State, s.Inv ∧ exec .fpIter s = .next t ∧ t.fp.pb ≠ s.fp.pb ∧ BufferFormA t.fp.pb)
      ∧ (∃ s t : State, s.Inv ∧ exec .fpIter s = .next t ∧ t.fp.pb ≠ s.fp.pb ∧ BufferFormB t.fp.pb)
      ∧ ∃ s t : State, s.Inv ∧ exec .fpIter s = .next t ∧ t.fp.pb ≠ s.fp.pb ∧ BufferFormC 64 t.fp.pb :=
  ⟨⟨parserState .H .idle [] [0x01#8, 0x02#8] false, _,
      ⟨by decide, by decide, by decide, by decide, by decide, by decide, by decide⟩, rfl, by decide, by decide⟩,
    ⟨parserState .H .idle [] (shortest.take 4) false, _,
      ⟨by decide, by decide, by decide, by decide, by decide, by decide, by decide⟩, rfl, by decide, by decide⟩,
    ⟨parserState .H .idle (shortest.take 8) [0x00#8] false, _,
      ⟨by decide, by decide, by decide, by decide, by decide, by decide, by decide⟩, rfl, by decide, by decide⟩⟩

/-- Two messages, the second with the header bytes in its payload and the largest length, cut anywhere. -/
theorem witness_FramingRoundTrip :
    ∃ (maxLen : Nat) (msgs chunks : List Bytes), maxLen ≤ 2 ^ 31 - 1
      ∧ (∀ m ∈ msgs, ValidMessage maxLen m) ∧ chunks.flatten = msgs.flatten ∧ chunks ≠ msgs := by
  refine ⟨16, [message [] trailer, message [0x49#8, 0x96#8, 0x02#8, 0xD2#8] trailer],
    [(message [] trailer).take 5, (message [] trailer).drop 5,
      message [0x49#8, 0x96#8, 0x02#8, 0xD2#8] trailer], by decide, ?_, by decide, by decide⟩
  intro m hm
  simp only [List.mem_cons, List.not_mem_nil, or_false] at hm
  rcases hm with rfl | rfl
  · exact ⟨[], rfl, by decide⟩
  · exact ⟨[0x49#8, 0x96#8, 0x02#8, 0xD2#8], rfl, by decide⟩

/-- Vector T-FP-5. -/
theorem witness_ResyncAfterOneCorruptedTrailer :
    ∃ (maxLen : Nat) (before after chunks : List Bytes) (payload bad : Bytes), maxLen ≤ 2 ^ 31 - 1
      ∧ (∀ m ∈ before, ValidMessage maxLen m) ∧ (∀ m ∈ after, ValidMessage maxLen m)
      ∧ 12 + payload.length ≤ maxLen ∧ bad.length = 4 ∧ bad ≠ trailer
      ∧ (∀ j, 4 ≤ j → j < 12 + payload.length →
        ((message payload bad ++ after.flatten).drop j).take 4 ≠ [0x49#8, 0x96#8, 0x02#8, 0xD2#8])
      ∧ chunks.flatten = before.flatten ++ message payload bad ++ after.flatten := by
  refine ⟨64, [message [1#8] trailer], [message [3#8] trailer],
    [message [1#8] trailer ++ message [0x11#8, 0x22#8] [0xB6#8, 0x69#8, 0xFD#8, 0x2F#8]
      ++ message [3#8] trailer], [0x11#8, 0x22#8], [0xB6#8, 0x69#8, 0xFD#8, 0x2F#8], by decide,
    ?_, ?_, by decide, by decide, by decide, ?_, by decide⟩
  · intro m hm
    rw [List.mem_singleton] at hm
    exact ⟨[1#8], hm, by decide⟩
  · intro m hm
    rw [List.mem_singleton] at hm
    exact ⟨[3#8], hm, by decide⟩
  · intro j h1 h2
    have h3 : j < 14 := h2
    interval_cases j <;> decide

/-! ### The layout engine -/

/-- An engine whose configuration is not committed. -/
def uncommitted (c : LayoutConfig) : State :=
  { State.reset with cle := ⟨c, false, false, [[], [], [], []], 0#32⟩ }

/-- Each check failing first, the boundary of check 2 on both sides, and all passing. -/
theorem witness_CommitValidatesAndLocks :
    (¬ Check Params.vectors (config 0#9 true 2#16 20#16 0#32) 1)
      ∧ (¬ Check Params.vectors (config 5#9 true 2#16 20#16 0#32) 1)
      ∧ (Check Params.vectors (config 2#9 true 2#16 12#16 0#32) 1
          ∧ ¬ Check Params.vectors (config 2#9 true 2#16 12#16 0#32) 2)
      ∧ (Check Params.vectors (config 2#9 true 2#16 13#16 0#32) 2
          ∧ ¬ Check Params.vectors { config 2#9 true 2#16 13#16 0#32 with sfidMin := 32#32 } 3)
      ∧ (Check Params.vectors { config 2#9 true 2#16 13#16 0#32 with sfidMax := 65536#32 } 3
          ∧ ¬ Check Params.vectors { config 2#9 true 2#16 13#16 0#32 with sfidMax := 65536#32 } 4)
      ∧ (∀ i, 1 ≤ i → i ≤ 4 → Check (uncommitted (config 4#9 true 2#16 17#16 0#32)).par
          (config 4#9 true 2#16 17#16 0#32) i)
      ∧ (uncommitted (config 4#9 true 2#16 17#16 0#32)).cle.locked = false
      ∧ (engine .H (config 2#9 true 2#16 20#16 0#32) 0#32 []).cle.locked = true := by
  simp only [Check]
  refine ⟨by decide, by decide, by decide, by decide, by decide, ?_, by decide, by decide⟩
  intro i h1 h2
  interval_cases i <;> simp [config, uncommitted, State.reset, State.resetWith, Params.vectors]

/-- Two channels with all the bytes any policy's next frame needs; SFID 0 is a reserved row if `rso = 1`. -/
def supplied (be : Bool) (rso : Word) (a : Agent) (sfid : Word) : State :=
  engine a (config 2#9 be 2#16 20#16 rso) sfid [a12, a12, [], []]

/-- The row's own channel, and the second channel of the column policies, one byte short. -/
def starved (be : Bool) (rso : Word) (a : Agent) (sfid : Word) : State :=
  engine a (config 2#9 be 2#16 20#16 rso) sfid [a12.take 11, b6.take 5, [], []]

theorem supplied_inv (be : Bool) (a : Agent) : (supplied be 1#32 a 1#32).Inv := by
  have h : (supplied be 1#32 .H 1#32).Inv := by
    cases be <;> exact ⟨by decide, by decide, by decide, by decide, by decide, by decide, by decide⟩
  exact h

theorem starved_inv (be : Bool) (a : Agent) : (starved be 1#32 a 1#32).Inv := by
  have h : (starved be 1#32 .H 1#32).Inv := by
    cases be <;> exact ⟨by decide, by decide, by decide, by decide, by decide, by decide, by decide⟩
  exact h

theorem ready (p : Policy) (be : Bool) (a : Agent) (n : Word) (stg : List Bytes) :
    p.Ready (engine a (config 2#9 be 2#16 20#16 1#32) n stg) := by
  have h : Check5 (config 2#9 be 2#16 20#16 1#32) := by cases be <;> exact ⟨by decide, by decide⟩
  exact ⟨rfl, fun _ => h⟩

/-- The channel boundary: `ch = N - 1` and `ch = N`; a chunk that just fits and one that does not. -/
theorem witness_AppendStagesTheWholeChunk :
    (∃ s : State, s.Inv ∧ s.issuer = .S 0 ∧ s.cle.valid = false)
      ∧ (∃ s : State, s.Inv ∧ s.issuer = .S 0 ∧ s.cle.valid = true
          ∧ s.cle.cfg.channelCount.toNat ≤ (2#8).toNat ∧ (1#8).toNat < s.cle.cfg.channelCount.toNat
          ∧ ∀ cap, s.par.stgCap = some cap → (channel s.cle.stg 1).length + 1 ≤ cap)
      ∧ ∃ s : State, s.Inv ∧ s.issuer = .S 0 ∧ s.cle.valid = true
          ∧ (∃ cap, s.par.stgCap = some cap ∧ (channel s.cle.stg 0).length + 0 ≤ cap
            ∧ cap < (channel s.cle.stg 0).length + 1) :=
  ⟨⟨{ State.reset with issuer := .S 0 },
      ⟨by decide, by decide, by decide, by decide, by decide, by decide, by decide⟩, rfl, rfl⟩,
    ⟨supplied true 1#32 (.S 0) 1#32, supplied_inv true (.S 0), rfl, rfl, by decide, by decide,
      by rintro cap ⟨⟩⟩,
    ⟨{ supplied true 1#32 (.S 0) 1#32 with par := { Params.vectors with stgCap := some 12 } },
      ⟨by decide, by decide, by decide, by decide, by decide, by decide, by decide⟩, rfl, rfl, 12, rfl,
      by decide, by decide⟩⟩

theorem witness_LayoutOperationsRefuseWithoutConfiguration :
    ((uncommitted (config 2#9 true 2#16 20#16 0#32)).cle.valid = false)
      ∧ rowFrame.tail.length ≠ (supplied true 1#32 .Y 1#32).cle.cfg.frameLen.toNat
      ∧ (rowFrame.length = (config 4#9 true 2#16 20#16 30#32).frameLen.toNat
          ∧ ¬ Check5 (config 4#9 true 2#16 20#16 30#32))
      ∧ (engine .X (config 4#9 true 2#16 20#16 30#32) 0#32 []).cle.valid = true :=
  ⟨rfl, by decide, ⟨by decide, by rintro ⟨_, h⟩; exact absurd h (by decide)⟩, rfl⟩

theorem witness_DemuxColumnCrossRoutesWords_and_ColumnContinuous :
    ∃ (f : Bytes) (s : State), s.Inv ∧ s.issuer = .Y ∧ s.cle.valid = true
      ∧ f.length = s.cle.cfg.frameLen.toNat :=
  ⟨rowFrame, supplied false 1#32 .Y 1#32, supplied_inv false .Y, rfl, rfl, by decide⟩

/-- A row of a channel and a reserved row, in both row policies. -/
theorem witness_DemuxRowRoutesTheWholePayload :
    ∀ p ∈ [Policy.row, Policy.rc], ∀ f ∈ [rowFrame, sync ++ [0#8, 0#8, 0#8, 0#8] ++ a12],
      ∃ (s : State) (ch : Option Nat), s.Inv ∧ s.issuer = .Y ∧ p.Ready s
        ∧ f.length = s.cle.cfg.frameLen.toNat
        ∧ ((p = .row ∧ ch = rowChannel s.cle.cfg (decBe ((f.drop 4).take 2)))
          ∨ (p = .rc ∧ ch = runChannel s.cle.cfg (decBe ((f.drop 4).take 2))))
        ∧ (f = rowFrame → ch = some 0) ∧ (f ≠ rowFrame → ch = none) := by
  intro p hp f hf
  simp only [List.mem_cons, List.not_mem_nil, or_false] at hp hf
  refine ⟨supplied false 1#32 .Y 1#32,
    if f = rowFrame then some 0 else none, supplied_inv false .Y, rfl, ready p false .Y _ _, ?_⟩
  rcases hp with rfl | rfl <;> rcases hf with rfl | rfl <;> decide

/-- Column policies one byte short; the row policies short in their own channel; a reserved row. -/
theorem witness_MuxBuildsAnIdleFrameWhenShort :
    (∀ p : Policy, ∃ s : State, s.Inv ∧ s.issuer = .X ∧ p.Ready s ∧ ¬ p.Unassigned s ∧ ¬ p.Supplied s)
      ∧ ∃ s : State, s.Inv ∧ s.issuer = .X ∧ Policy.row.Ready s ∧ Policy.row.Unassigned s
          ∧ ¬ Policy.row.Supplied s := by
  refine ⟨fun p => ⟨starved true 1#32 .X 1#32, starved_inv true .X, rfl, ready p true .X _ _,
      ?_, ?_⟩, ⟨supplied true 1#32 .X 0#32, ?_, rfl, ready _ true .X _ _,
      ⟨.inl rfl, by decide⟩, fun h => h.1 ⟨.inl rfl, by decide⟩⟩⟩
  · rintro ⟨hp, hn⟩
    revert hn
    rcases hp with rfl | rfl <;> decide
  · rintro ⟨_, h⟩
    revert h
    cases p <;> decide
  · exact ⟨by decide, by decide, by decide, by decide, by decide, by decide, by decide⟩

/-- Every policy, with every channel supplied. -/
theorem witness_MuxBuildsADataFrameWhenSupplied :
    ∀ p : Policy, ∃ s t : State, s.Inv ∧ s.issuer = .X ∧ p.Ready s ∧ p.Supplied s ∧ exec p.mux s = .next t := by
  intro p
  have hs : p.Supplied (supplied false 1#32 .X 1#32) := by
    refine ⟨?_, ?_⟩
    · rintro ⟨hp, hn⟩
      revert hn
      rcases hp with rfl | rfl <;> decide
    · cases p <;> decide
  have hr := ready p false .X 1#32 [a12, a12, [], []]
  cases p
  · exact ⟨supplied false 1#32 .X 1#32, _, supplied_inv false .X, rfl, hr, hs, rfl⟩
  · exact ⟨supplied false 1#32 .X 1#32, _, supplied_inv false .X, rfl, hr, hs, rfl⟩
  · exact ⟨supplied false 1#32 .X 1#32, _, supplied_inv false .X, rfl, hr, hs, rfl⟩
  · exact ⟨supplied false 1#32 .X 1#32, _, supplied_inv false .X, rfl, hr, hs, rfl⟩

/-- `row` of `MuxLaysBlocksAndRows` has a channel there. -/
theorem witness_MuxLaysBlocksAndRows :
    Policy.row.rowOf (supplied false 1#32 .X 1#32) = some 0
      ∧ Policy.rc.rowOf (supplied false 1#32 .X 1#32) = some 0 := by decide

/-- A cycle of one SFID and one of the whole range. -/
theorem witness_SfidCyclesThroughItsRange :
    ({ config 2#9 true 2#16 20#16 0#32 with sfidMin := 5#32, sfidMax := 5#32 } : LayoutConfig).sfidMin.toNat
        ≤ (5#32).toNat
      ∧ (config 2#9 true 2#16 20#16 0#32).sfidMin.toNat ≤ (config 2#9 true 2#16 20#16 0#32).sfidMax.toNat := by
  decide

/-- An idle frame of this configuration. -/
theorem witness_DemuxOfAnIdleFrameGivesFiller :
    ∀ p : Policy, ∃ (f : Bytes) (s t : State), s.Inv ∧ s.issuer = .Y ∧ p.Ready s
      ∧ f.length = s.cle.cfg.frameLen.toNat
      ∧ (∀ j < s.cle.cfg.fl - s.cle.cfg.p0, f.getD (s.cle.cfg.p0 + j) 0#8 = fillerByte j)
      ∧ exec (p.dmx f) s = .next t := by
  intro p
  have hr := ready p false .Y 1#32 [a12, a12, [], []]
  cases p <;> exact ⟨sync ++ [0#8, 1#8, 0#8, 0#8, 0xFA#8, 0xDE#8, 0xFA#8, 0xDE#8, 0xFA#8, 0xDE#8, 0xFA#8,
    0xDE#8, 0xFA#8, 0xDE#8, 0xFA#8, 0xDE#8], supplied false 1#32 .Y 1#32, _, supplied_inv false .Y, rfl, hr,
    by decide, by decide, rfl⟩

/-! ### The detector, the registers and the laws of all operations -/

theorem witness_IdleCheckForwardsRealPayloads :
    (([] : Bytes).length < 8) ∧ (a12.take 7).length < 8 ∧ 8 ≤ (a12.take 8).length
      ∧ a12.take 8 ∉ sentinels Params.vectors ∧ Params.vectors.Ok ∧ Params.vectors.SentinelsOfTable
      ∧ (supplied true 1#32 .I 1#32).issuer = .I := by decide

/-- The first and the last register of the map, and the addresses beside them. -/
theorem witness_RegisterReadsFollowTheMap :
    State.reset.par.Ok ∧ (0x0010#16, 0#32) ∈ csrMap State.reset ∧ (0x0103#16, 0#32) ∈ csrMap State.reset
      ∧ 0x000F#16 ∉ (csrMap State.reset).map Prod.fst ∧ 0x0104#16 ∉ (csrMap State.reset).map Prod.fst := by
  decide

theorem witness_RegisterWritesChangeOneField :
    (∃ s : State, s.issuer = .H ∧ s.cle.locked = false
        ∧ (0x0030#16, { s.cle.cfg with channelCount := 256#9 }) ∈ csrFields s.cle.cfg 0x300#32
        ∧ (0x0038#16, 0xFFFFFFFF#32) ∈ csrMasks)
      ∧ (∃ s : State, s.issuer = .H ∧ s.cle.locked = true
        ∧ 0x0038#16 ∈ (csrFields s.cle.cfg 0#32).map Prod.fst)
      ∧ ∃ s : State, s.issuer = .H ∧ 0x0039#16 ∉ (csrFields s.cle.cfg 0#32).map Prod.fst
        ∧ 0x002F#16 ∉ (csrFields s.cle.cfg 0#32).map Prod.fst :=
  ⟨⟨State.reset, by decide⟩, ⟨supplied true 1#32 .H 1#32, by decide⟩, ⟨State.reset, by decide⟩⟩

/-- A refusal with each of the three shapes rule R242 tells apart. -/
theorem witness_ErrorsLeaveTheStateAlone :
    (∃ (s t : State) (r : Response), exec (.rbPush 5#8) s = .next t ∧ t.responses = s.responses ++ [r]
        ∧ r.status = .full)
      ∧ (∃ (s t : State) (r : Response), exec .fpIter s = .next t ∧ t.responses = s.responses ++ [r]
        ∧ r.status = .closed)
      ∧ ∃ (s t : State) (r : Response), exec .rbReset s = .next t ∧ t.responses = s.responses ++ [r]
        ∧ r.status = .busy :=
  ⟨⟨ringState .P [1#8, 2#8, 3#8, 4#8] 0#32 false, _, _, rfl, rfl, by decide⟩,
    ⟨ringState .H [] 0#32 true, _, _, rfl, rfl, by decide⟩,
    ⟨issuingHeld .H ⟨0#32, [], []⟩, _, _, rfl, rfl, by decide⟩⟩

theorem witness_OperationsKeepToTheirUnit_and_EveryBuiltFrame :
    (∃ s t : State, s.Inv ∧ exec .muxRow s = .next t ∧ t.out.frmOut ≠ s.out.frmOut)
      ∧ ∃ s t : State, exec .rbPop s = .next t ∧ t.held ≠ none :=
  ⟨⟨supplied false 1#32 .X 1#32, _, supplied_inv false .X, rfl, by decide⟩,
    ⟨ringState .K [] 0#32 false, _, rfl, by decide⟩⟩

/-- A step that appends to a stream. -/
theorem witness_StreamsOnlyGrow :
    ∃ s t : State, ¬ Resets s ∧ step s = .next t ∧ t.out.frmOut ≠ s.out.frmOut :=
  ⟨{ supplied false 1#32 .H 1#32 with events := [.issue .X ⟨0x3E000000#32, [], []⟩] }, _,
    noResets (by decide), rfl, by decide⟩

/-- Every move of the three state machines happens. -/
theorem witness_StateMachinesMoveAsTabulated :
    (∃ s t : State, ¬ Resets s ∧ step s = .next t ∧ s.fp.state = .idle ∧ t.fp.state = .run)
      ∧ (∃ s t : State, ¬ Resets s ∧ step s = .next t ∧ s.fp.state = .run ∧ t.fp.state = .halted)
      ∧ (∃ s t : State, ¬ Resets s ∧ step s = .next t ∧ s.fp.state = .halted ∧ t.fp.state = .idle)
      ∧ (∃ s t : State, ¬ Resets s ∧ step s = .next t ∧ s.cle.valid = false ∧ t.cle.valid = true)
      ∧ (∃ s t : State, ¬ Resets s ∧ step s = .next t ∧ s.cle.locked = true ∧ t.cle.valid = false)
      ∧ (∃ s t : State, ¬ Resets s ∧ step s = .next t ∧ s.rb.quit = false ∧ t.rb.quit = true)
      ∧ ∃ s t : State, ¬ Resets s ∧ step s = .next t ∧ s.rb.quit = true ∧ t.rb.quit = false :=
  ⟨⟨issuing .H ⟨0x20000000#32, [], []⟩, _, noResets (by decide), rfl, by decide, by decide⟩,
    ⟨parserState .H .run [] [] true, _, noResets (by decide), rfl, by decide, by decide⟩,
    ⟨{ parserState .H .halted [] [] true with events := [.issue .H ⟨0x22000000#32, [], []⟩] }, _,
      noResets (by decide), rfl, by decide, by decide⟩,
    ⟨{ uncommitted (config 2#9 true 2#16 20#16 0#32) with events := [.issue .H ⟨0x30000000#32, [], []⟩] }, _,
      noResets (by decide), rfl, by decide, by decide⟩,
    ⟨{ supplied true 1#32 .H 1#32 with events := [.issue .H ⟨0x31000000#32, [], []⟩] }, _,
      noResets (by decide), rfl, by decide, by decide⟩,
    ⟨issuing (.S 0) ⟨0x14000000#32, [], []⟩, _, noResets (by decide), rfl, by decide, by decide⟩,
    ⟨{ ringState .H [1#8] 1#32 true with events := [.issue .H ⟨0x15000000#32, [], []⟩] }, _,
      noResets (by decide), rfl, by decide, by decide⟩⟩

theorem witness_ThreeResetsRecoverTheResetState :
    ∃ s : State, s.Inv ∧ s.issuer = .H ∧ s.held = none ∧ s.fp.state ≠ .run ∧ s.cle.valid = true :=
  ⟨supplied true 1#32 .H 1#32, supplied_inv true .H, rfl, rfl, by decide, rfl⟩

/-- A step from a state with a held operation and a running parser to be kept. -/
theorem witness_EveryStepKeepsTheInvariant :
    ∃ s t : State, s.Inv ∧ s.held ≠ none ∧ s.fp.state = .run ∧ step s = .next t ∧ t ≠ s :=
  ⟨{ parserState .H .run (shortest.take 7) [1#8] false with held := some ⟨.K, .iter⟩ }, _,
    ⟨by decide, by decide, by decide, by decide, by decide, by decide, by decide⟩, by decide, rfl, rfl,
    by decide⟩

theorem witness_PayloadSwapIsItsOwnInverse : 2 * 0 + 1 < [1#8, 2#8, 3#8].length ∧ [1#8, 2#8, 3#8].length % 2 = 1 := by
  decide

theorem witness_IntegerEncodingsAreBigEndian : 65535 < 256 ^ 2 ∧ 0 < 256 ^ 0 := by decide

end Sys2Proof.Tests
end

section
/-! Reset (rules R52, R270): what each unit of the state is right after it. -/

namespace Sys2Proof.Machine

section resetWith
variable (p : Params)

@[simp] theorem State.resetWith_par : (State.resetWith p).par = p := rfl

@[simp] theorem State.resetWith_rb : (State.resetWith p).rb = ⟨[], 0#32, false⟩ := rfl

@[simp] theorem State.resetWith_fp : (State.resetWith p).fp = ⟨[], .idle, 0#32, none⟩ := rfl

@[simp] theorem State.resetWith_cle :
    (State.resetWith p).cle = ⟨LayoutConfig.reset, false, false, List.replicate p.nchMax [], 0#32⟩ := rfl

@[simp] theorem State.resetWith_held : (State.resetWith p).held = none := rfl

@[simp] theorem State.resetWith_out :
    (State.resetWith p).out = ⟨[], [], [], List.replicate p.nchMax [], []⟩ := rfl

end resetWith

/-- Settles O1, unit by unit; the channels beyond `NCH_MAX` read empty too (`channel_replicate`). -/
theorem resetLeavesTheStatedValues : Obligations.ResetLeavesTheStatedValues := by
  unfold Obligations.ResetLeavesTheStatedValues
  constructor
  · rw [State.reset, State.resetWith_par]
  · intro p
    simp [LayoutConfig.reset]

end Sys2Proof.Machine
end

section
/-! The opcode table (rules R103, R105) against the decoder: a row of the table is an operation's code with
the must-be-zero bits of its format, and a word that no row matches is illegal (rule R106). -/

namespace Sys2Proof

open Sys2Proof.Machine Sys2Proof.Spec

/-- The bits of the `ch` field that the operation requires to be zero (rule R103). -/
def Op.chZeros (o : Op) : BitVec 8 := if o = .stgAppend then 0x00#8 else 0xFF#8

/-- The bits of the `n` field that the operation's format requires to be zero (rule R103). -/
def Op.nZeros (o : Op) : BitVec 16 :=
  match o.format with
  | .Z => 0xFFFF#16
  | .I => 0xFF00#16
  | .D => 0x0000#16
  | .M => 0xFFFF#16
  | .R => 0x0000#16

/-- The operation's row of the opcode table, from the decoder's own tables. -/
def Op.row (o : Op) : Word × Word × Nat × Bool :=
  (commandWord o.code 0#8 0#16, commandWord 0xFF#8 o.chZeros o.nZeros, o.argWords, o.format == .D)

/-- The opcode table is the rows of the operations, in the order of rule R105. -/
theorem opcodeRows_eq_map_row : opcodeRows = Op.all.map Op.row := by decide

theorem forall_mem_opcodeRows {P : Word × Word × Nat × Bool → Prop} :
    (∀ row ∈ opcodeRows, P row) ↔ ∀ o : Op, P o.row := by
  simp [opcodeRows_eq_map_row]

/-- Masking the low byte away leaves zero exactly if the high byte is zero. -/
theorem and_highByte_eq_zero_iff (n : BitVec 16) :
    n &&& 0xFF00#16 = 0#16 ↔ n.extractLsb' 8 8 = 0#8 := by
  have masked : n &&& 0xFF00#16 = n.extractLsb' 8 8 ++ 0#8 := by
    have halves : n.extractLsb' 8 8 ++ n.extractLsb' 0 8 = n := BitVec.extractLsb'_append_extractLsb'
    have mask : 0xFF00#16 = 0xFF#8 ++ 0x00#8 := rfl
    conv_lhs => rw [← halves, mask, BitVec.and_append]
    exact congrArg₂ (· ++ ·) BitVec.and_allOnes BitVec.and_zero
  have zero : 0#16 = 0#8 ++ 0#8 := rfl
  rw [masked, zero, BitVec.append_left_inj]

/-- The zero check of a format is the mask of its must-be-zero bits, field by field. -/
theorem Op.zerosOk_iff (o : Op) (w : Word) :
    o.zerosOk w = true ↔ chField w &&& o.chZeros = 0#8 ∧ nField w &&& o.nZeros = 0#16 := by
  have ones8 (x : BitVec 8) : x &&& 0xFF#8 = x := BitVec.and_allOnes
  have ones16 (x : BitVec 16) : x &&& 0xFFFF#16 = x := BitVec.and_allOnes
  cases o <;>
    simp [Op.zerosOk, Op.format, Op.chZeros, Op.nZeros, ones8, ones16, nHighField_eq,
      and_highByte_eq_zero_iff]

/-- A word matches an operation's row exactly if it has the operation's code and its must-be-zero bits are
zero. -/
theorem Op.row_matches_iff (o : Op) (w : Word) :
    w &&& o.row.2.1 = o.row.1 ↔ opField w = o.code ∧ o.zerosOk w = true := by
  have ones : opField w &&& 0xFF#8 = opField w := BitVec.and_allOnes
  rw [Op.row, masked_eq_iff, ones, Op.zerosOk_iff]

/-- The decoder answers "illegal" for the words that no row of the opcode table matches, whatever comes with
the word. -/
theorem decode_illegal_of_no_row {c : Command} (h : ∀ row ∈ opcodeRows, c.word &&& row.2.1 ≠ row.1) :
    ∃ why, decode c = .illegal why := by
  rw [forall_mem_opcodeRows] at h
  unfold decode
  cases ho : Op.ofCode (opField c.word) with
  | none => exact ⟨.unassignedOp, rfl⟩
  | some o =>
    have hz : ¬ o.zerosOk c.word = true := fun hz =>
      h o ((o.row_matches_iff c.word).2 ⟨(Op.code_of_ofCode ho).symm, hz⟩)
    exact ⟨.mustBeZero, if_neg hz⟩

namespace Machine

theorem step_of_issue {s : State} {a : Agent} {c : Command} {rest : List Event}
    (h : s.events = .issue a c :: rest) : step s = issue a c (s.withEvents rest) := by
  simp [step, h]

/-- An agent is not blocked exactly if no operation of its own is held. -/
theorem blocked_false_iff (s : State) (a : Agent) :
    s.blocked a = false ↔ ∀ h, s.held = some h → h.agent ≠ a := by
  rw [← Bool.not_eq_true, blocked_iff]
  push Not
  rfl

/-- Rule R106: issuing an illegal command only answers `BAD_CMD`. -/
theorem issue_of_illegal {s : State} {a : Agent} {c : Command} {why : Illegal}
    (hb : s.blocked a = false) (hc : decode c = .illegal why) :
    issue a c s = .next ((s.withIssuer a).respond .badCmd 0#32 []) := by
  simp [issue, hb, hc]

end Machine

/-- Settles O5: no row matches, so the decoder calls the command illegal, and issuing it only answers. -/
theorem illegalCommandIsAnsweredBadCmd : Obligations.IllegalCommandIsAnsweredBadCmd := by
  unfold Obligations.IllegalCommandIsAnsweredBadCmd
  intro s a c rest hev hfree hrows
  obtain ⟨why, hc⟩ := decode_illegal_of_no_row hrows
  have hb : (s.withEvents rest).blocked a = false := (blocked_false_iff _ a).2 hfree
  rw [step_of_issue hev, issue_of_illegal hb hc]
  rfl

end Sys2Proof
end

section
/-! The ring buffer operations that are never held: `RB.PUSH`, `RB.PUSHR`, `RB.QUIT`, `RB.RESET` (rules R121,
R122, R125, R126). -/

namespace Sys2Proof

open Sys2Proof.Machine Sys2Proof.Spec

/-- The `n` field is the low part of the command word (rule R102). -/
theorem commandWord_eq_add (op ch : BitVec 8) (n : BitVec 16) :
    commandWord op ch n = commandWord op ch 0#16 + BitVec.ofNat 32 n.toNat := by
  have hop := op.isLt
  have hch := ch.isLt
  have hn := n.isLt
  apply BitVec.eq_of_toNat_eq
  simp only [BitVec.toNat_add, commandWord_toNat, BitVec.toNat_ofNat]
  omega

/-- The word of `RB.PUSH` (format `I`, rules R103, R105). -/
theorem encode_rbPush (x : Byte) :
    encode (.rbPush x) = ⟨0x10000000#32 + BitVec.ofNat 32 x.toNat, [], []⟩ := by
  have hword := commandWord_eq_add Op.rbPush.code 0#8 (x.setWidth 16)
  rw [BitVec.toNat_setWidth_of_le (by decide)] at hword
  exact congrArg (Command.mk · [] []) hword

/-- The word of `RB.PUSHR` (format `D`, rules R103, R105): `n` counts the operand bytes. -/
theorem encode_rbPushr {items : Bytes} (h : items.length ≤ 65535) :
    encode (.rbPushr items) = ⟨0x11000000#32 + BitVec.ofNat 32 items.length, [], items⟩ := by
  have hword := commandWord_eq_add Op.rbPushr.code 0#8 (BitVec.ofNat 16 items.length)
  rw [BitVec.toNat_ofNat, Nat.mod_eq_of_lt (Nat.lt_succ_of_le h)] at hword
  exact congrArg (Command.mk · [] items) hword

/-- The saturating increment counts up by one (rule R12). -/
theorem satInc_eq_countUp (w : Word) : satInc w = countUp w 1 := by
  apply BitVec.eq_of_toNat_eq
  rw [satInc_toNat, countUp, BitVec.toNat_ofNat, Nat.mod_eq_of_lt (by omega)]

namespace Machine

variable {s : State}

/-- An operation of one agent, issued by another, is refused. -/
theorem byRole_of_ne {o : Op} {r : Result} {a : Agent} (ho : mayIssue o = (· == a)) (h : s.issuer ≠ a) :
    byRole o s r = .refused .outsideRole :=
  byRole_of_not (by simpa [ho] using h)

/-- An operation of one agent, issued by it, is performed. -/
theorem byRole_of_eq {o : Op} {r : Result} {a : Agent} (ho : mayIssue o = (· == a)) (h : s.issuer = a) :
    byRole o s r = r :=
  byRole_of_mayIssue (by simp [ho, h])

theorem exec_rbPush_of_room {x : Byte} (ha : s.issuer = .P) (h : s.rb.q.length < s.par.ringCap) :
    exec (.rbPush x) s = .next ((s.withRing { s.rb with q := s.rb.q ++ [x] }).respond .ok 1#32 []) :=
  (byRole_of_eq rfl ha).trans (if_pos h)

theorem exec_rbPush_of_full {x : Byte} (ha : s.issuer = .P) (h : s.par.ringCap ≤ s.rb.q.length) :
    exec (.rbPush x) s
      = .next ((s.withRing { s.rb with lost := satInc s.rb.lost }).respond .full 0#32 []) :=
  (byRole_of_eq rfl ha).trans (if_neg (Nat.not_lt.2 h))

/-- Rule R122: as many items as there are places, never counted lost. -/
theorem exec_rbPushr {items : Bytes} (ha : s.issuer = .P) :
    exec (.rbPushr items) s
      = .next ((s.withRing { s.rb with
            q := s.rb.q ++ items.take (min items.length (s.par.ringCap - s.rb.q.length)) }).respond .ok
          (BitVec.ofNat 32 (min items.length (s.par.ringCap - s.rb.q.length))) []) :=
  byRole_of_eq rfl ha

/-- Rule R125: every agent may issue `RB.QUIT`. -/
theorem exec_rbQuit (s : State) :
    exec .rbQuit s = .next ((s.withRing { s.rb with quit := true }).respond .ok 0#32 []) :=
  byRole_of_mayIssue (o := .rbQuit) (s := s) rfl

theorem exec_rbReset_of_busy (ha : s.issuer = .H) (h : s.held ≠ none ∨ s.fp.state = .run) :
    exec .rbReset s = .next (s.respond .busy 0#32 []) :=
  (byRole_of_eq rfl ha).trans (if_pos ((consumerBusy_iff s).2 h))

theorem exec_rbReset_of_quiescent (ha : s.issuer = .H) (hh : s.held = none) (hf : s.fp.state ≠ .run) :
    exec .rbReset s = .next ((s.withRing ⟨[], 0#32, false⟩).respond .ok 0#32 []) := by
  have idle : s.consumerBusy = false := (consumerBusy_false_iff s).2 ⟨hh, hf⟩
  exact (byRole_of_eq rfl ha).trans (if_neg (by simp [idle]))

end Machine

/-- Settles O12: with a place left the item is stored, and with none it is counted lost. -/
theorem pushStoresOrCountsTheItem : Obligations.PushStoresOrCountsTheItem := by
  unfold Obligations.PushStoresOrCountsTheItem
  intro x s
  refine ⟨encode_rbPush x, byRole_of_ne rfl, exec_rbPush_of_room, fun ha h => ?_⟩
  rw [exec_rbPush_of_full ha h, satInc_eq_countUp]
  rfl

/-- Settles O13: `P` stores what fits; the loss counter has no part in it. -/
theorem pushRangeStoresWhatFits : Obligations.PushRangeStoresWhatFits := by
  unfold Obligations.PushRangeStoresWhatFits
  intro items s
  refine ⟨encode_rbPushr, byRole_of_ne rfl, ?_⟩
  rintro ha k rfl
  exact exec_rbPushr ha

/-- Settles O16, from the rule of the operation, which asks nothing of the issuer. -/
theorem quitSetsTheQuitSignal : Obligations.QuitSetsTheQuitSignal := by
  unfold Obligations.QuitSetsTheQuitSignal
  exact fun s => ⟨rfl, exec_rbQuit s⟩

/-- Settles O17: the ring is quiescent while no consumer operation is held and the parser does not run. -/
theorem ringResetClearsAQuiescentRing : Obligations.RingResetClearsAQuiescentRing := by
  unfold Obligations.RingResetClearsAQuiescentRing
  exact fun _ => ⟨rfl, byRole_of_ne rfl, exec_rbReset_of_busy, exec_rbReset_of_quiescent⟩

end Sys2Proof
end

section
/-! The scan of the parse buffer (rules R145 to R151), in the spec's own terms. -/

namespace Sys2Proof

open Sys2Proof.Machine Sys2Proof.Spec

namespace Spec

theorem headerNowhere_iff_findHdr (b : Bytes) : HeaderNowhere b ↔ findHdr b = none := by
  rw [findHdr_eq_none_iff, hdrBytes_eq, HeaderNowhere]

theorem headerAt_iff_findHdr (b : Bytes) (h : Nat) : HeaderAt b h ↔ findHdr b = some h := by
  rw [findHdr_eq_some_iff, hdrBytes_eq, HeaderAt]

/-- The header's four bytes stand at its place. -/
theorem HeaderAt.take_drop {b : Bytes} {h : Nat} (hh : HeaderAt b h) : (b.drop h).take 4 = hdrBytes :=
  hh.1.trans hdrBytes_eq.symm

theorem trailer_eq_trlBytes : trailer = trlBytes := trlBytes_eq.symm

end Spec

/-- Settles O28: the first header found is the spec's, what precedes it does not count, and at the header
each step of the loop has its own equation (`scan_shortHeader` to `scan_badTrailer`). -/
theorem scanFollowsTheStatedLoop : Obligations.ScanFollowsTheStatedLoop := by
  unfold Obligations.ScanFollowsTheStatedLoop
  rw [trailer_eq_trlBytes]
  intro maxLen pb
  refine ⟨fun hno => scan_noHeader ((headerNowhere_iff_findHdr pb).1 hno), ?_⟩
  rintro h b hh rfl
  have hb : (pb.drop h).take 4 = hdrBytes := hh.take_drop
  rw [scan_drop ((headerAt_iff_findHdr pb h).1 hh)]
  refine ⟨scan_shortHeader hb, ?_⟩
  rintro h8 len rfl
  refine ⟨?badLength, ?incomplete, ?complete⟩
  case badLength =>
    rintro hl r rfl
    exact scan_badLength hb h8 hl
  case incomplete =>
    intro h12 hmax hshort
    obtain ⟨l, hlen⟩ := Int.eq_ofNat_of_zero_le (by omega : 0 ≤ sbe32 (slice (pb.drop h) 4 8))
    exact scan_incomplete hb h8 hlen (by omega) (by omega) (by omega)
  case complete =>
    intro l hlen h12 hmax hin
    constructor
    · rintro ht r rfl
      exact scan_goodTrailer hb h8 hlen h12 hmax hin ht
    · rintro ht r rfl
      rw [hlen]
      exact scan_badTrailer hb h8 hlen h12 hmax hin ht

end Sys2Proof
end

section
/-! `FP.START` (rule R141). -/

namespace Sys2Proof

open Sys2Proof.Machine Sys2Proof.Spec

namespace Machine

variable {s : State}

theorem externalPopHeld_false_iff (s : State) :
    s.externalPopHeld = false ↔ ∀ h, s.held = some h → h.op = .iter := by
  rw [← Bool.not_eq_true, externalPopHeld_iff]
  push Not
  rfl

theorem exec_fpStart_of_popHeld (ha : s.issuer = .H) (h : ∃ h, s.held = some h ∧ h.op ≠ .iter) :
    exec .fpStart s = .refused .secondConsumer :=
  (byRole_of_eq rfl ha).trans (if_pos ((externalPopHeld_iff s).2 h))

theorem exec_fpStart_of_noPopHeld (ha : s.issuer = .H) (h : ∀ h, s.held = some h → h.op = .iter) :
    exec .fpStart s
      = .next ((s.withParser { s.fp with state := .run }).respond .ok 0#32 []) := by
  have free : s.externalPopHeld = false := (externalPopHeld_false_iff s).2 h
  exact (byRole_of_eq rfl ha).trans (if_neg (by simp [free]))

end Machine

/-- Settles O24: the one condition of the operation is that no external pop is held. -/
theorem startMakesTheParserRun : Obligations.StartMakesTheParserRun := by
  unfold Obligations.StartMakesTheParserRun
  exact fun _ => ⟨rfl, byRole_of_ne rfl, exec_fpStart_of_popHeld, exec_fpStart_of_noPopHeld⟩

end Sys2Proof
end

section
/-! The layout engine's session and staging operations: `CFG.COMMIT`, `CLE.RESET`, `STG.APPEND` (rules R171 to
R174). -/

namespace Sys2Proof

open Sys2Proof.Machine Sys2Proof.Spec

/-- The word of `STG.APPEND` (format `D`, rules R103, R105): the channel in its own field, and `n` counts the
operand bytes. -/
theorem encode_stgAppend (ch : BitVec 8) {bytes : Bytes} (h : bytes.length ≤ 65535) :
    encode (.stgAppend ch bytes)
      = ⟨0x32000000#32 + BitVec.ofNat 32 (ch.toNat * 2 ^ 16 + bytes.length), [], bytes⟩ := by
  have hword : commandWord Op.stgAppend.code ch (BitVec.ofNat 16 bytes.length)
      = 0x32000000#32 + BitVec.ofNat 32 (ch.toNat * 2 ^ 16 + bytes.length) := by
    have hcode : Op.stgAppend.code.toNat = 0x32 := rfl
    have hch := ch.isLt
    apply BitVec.eq_of_toNat_eq
    rw [commandWord_toNat, hcode]
    simp only [BitVec.toNat_add, BitVec.toNat_ofNat]
    omega
  exact congrArg (Command.mk · [] bytes) hword

namespace Machine

/-- Rule R172: the number reported is that of the first check that fails. -/
theorem firstFailure_eq_some {par : Params} {c : LayoutConfig} {i : Nat} (h1 : 1 ≤ i) (h4 : i ≤ 4)
    (hfail : ¬ Check par c i) (hpass : ∀ j, 1 ≤ j → j < i → Check par c j) :
    c.firstFailure par = some i := by
  have past (j : Nat) (hj : 1 ≤ j) (hji : j < i) : ¬ ¬ Check par c j := not_not.2 (hpass j hj hji)
  unfold LayoutConfig.firstFailure
  interval_cases i
  · exact if_pos hfail
  · exact Eq.trans (if_neg (past 1 (by decide) (by decide))) (if_pos hfail)
  · exact Eq.trans (if_neg (past 1 (by decide) (by decide))) <|
      Eq.trans (if_neg (past 2 (by decide) (by decide))) (if_pos hfail)
  · exact Eq.trans (if_neg (past 1 (by decide) (by decide))) <|
      Eq.trans (if_neg (past 2 (by decide) (by decide))) <|
        Eq.trans (if_neg (past 3 (by decide) (by decide))) (if_pos hfail)

theorem firstFailure_eq_none {par : Params} {c : LayoutConfig}
    (h : ∀ i, 1 ≤ i → i ≤ 4 → Check par c i) : c.firstFailure par = none :=
  (firstFailure_eq_none_iff par c).2
    ⟨h 1 (by decide) (by decide), h 2 (by decide) (by decide), h 3 (by decide) (by decide),
      h 4 (by decide) (by decide)⟩

theorem mayIssue_stgAppend_iff (a : Agent) : mayIssue .stgAppend a = true ↔ ∃ k, a = .S k := by
  cases a <;> simp [mayIssue]

/-- A chunk is too long only for a finite `STG_CAP` (rule R174). -/
theorem stgOverflows_iff (par : Params) (used n : Nat) :
    stgOverflows par used n = true ↔ ∃ cap, par.stgCap = some cap ∧ cap < used + n := by
  unfold stgOverflows
  cases par.stgCap <;> simp

theorem stgOverflows_false_iff (par : Params) (used n : Nat) :
    stgOverflows par used n = false ↔ ∀ cap, par.stgCap = some cap → used + n ≤ cap := by
  rw [← Bool.not_eq_true, stgOverflows_iff]
  push Not
  rfl

/-- Every channel of a committed configuration has its staging buffer (rules R35, R172). -/
theorem State.Inv.n_le_stg_length {s : State} (hs : s.Inv) (hv : s.cle.valid = true) :
    s.cle.cfg.n ≤ s.cle.stg.length := by
  obtain ⟨-, -, -, ⟨-, hcommitted, -⟩, ⟨hlength, -, -⟩, -, -⟩ := hs
  obtain ⟨⟨-, hn⟩, -⟩ := (firstFailure_eq_none_iff _ _).1 (hcommitted hv).1
  rwa [hlength]

variable {s : State}

theorem exec_cfgCommit_of_locked (ha : s.issuer = .H) (hl : s.cle.locked = true) :
    exec .cfgCommit s = .next (s.respond .cfgLocked 0#32 []) :=
  (byRole_of_eq rfl ha).trans (if_pos hl)

theorem exec_cfgCommit_of_failure {i : Nat} (ha : s.issuer = .H) (hl : s.cle.locked = false)
    (hf : s.cle.cfg.firstFailure s.par = some i) :
    exec .cfgCommit s = .next (s.respond .cfgInvalid (BitVec.ofNat 32 i) []) := by
  refine (byRole_of_eq rfl ha).trans ?_
  simp [hl, hf]

theorem exec_cfgCommit_of_valid (ha : s.issuer = .H) (hl : s.cle.locked = false)
    (hf : s.cle.cfg.firstFailure s.par = none) :
    exec .cfgCommit s
      = .next ((s.withLayout { s.cle with
            valid := true, locked := true, sfidCur := s.cle.cfg.sfidMin }).respond .ok 0#32 []) := by
  refine (byRole_of_eq rfl ha).trans ?_
  simp [hl, hf]

/-- Rule R173: the session ends whatever the state of the engine. -/
theorem exec_cleReset (ha : s.issuer = .H) :
    exec .cleReset s
      = .next ((s.withLayout { s.cle with
            valid := false, locked := false, stg := List.replicate s.cle.stg.length [],
            sfidCur := 0#32 }).respond .ok 0#32 []) := by
  rw [← List.map_const']
  exact byRole_of_eq rfl ha

section stgAppend
variable {ch : BitVec 8} {bytes : Bytes} {j : Nat}

theorem byRole_stgAppend {r : Result} (ha : s.issuer = .S j) : byRole .stgAppend s r = r :=
  byRole_of_mayIssue ((mayIssue_stgAppend_iff _).2 ⟨j, ha⟩)

theorem exec_stgAppend_of_not_issuer (ha : ∀ k, s.issuer ≠ .S k) :
    exec (.stgAppend ch bytes) s = .refused .outsideRole := by
  refine byRole_of_not (Bool.eq_false_iff.2 fun h => ?_)
  obtain ⟨k, hk⟩ := (mayIssue_stgAppend_iff _).1 h
  exact ha k hk

theorem exec_stgAppend_of_notConfigured (ha : s.issuer = .S j) (hv : s.cle.valid = false) :
    exec (.stgAppend ch bytes) s = .next (s.respond .notConfigured 0#32 []) := by
  refine (byRole_stgAppend ha).trans ?_
  simp [hv]

theorem exec_stgAppend_of_badChannel (ha : s.issuer = .S j) (hv : s.cle.valid = true)
    (hc : s.cle.cfg.n ≤ ch.toNat) :
    exec (.stgAppend ch bytes) s = .next (s.respond .badOperand 0#32 []) := by
  refine (byRole_stgAppend ha).trans ?_
  simp [hv, hc]

theorem exec_stgAppend_of_overflow (ha : s.issuer = .S j) (hv : s.cle.valid = true)
    (hc : ch.toNat < s.cle.cfg.n)
    (ho : stgOverflows s.par (channel s.cle.stg ch.toNat).length bytes.length = true) :
    exec (.stgAppend ch bytes) s = .next (s.respond .stgFull 0#32 []) := by
  refine (byRole_stgAppend ha).trans ?_
  simp [hv, Nat.not_le.2 hc, ho]

theorem exec_stgAppend_of_fits (ha : s.issuer = .S j) (hv : s.cle.valid = true)
    (hc : ch.toNat < s.cle.cfg.n)
    (ho : stgOverflows s.par (channel s.cle.stg ch.toNat).length bytes.length = false) :
    exec (.stgAppend ch bytes) s
      = .next ((s.withLayout
          { s.cle with stg := appendAt s.cle.stg ch.toNat bytes }).respond .ok 0#32 []) := by
  refine (byRole_stgAppend ha).trans ?_
  simp [hv, Nat.not_le.2 hc, ho]

end stgAppend

end Machine

/-- Settles O33: the session is locked, or the configuration has a first failing check, or it has none. -/
theorem commitValidatesAndLocks : Obligations.CommitValidatesAndLocks := by
  unfold Obligations.CommitValidatesAndLocks
  intro s
  refine ⟨rfl, byRole_of_ne rfl, exec_cfgCommit_of_locked, fun ha hl => ⟨?failure, ?valid⟩⟩
  case failure =>
    intro i h1 h4 hfail hpass
    exact exec_cfgCommit_of_failure ha hl (firstFailure_eq_some h1 h4 hfail hpass)
  case valid =>
    intro hpass
    exact exec_cfgCommit_of_valid ha hl (firstFailure_eq_none hpass)

/-- Settles O34: the operation has no condition but its issuer. -/
theorem engineResetEndsTheSession : Obligations.EngineResetEndsTheSession := by
  unfold Obligations.EngineResetEndsTheSession
  exact fun _ => ⟨rfl, byRole_of_ne rfl, exec_cleReset⟩

/-- Settles O35: the four answers of the operation exclude each other, and the invariant gives a channel
below `N` a staging buffer to append to. -/
theorem appendStagesTheWholeChunk : Obligations.AppendStagesTheWholeChunk := by
  unfold Obligations.AppendStagesTheWholeChunk
  intro ch bytes s j hs
  refine ⟨encode_stgAppend ch, exec_stgAppend_of_not_issuer, fun ha => ⟨?notConfigured, ?badChannel,
    ?overflow, ?fits⟩⟩
  case notConfigured => exact exec_stgAppend_of_notConfigured ha
  case badChannel => exact exec_stgAppend_of_badChannel ha
  case overflow =>
    intro hv hc hcap
    exact exec_stgAppend_of_overflow ha hv hc ((stgOverflows_iff ..).2 hcap)
  case fits =>
    intro hv hc hcap
    have hbuffer : ch.toNat < s.cle.stg.length := Nat.lt_of_lt_of_le hc (hs.n_le_stg_length hv)
    refine ⟨_, exec_stgAppend_of_fits ha hv hc ((stgOverflows_false_iff ..).2 hcap), appendAt_length ..,
      ?_, fun c hne => ?_⟩
    · rw [channel_appendAt _ _ _ _ hbuffer, if_pos rfl]
    · rw [channel_appendAt _ _ _ _ hbuffer, if_neg hne]

end Sys2Proof
end

section
/-! The idle frame of the multiplex operations (rules R185, R186): each policy is the common frame builder with
the policy's own needs and placement. -/

namespace Sys2Proof

open Sys2Proof.Machine Sys2Proof.Spec

namespace Spec

/-- Whether the row of the next frame belongs to no channel, as the multiplex operation computes it. -/
def Policy.unassigned (p : Policy) (s : State) : Bool :=
  match p with
  | .xc => false
  | .cc => false
  | .row => (p.rowOf s).isNone
  | .rc => (p.rowOf s).isNone

theorem Policy.unassigned_iff (p : Policy) (s : State) : p.unassigned s = true ↔ p.Unassigned s := by
  cases p <;> simp [Policy.unassigned, Policy.Unassigned]

/-- Where the policy lays the staged bytes of a frame: `place` of rules R191 to R194. -/
def Policy.place (p : Policy) (s : State) (u : Nat → Bytes) : Bytes :=
  match p with
  | .xc => placeWords s.cle.cfg u
  | .cc => placeBlocks s.cle.cfg u
  | .row => (p.rowOf s).elim [] (fun own => swapRun s.cle.cfg.bigendian (u own))
  | .rc => (p.rowOf s).elim [] (fun own => swapRun s.cle.cfg.bigendian (u own))

theorem check5_iff (c : LayoutConfig) : c.check5 = true ↔ Check5 c :=
  Bool.and_eq_true_iff.trans (and_congr decide_eq_true_iff decide_eq_true_iff)

end Spec

namespace Machine

/-- The frame of a row, in the form of the common builder. -/
theorem buildRow_eq (ch : Option Nat) (s : State) :
    buildRow ch s
      = buildFrame ch.isNone (fun c => if ch = some c then s.cle.cfg.pl else 0)
          (fun u => ch.elim [] (fun own => swapRun s.cle.cfg.bigendian (u own))) s := by
  cases ch with
  | none => rfl
  | some own => simp [buildRow, eq_comm]

variable {s : State}

/-- Every multiplex operation of an engine that is ready builds its frame by the common rule (rule R185). -/
theorem exec_mux {p : Policy} (ha : s.issuer = .X) (hr : p.Ready s) :
    exec p.mux s = .next (buildFrame (p.unassigned s) (p.need s) (p.place s) s) := by
  obtain ⟨hv, hrc⟩ := hr
  have valid : ¬ ¬ s.cle.valid = true := not_not.2 hv
  cases p with
  | xc => exact (byRole_of_eq rfl ha).trans (if_neg valid)
  | cc => exact (byRole_of_eq rfl ha).trans (if_neg valid)
  | row =>
    have built := buildRow_eq (Policy.row.rowOf s) s
    exact (byRole_of_eq rfl ha).trans ((if_neg valid).trans (congrArg _ built))
  | rc =>
    have built := buildRow_eq (Policy.rc.rowOf s) s
    have check5 : s.cle.cfg.check5 = true := (check5_iff _).2 (hrc rfl)
    exact (byRole_of_eq rfl ha).trans ((if_neg valid).trans ((if_pos check5).trans (congrArg _ built)))

theorem buildFrame_of_idle {unassigned : Bool} {need : Nat → Nat} {place : (Nat → Bytes) → Bytes}
    (h : unassigned = true ∨ s.short need = true) :
    buildFrame unassigned need place s = s.emitBuilt (filler s.cle.cfg.pl) 1 :=
  if_pos (Bool.or_eq_true_iff.2 h)

end Machine

/-- A policy that is not supplied has no channel for its row, or one of its channels is short (rule R186). -/
theorem Spec.Policy.unassigned_or_short_of_not_supplied {p : Policy} {s : State} (h : ¬ p.Supplied s) :
    p.unassigned s = true ∨ s.short (p.need s) = true := by
  rw [Policy.unassigned_iff, short_iff]
  by_contra hno
  push Not at hno
  exact h hno

/-- Settles O40: the frame is built by the common rule, which emits the filler and takes no byte. -/
theorem muxBuildsAnIdleFrameWhenShort : Obligations.MuxBuildsAnIdleFrameWhenShort := by
  unfold Obligations.MuxBuildsAnIdleFrameWhenShort
  intro p s _ ha hr hshort
  refine ⟨filler s.cle.cfg.pl, ?emitted, filler_length _, fun j hj => ?filled⟩
  case emitted =>
    rw [exec_mux ha hr, buildFrame_of_idle (Policy.unassigned_or_short_of_not_supplied hshort)]
    rfl
  case filled =>
    rw [filler_length] at hj
    exact filler_getD _ j hj 0#8

end Sys2Proof
end

section
/-! The idle-frame detector (rules R220, R221). -/

namespace Sys2Proof

open Sys2Proof.Machine Sys2Proof.Spec

/-- A command of format `D` carries the count of its operand bytes in the low part of its word (rules R102,
R103). -/
theorem encodeD_eq_add (o : Op) (ch : BitVec 8) {b : Bytes} (h : b.length ≤ 65535) :
    encodeD o ch b = ⟨commandWord o.code ch 0#16 + BitVec.ofNat 32 b.length, [], b⟩ := by
  rw [encodeD, commandWord_eq_add, BitVec.toNat_ofNat, Nat.mod_eq_of_lt (Nat.lt_succ_of_le h)]

/-- The word of `IDLE.CHK` (format `D`, rules R103, R105). -/
theorem encode_idleChk {payload : Bytes} (h : payload.length ≤ 65535) :
    encode (.idleChk payload) = ⟨0x40000000#32 + BitVec.ofNat 32 payload.length, [], payload⟩ :=
  encodeD_eq_add .idleChk 0#8 h

namespace Machine

/-- Rule R220: only the length and the first 8 bytes matter. -/
theorem isIdle_iff (par : Params) (p : Bytes) :
    isIdle par p = true ↔ p.length < 8 ∨ p.take 8 ∈ sentinels par := by
  rw [isIdle, Bool.or_eq_true, decide_eq_true_iff, List.contains_iff_mem]

variable {s : State} {payload : Bytes}

theorem exec_idleChk_of_idle (ha : s.issuer = .I) (h : isIdle s.par payload = true) :
    exec (.idleChk payload) s = .next (s.respond .ok 1#32 []) :=
  (byRole_of_eq rfl ha).trans (if_pos h)

theorem exec_idleChk_of_not_idle (ha : s.issuer = .I) (h : ¬ isIdle s.par payload = true) :
    exec (.idleChk payload) s
      = .next ((s.withOut (s.out.emitForward payload)).respond .ok 0#32 []) :=
  (byRole_of_eq rfl ha).trans (if_neg h)

end Machine

/-- Settles O48: the payload is idle or it is not, and the list of the statement is the sentinel table. -/
theorem idleCheckForwardsRealPayloads : Obligations.IdleCheckForwardsRealPayloads := by
  unfold Obligations.IdleCheckForwardsRealPayloads
  intro payload s
  refine ⟨encode_idleChk, byRole_of_ne rfl, fun ha => ⟨?idle, ?forwarded⟩⟩
  case idle =>
    intro hidle
    exact exec_idleChk_of_idle ha ((isIdle_iff ..).2 hidle)
  case forwarded =>
    intro h8 hreal
    have notIdle : ¬ isIdle s.par payload = true := by
      rw [isIdle_iff]
      exact not_or.2 ⟨Nat.not_lt.2 h8, hreal⟩
    exact exec_idleChk_of_not_idle ha notIdle

end Sys2Proof
end

section
/-! The register access operations `CSR.RD` and `CSR.WR` (rules R230, R231) and the register map (rules R50,
R51): the fixed registers, each at its own address, and the staging lengths from `0x0100` on. -/

namespace Sys2Proof

open Sys2Proof.Machine Sys2Proof.Spec

/-- The word of `CSR.RD` (format `R`, rules R103, R105). -/
theorem encode_csrRd (a : BitVec 16) :
    encode (.csrRd a) = ⟨0x01000000#32 + BitVec.ofNat 32 a.toNat, [], []⟩ :=
  congrArg (Command.mk · [] []) (commandWord_eq_add Op.csrRd.code 0#8 a)

/-- The word of `CSR.WR` (format `R`, rules R103, R105): the value is its argument word. -/
theorem encode_csrWr (a : BitVec 16) (v : Word) :
    encode (.csrWr a v) = ⟨0x02000000#32 + BitVec.ofNat 32 a.toNat, [v], []⟩ :=
  congrArg (Command.mk · [v] []) (commandWord_eq_add Op.csrWr.code 0#8 a)

namespace Machine

/-! ## The register at an address -/

/-- The registers of rule R50 at fixed addresses: all but the staging lengths. -/
def fixedRegisters : List (BitVec 16 × Csr) :=
  [ (0x0010#16, .rbUsed), (0x0011#16, .rbLost), (0x0012#16, .rbCap), (0x0013#16, .rbStat),
    (0x0020#16, .fpStat), (0x0021#16, .fpErrcnt), (0x0022#16, .fpPblen),
    (0x0030#16, .cfgChcnt), (0x0031#16, .cfgFlags), (0x0032#16, .cfgSync), (0x0033#16, .cfgSfidmin),
    (0x0034#16, .cfgSfidmax), (0x0035#16, .cfgFramelen), (0x0036#16, .cfgRsvlen), (0x0037#16, .cfgRso),
    (0x0038#16, .cfgMsc), (0x0039#16, .cleStat), (0x003A#16, .cleSfid) ]

/-- The register of the first row with this address, and `rest` with no such row. -/
def registerIn (rows : List (BitVec 16 × Csr)) (a : BitVec 16) (rest : Option Csr) : Option Csr :=
  rows.foldr (fun row later => if a = row.1 then some row.2 else later) rest

/-- The staging length at an address. -/
def stagingAt (par : Params) (a : BitVec 16) : Option Csr :=
  if 0x0100 ≤ a.toNat ∧ a.toNat < 0x0100 + par.nchMax then some (.stgLen (a.toNat - 0x0100)) else none

theorem csrAt_eq_registerIn (par : Params) (a : BitVec 16) :
    csrAt par a = registerIn fixedRegisters a (stagingAt par a) := rfl

theorem registerIn_cons (row : BitVec 16 × Csr) (rows : List (BitVec 16 × Csr)) (a : BitVec 16)
    (rest : Option Csr) :
    registerIn (row :: rows) a rest = if a = row.1 then some row.2 else registerIn rows a rest := rfl

/-- With one row for each address, every row counts. -/
theorem registerIn_eq_some_iff {rows : List (BitVec 16 × Csr)} {a : BitVec 16} {rest : Option Csr} {r : Csr}
    (hrows : (rows.map Prod.fst).Nodup) :
    registerIn rows a rest = some r ↔ (a, r) ∈ rows ∨ (a ∉ rows.map Prod.fst ∧ rest = some r) := by
  induction rows with
  | nil => simp [registerIn]
  | cons row rows ih =>
    obtain ⟨hnew, hrows⟩ := List.nodup_cons.1 hrows
    rw [registerIn_cons]
    split
    · subst a
      have hlater : (row.1, r) ∉ rows := fun h => hnew (List.mem_map.2 ⟨_, h, rfl⟩)
      simp [Prod.ext_iff, hlater, eq_comm]
    · rename_i hne
      simp [ih hrows, Prod.ext_iff, hne]

theorem stagingAt_eq_some_iff {par : Params} {a : BitVec 16} {r : Csr} :
    stagingAt par a = some r ↔ ∃ c < par.nchMax, a.toNat = 0x0100 + c ∧ r = .stgLen c := by
  rw [stagingAt, Option.ite_none_right_eq_some]
  constructor
  · rintro ⟨h, hr⟩
    exact ⟨a.toNat - 0x0100, by omega, by omega, (Option.some.inj hr).symm⟩
  · rintro ⟨c, hc, ha, rfl⟩
    exact ⟨by omega, by simp [ha]⟩

/-- The fixed registers lie below the staging lengths. -/
theorem fixedRegisters_lt : ∀ row ∈ fixedRegisters, row.1.toNat < 0x0100 := by decide

/-- Rule R50: a register is a fixed one or the staging length of a channel below `NCH_MAX`. -/
theorem csrAt_eq_some_iff {par : Params} {a : BitVec 16} {r : Csr} :
    csrAt par a = some r ↔
      (a, r) ∈ fixedRegisters ∨ ∃ c < par.nchMax, a.toNat = 0x0100 + c ∧ r = .stgLen c := by
  rw [csrAt_eq_registerIn, registerIn_eq_some_iff (by decide), stagingAt_eq_some_iff]
  refine or_congr_right (and_iff_right_of_imp ?_)
  rintro ⟨c, -, ha, -⟩ hfixed
  obtain ⟨row, hrow, rfl⟩ := List.mem_map.1 hfixed
  have := fixedRegisters_lt row hrow
  omega

/-! ## The map of the current values -/

section
variable (s : State)

theorem rbStat_eq :
    s.rbStat = BitVec.ofNat 32
      ((if s.rb.quit then 1 else 0) + (if s.rb.q.length = s.par.ringCap then 2 else 0)
        + (if s.rb.q.length = 0 then 4 else 0)) := by
  simp [State.rbStat, State.full, State.empty, bit]

theorem fpStat_eq :
    s.fpStat = BitVec.ofNat 32
      ((match s.fp.state with | .idle => 0 | .run => 1 | .halted => 2)
        + (match s.fp.lasterr with | none => 0 | some .badLength => 4 | some .badTrailer => 8)) := by
  unfold State.fpStat
  rcases s.fp.lasterr with - | (_ | _) <;> rfl

theorem cleStat_eq :
    s.cleStat = BitVec.ofNat 32 ((if s.cle.valid then 1 else 0) + (if s.cle.locked then 2 else 0)) := by
  simp [State.cleStat, bit]

theorem cfgFlags_word :
    BitVec.ofNat 32 (bit s.cle.cfg.bigendian) = if s.cle.cfg.bigendian then 1#32 else 0#32 :=
  apply_ite (BitVec.ofNat 32) _ 1 0

/-- The map of the statement is that of the model, read register by register. -/
theorem csrMap_eq :
    csrMap s = fixedRegisters.map (fun row => (row.1, row.2.read s))
      ++ (List.range s.par.nchMax).map (fun c =>
          (BitVec.ofNat 16 (0x0100 + c), Csr.read (.stgLen c) s)) := by
  simp only [fixedRegisters, List.map_cons, List.map_nil, Csr.read, rbStat_eq, fpStat_eq, cleStat_eq,
    cfgFlags_word, ← BitVec.ofNat_toNat]
  rfl

end

/-- Rule R50: the map lists each register's current value at its address. -/
theorem mem_csrMap_iff {s : State} {a : BitVec 16} {v : Word} (hs : s.par.Ok) :
    (a, v) ∈ csrMap s ↔ ∃ r, csrAt s.par a = some r ∧ r.read s = v := by
  obtain ⟨-, -, ⟨-, hn⟩, -⟩ := hs
  have address (c : Nat) (hc : c < s.par.nchMax) :
      BitVec.ofNat 16 (0x0100 + c) = a ↔ a.toNat = 0x0100 + c := by
    rw [← BitVec.toNat_inj, BitVec.toNat_ofNat, Nat.mod_eq_of_lt (by omega), eq_comm]
  rw [csrMap_eq]
  simp only [csrAt_eq_some_iff, List.mem_append, List.mem_map, List.mem_range, Prod.mk.injEq, or_and_right,
    exists_or]
  refine or_congr ⟨?_, ?_⟩ ⟨?_, ?_⟩
  · rintro ⟨⟨_, r⟩, hr, rfl, hv⟩
    exact ⟨r, hr, hv⟩
  · rintro ⟨r, hr, hv⟩
    exact ⟨(a, r), hr, rfl, hv⟩
  · rintro ⟨c, hc, ha, hv⟩
    exact ⟨.stgLen c, ⟨c, hc, (address c hc).1 ha, rfl⟩, hv⟩
  · rintro ⟨_, ⟨c, hc, ha, rfl⟩, hv⟩
    exact ⟨c, hc, (address c hc).2 ha, hv⟩

theorem csrAt_eq_none_of_not_mem_csrMap {s : State} {a : BitVec 16} (hs : s.par.Ok)
    (h : a ∉ (csrMap s).map Prod.fst) : csrAt s.par a = none := by
  refine Option.eq_none_iff_forall_ne_some.2 fun r hr => h ?_
  exact List.mem_map.2 ⟨_, (mem_csrMap_iff hs).2 ⟨r, hr, rfl⟩, rfl⟩

/-! ## The writable fields -/

/-- The bits a writable register stores (rule R50, "fields"); `none` for a read-only register. -/
def Csr.mask : Csr → Option Word
  | .cfgChcnt => some 0x000001FF#32
  | .cfgFlags => some 0x00000001#32
  | .cfgFramelen | .cfgRsvlen => some 0x0000FFFF#32
  | .cfgSync | .cfgSfidmin | .cfgSfidmax | .cfgRso | .cfgMsc => some 0xFFFFFFFF#32
  | _ => none

/-- A table of fixed registers is a partial function of the register at the address, which no staging length
has a part in. -/
theorem mem_filterMap_fixedRegisters_iff {β : Type} {f : Csr → Option β} (hf : ∀ c, f (.stgLen c) = none)
    (par : Params) {a : BitVec 16} {b : β} :
    (a, b) ∈ fixedRegisters.filterMap (fun row => (f row.2).map (row.1, ·))
      ↔ (csrAt par a).bind f = some b := by
  simp only [List.mem_filterMap, Option.map_eq_some_iff, Option.bind_eq_some_iff, csrAt_eq_some_iff]
  constructor
  · rintro ⟨⟨_, r⟩, hr, _, h, ⟨⟩⟩
    exact ⟨r, .inl hr, h⟩
  · rintro ⟨r, hr | ⟨c, -, -, rfl⟩, h⟩
    · exact ⟨(a, r), hr, b, h, rfl⟩
    · exact nomatch (hf c).symm.trans h

/-- Rules R50, R51: the statement's fields are what a write makes of the configuration. -/
theorem mem_csrFields_iff (par : Params) {c cfg : LayoutConfig} {v : Word} {a : BitVec 16} :
    (a, cfg) ∈ csrFields c v ↔ (csrAt par a).bind (fun r => r.write v c) = some cfg := by
  have lowBit : decide (v.toNat % 2 = 1) = v.getLsbD 0 := (Nat.testBit_zero _).symm
  have table : csrFields c v = fixedRegisters.filterMap (fun row => (row.2.write v c).map (row.1, ·)) := by
    rw [csrFields, lowBit]
    rfl
  rw [table]
  exact mem_filterMap_fixedRegisters_iff (f := (Csr.write · v c)) (fun _ => rfl) par

theorem mem_csrMasks_iff (par : Params) {a : BitVec 16} {m : Word} :
    (a, m) ∈ csrMasks ↔ (csrAt par a).bind Csr.mask = some m :=
  mem_filterMap_fixedRegisters_iff (f := Csr.mask) (fun _ => rfl) par

/-- Rule R51: a field of the low bits, written and read back. -/
theorem setWidth_setWidth_eq_and (v : Word) {k : Nat} (hk : k ≤ 32) :
    (v.setWidth k).setWidth 32 = v &&& BitVec.ofNat 32 (2 ^ k - 1) := by
  have hpow : 2 ^ k ≤ 2 ^ 32 := Nat.pow_le_pow_right (by decide) hk
  apply BitVec.eq_of_toNat_eq
  simp only [BitVec.toNat_and, BitVec.toNat_setWidth, BitVec.toNat_ofNat]
  rw [Nat.mod_eq_of_lt (by omega : 2 ^ k - 1 < 2 ^ 32), Nat.and_two_pow_sub_one_eq_mod, Nat.mod_eq_of_lt]
  exact Nat.lt_of_lt_of_le (Nat.mod_lt _ (Nat.two_pow_pos k)) hpow

/-- Rule R51: a field of one bit, written and read back. -/
theorem ofNat_bit_getLsbD_eq_and (v : Word) : BitVec.ofNat 32 (bit (v.getLsbD 0)) = v &&& 1#32 := by
  rw [BitVec.and_one_eq_setWidth_ofBool_getLsbD]
  cases v.getLsbD 0 <;> rfl

/-- Rule R51: a register with stored bits can be written, and reads back those bits of the word written. -/
theorem Csr.read_of_write {r : Csr} {m : Word} (hm : r.mask = some m) (v : Word) (c : LayoutConfig) :
    ∃ cfg, r.write v c = some cfg ∧ ∀ t : State, t.cle.cfg = cfg → r.read t = v &&& m := by
  cases r <;> cases hm
  all_goals
    refine ⟨_, rfl, fun t ht => ?_⟩
    simp only [Csr.read, ht]
  case cfgChcnt => exact setWidth_setWidth_eq_and v (by decide)
  case cfgFlags => exact ofNat_bit_getLsbD_eq_and v
  case cfgFramelen => exact setWidth_setWidth_eq_and v (by decide)
  case cfgRsvlen => exact setWidth_setWidth_eq_and v (by decide)
  all_goals exact BitVec.and_allOnes.symm

/-! ## The operations -/

variable {s : State} {a : BitVec 16} {v : Word}

theorem exec_csrRd_of_register {r : Csr} (h : csrAt s.par a = some r) :
    exec (.csrRd a) s = .next (s.respond .ok (r.read s) []) := by
  rw [exec, execCsrRd, h]
  exact byRole_of_mayIssue rfl

theorem exec_csrRd_of_unassigned (h : csrAt s.par a = none) :
    exec (.csrRd a) s = .next (s.respond .badAddr 0#32 []) := by
  rw [exec, execCsrRd, h]
  exact byRole_of_mayIssue rfl

/-- Rule R231: the address is tested before the lock. -/
theorem exec_csrWr_of_unwritable (ha : s.issuer = .H)
    (h : (csrAt s.par a).bind (fun r => r.write v s.cle.cfg) = none) :
    exec (.csrWr a v) s = .next (s.respond .badAddr 0#32 []) := by
  refine (byRole_of_eq rfl ha).trans ?_
  rw [h]
  rfl

theorem exec_csrWr_of_locked {cfg : LayoutConfig} (ha : s.issuer = .H)
    (h : (csrAt s.par a).bind (fun r => r.write v s.cle.cfg) = some cfg) (hl : s.cle.locked = true) :
    exec (.csrWr a v) s = .next (s.respond .cfgLocked 0#32 []) := by
  refine (byRole_of_eq rfl ha).trans ?_
  rw [h]
  exact if_pos hl

theorem exec_csrWr_of_unlocked {cfg : LayoutConfig} (ha : s.issuer = .H)
    (h : (csrAt s.par a).bind (fun r => r.write v s.cle.cfg) = some cfg) (hl : s.cle.locked = false) :
    exec (.csrWr a v) s = .next ((s.withLayout { s.cle with cfg := cfg }).respond .ok 0#32 []) := by
  refine (byRole_of_eq rfl ha).trans ?_
  rw [h]
  exact if_neg (Bool.eq_false_iff.1 hl)

/-- Rule R51: what is read back after a write to an unlocked configuration. -/
theorem exec_csrRd_after_csrWr {m : Word} {t : State} (ha : s.issuer = .H) (hm : (a, m) ∈ csrMasks)
    (hl : s.cle.locked = false) (ht : exec (.csrWr a v) s = .next t) :
    exec (.csrRd a) t = .next (t.respond .ok (v &&& m) []) := by
  obtain ⟨r, hr, hm⟩ := Option.bind_eq_some_iff.1 ((mem_csrMasks_iff s.par).1 hm)
  obtain ⟨cfg, hw, hread⟩ := Csr.read_of_write hm v s.cle.cfg
  rw [exec_csrWr_of_unlocked ha (Option.bind_eq_some_iff.2 ⟨r, hr, hw⟩) hl] at ht
  cases ht
  rw [← hread (s.withLayout { s.cle with cfg := cfg }) rfl]
  exact exec_csrRd_of_register hr

end Machine

/-- Settles O50: an address of the map is a register's, and a read answers the register's value. -/
theorem registerReadsFollowTheMap : Obligations.RegisterReadsFollowTheMap := by
  unfold Obligations.RegisterReadsFollowTheMap
  intro s a hs
  refine ⟨encode_csrRd a, fun v hv => ?mapped, fun ha => ?unassigned⟩
  case mapped =>
    obtain ⟨r, hr, rfl⟩ := (mem_csrMap_iff hs).1 hv
    exact exec_csrRd_of_register hr
  case unassigned => exact exec_csrRd_of_unassigned (csrAt_eq_none_of_not_mem_csrMap hs ha)

/-- Settles O51: an address has a field to write or it has none, and the configuration is locked or not. -/
theorem registerWritesChangeOneField : Obligations.RegisterWritesChangeOneField := by
  unfold Obligations.RegisterWritesChangeOneField
  intro s a v
  refine ⟨encode_csrWr a v, byRole_of_ne rfl, fun ha => ⟨?unwritable, ?locked, ?unlocked, ?readBack⟩⟩
  case unwritable =>
    intro hno
    refine exec_csrWr_of_unwritable ha (Option.eq_none_iff_forall_ne_some.2 fun cfg hcfg => hno ?_)
    exact List.mem_map.2 ⟨_, (mem_csrFields_iff s.par).2 hcfg, rfl⟩
  case locked =>
    intro hmem hl
    obtain ⟨⟨_, cfg⟩, hcfg, rfl⟩ := List.mem_map.1 hmem
    exact exec_csrWr_of_locked ha ((mem_csrFields_iff s.par).1 hcfg) hl
  case unlocked =>
    intro cfg hcfg hl
    exact exec_csrWr_of_unlocked ha ((mem_csrFields_iff s.par).1 hcfg) hl
  case readBack =>
    intro t m hm hl ht
    exact exec_csrRd_after_csrWr ha hm hl ht

end Sys2Proof
end

section
/-! Decoding and encoding (rules R101 to R106): the encoder and the decoder are inverse to each other, and the
commands that carry an operation are those of the opcode table. -/

namespace Sys2Proof

open Sys2Proof.Machine Sys2Proof.Spec

/-! ## Decoding an encoding -/

/-- The shape of every encoding (rules R103, R104). -/
theorem commandShape : ∀ i : Instr, Laws.CommandShape.Statement i
  | .csrRd addr => Laws.CommandShape.csrRd addr
  | .csrWr addr value => Laws.CommandShape.csrWr addr value
  | .rbPush item => Laws.CommandShape.rbPush item
  | .rbPushr items => Laws.CommandShape.rbPushr items
  | .rbPop => Laws.CommandShape.rbPop
  | .rbPopn min max => Laws.CommandShape.rbPopn min max
  | .rbQuit => Laws.CommandShape.rbQuit
  | .rbReset => Laws.CommandShape.rbReset
  | .fpStart => Laws.CommandShape.fpStart
  | .fpIter => Laws.CommandShape.fpIter
  | .fpReset => Laws.CommandShape.fpReset
  | .cfgCommit => Laws.CommandShape.cfgCommit
  | .cleReset => Laws.CommandShape.cleReset
  | .stgAppend ch bytes => Laws.CommandShape.stgAppend ch bytes
  | .dmxXc frame => Laws.CommandShape.dmxXc frame
  | .dmxCc frame => Laws.CommandShape.dmxCc frame
  | .dmxRow frame => Laws.CommandShape.dmxRow frame
  | .dmxRc frame => Laws.CommandShape.dmxRc frame
  | .muxXc => Laws.CommandShape.muxXc
  | .muxCc => Laws.CommandShape.muxCc
  | .muxRow => Laws.CommandShape.muxRow
  | .muxRc => Laws.CommandShape.muxRc
  | .idleChk payload => Laws.CommandShape.idleChk payload

/-- The `item` field holds a byte widened to the `n` field (format `I`). -/
theorem itemField_commandWord (op ch : BitVec 8) (item : Byte) :
    itemField (commandWord op ch (item.setWidth 16)) = item := by
  rw [itemField_eq, nField_commandWord, BitVec.setWidth_setWidth_of_le item (by decide),
    BitVec.setWidth_eq]

/-- The operands are where the encoder puts them. -/
theorem build_encode (i : Instr) : i.op.build (encode i) = i := by
  cases i with
  | csrRd addr => exact congrArg Instr.csrRd (nField_commandWord ..)
  | csrWr addr value => exact congrArg (Instr.csrWr · value) (nField_commandWord ..)
  | rbPush item => exact congrArg Instr.rbPush (itemField_commandWord ..)
  | stgAppend ch bytes => exact congrArg (Instr.stgAppend · bytes) (chField_commandWord ..)
  | _ => rfl

theorem decode_encode {i : Instr} (h : i.WellFormed) : decode (encode i) = .instr i := by
  obtain ⟨hop, hzero, hargs, hoperand⟩ := commandShape i h
  refine (decode_eq_instr_iff _ _).2 ⟨i.op, ?_, hzero, hargs, hoperand, (build_encode i).symm⟩
  rw [hop, Op.ofCode_code]

/-! ## Encoding what was decoded -/

/-- The command that a word of format `D` announces carries at most 65535 bytes (rule R103). -/
theorem Op.operandBytes_le (o : Op) (w : Word) : o.operandBytes w ≤ 65535 := by
  have := (nField w).isLt
  cases o <;> simp [Op.operandBytes, Op.format] <;> omega

theorem build_wellFormed (o : Op) {c : Command} (h : c.operand.length = o.operandBytes c.word) :
    (o.build c).WellFormed := by
  have := o.operandBytes_le c.word
  rw [← h] at this
  cases o <;> trivial

/-- A high byte of zero leaves the `n` field to the item (format `I`). -/
theorem setWidth_itemField {w : Word} (h : nHighField w = 0#8) : (itemField w).setWidth 16 = nField w := by
  have high := congrArg BitVec.toNat h
  apply BitVec.eq_of_toNat_eq
  simp only [nHighField, itemField, nField, BitVec.extractLsb'_toNat, BitVec.toNat_setWidth,
    BitVec.toNat_ofNat, Nat.shiftRight_eq_div_pow] at high ⊢
  omega

section encode_build
variable {o : Op} {c : Command}

/-- A command is determined by its fields, its argument words and its operand bytes. -/
theorem command_eq {ch : BitVec 8} {n : BitVec 16} {args : List Word} {operand : Bytes}
    (ho : o.code = opField c.word) (hch : ch = chField c.word) (hn : n = nField c.word)
    (ha : args = c.args) (hb : operand = c.operand) :
    (⟨commandWord o.code ch n, args, operand⟩ : Command) = c := by
  rw [ho, hch, hn, ha, hb, commandWord_fields]

variable (ho : o.code = opField c.word) (hz : o.zerosOk c.word = true)
  (ha : c.args.length = o.argWords) (hb : c.operand.length = o.operandBytes c.word)
include ho hz ha hb

/-- Format `Z` leaves nothing to choose. -/
theorem encodeZ_eq (hf : o.format = .Z) : encodeZ o = c := by
  simp only [Op.zerosOk, Op.argWords, Op.operandBytes, hf, Bool.and_eq_true, beq_iff_eq,
    List.length_eq_zero_iff] at hz ha hb
  exact command_eq ho hz.1.symm hz.2.symm ha.symm hb.symm

/-- Format `D` leaves the operand bytes, and `STG.APPEND` the channel. -/
theorem encodeD_eq (hf : o.format = .D) {ch : BitVec 8}
    (hch : ch = chField c.word ∨ o ≠ .stgAppend ∧ ch = 0#8) : encodeD o ch c.operand = c := by
  simp only [Op.zerosOk, Op.argWords, Op.operandBytes, hf, Bool.or_eq_true, beq_iff_eq,
    List.length_eq_zero_iff] at hz ha hb
  refine command_eq ho ?_ ?_ ha.symm rfl
  · rcases hch with hch | ⟨hne, rfl⟩
    · exact hch
    · exact (hz.resolve_left hne).symm
  · rw [hb, BitVec.ofNat_toNat, BitVec.setWidth_eq]

/-- The encoder puts the operands where the decoder found them. -/
theorem encode_build : encode (o.build c) = c := by
  cases o with
  | csrRd =>
    simp only [Op.zerosOk, Op.argWords, Op.operandBytes, Op.format, beq_iff_eq, reduceCtorEq, if_false,
      List.length_eq_zero_iff] at hz ha hb
    exact command_eq ho hz.symm rfl ha.symm hb.symm
  | csrWr =>
    simp only [Op.zerosOk, Op.argWords, Op.operandBytes, Op.format, beq_iff_eq, if_true,
      List.length_eq_zero_iff, List.length_eq_one_iff] at hz ha hb
    obtain ⟨value, ha⟩ := ha
    exact command_eq ho hz.symm rfl (by rw [ha]; rfl) hb.symm
  | rbPush =>
    simp only [Op.zerosOk, Op.argWords, Op.operandBytes, Op.format, Bool.and_eq_true, beq_iff_eq,
      List.length_eq_zero_iff] at hz ha hb
    exact command_eq ho hz.1.symm (setWidth_itemField hz.2) ha.symm hb.symm
  | rbPopn =>
    simp only [Op.zerosOk, Op.argWords, Op.operandBytes, Op.format, Bool.and_eq_true, beq_iff_eq,
      List.length_eq_zero_iff, List.length_eq_two] at hz ha hb
    obtain ⟨min, max, ha⟩ := ha
    exact command_eq ho hz.1.symm hz.2.symm (by rw [ha]; rfl) hb.symm
  | stgAppend => exact encodeD_eq ho hz ha hb rfl (.inl rfl)
  | rbPushr | dmxXc | dmxCc | dmxRow | dmxRc | idleChk =>
    exact encodeD_eq ho hz ha hb rfl (.inr ⟨by decide, rfl⟩)
  | rbPop | rbQuit | rbReset | fpStart | fpIter | fpReset | cfgCommit | cleReset | muxXc | muxCc
  | muxRow | muxRc => exact encodeZ_eq ho hz ha hb rfl

end encode_build

/-- Settles O8: the decoder reads the fields that the encoder writes, and a command that decodes has no other
field to choose. -/
theorem decodeAndEncodeAgree : Obligations.DecodeAndEncodeAgree := by
  unfold Obligations.DecodeAndEncodeAgree
  refine ⟨fun i h => decode_encode h, fun c i h => ?_⟩
  obtain ⟨o, ho, hz, ha, hb, rfl⟩ := (decode_eq_instr_iff c i).1 h
  exact ⟨build_wellFormed o hb, encode_build (Op.code_of_ofCode ho) hz ha hb⟩

/-- The number of operand bytes of a command, by its row of the opcode table. -/
theorem Op.operandBytes_eq_row (o : Op) (w : Word) :
    o.operandBytes w = if o.row.2.2.2 then w.toNat % 2 ^ 16 else 0 := by
  cases o <;> rfl

/-- Settles O7: a row is an operation's (`opcodeRows_eq_map_row`), and it asks of a command what the decoder
asks. -/
theorem commandsAreThoseOfTheOpcodeTable : Obligations.CommandsAreThoseOfTheOpcodeTable := by
  unfold Obligations.CommandsAreThoseOfTheOpcodeTable
  intro c
  constructor
  · rintro ⟨i, h⟩
    obtain ⟨o, ho, hz, ha, hb, -⟩ := (decode_eq_instr_iff c i).1 h
    have hrow : o.row ∈ opcodeRows := opcodeRows_eq_map_row ▸ List.mem_map_of_mem o.mem_all
    have hword := (o.row_matches_iff c.word).2 ⟨(Op.code_of_ofCode ho).symm, hz⟩
    exact ⟨o.row, hrow, hword, ha, hb.trans (o.operandBytes_eq_row c.word)⟩
  · rintro ⟨row, hrow, hword, ha, hb⟩
    rw [opcodeRows_eq_map_row] at hrow
    obtain ⟨o, -, rfl⟩ := List.mem_map.1 hrow
    obtain ⟨hcode, hz⟩ := (o.row_matches_iff c.word).1 hword
    have ho : Op.ofCode (opField c.word) = some o := by rw [hcode, Op.ofCode_code]
    have hb := hb.trans (o.operandBytes_eq_row c.word).symm
    exact ⟨_, (decode_eq_instr_iff c _).2 ⟨o, ho, hz, ha, hb, rfl⟩⟩

end Sys2Proof
end

section
/-! Issuing a command (rules R8, R12, R72, R101, R104, R107): what a step makes of the next event, and which
operations are refused for their issuer. -/

namespace Sys2Proof

open Sys2Proof.Machine Sys2Proof.Spec

/-- Settles O9: the decoder evaluated on each word. -/
theorem sampleCommandsDecode : Obligations.SampleCommandsDecode := by
  unfold Obligations.SampleCommandsDecode
  decide

/-- Settles O10: status by status. -/
theorem responseWordsCarryStatusAndValue : Obligations.ResponseWordsCarryStatusAndValue := by
  unfold Obligations.ResponseWordsCarryStatusAndValue
  rintro ⟨agent, status, value, data⟩
  refine ⟨_, _, rfl, rfl, ?_⟩
  cases status <;> rfl

/-- A legal word with another number of argument words or operand bytes is no command (rule R104). -/
theorem decode_malformed {c : Command} {o : Op} (ho : Op.ofCode (opField c.word) = some o)
    (hz : o.zerosOk c.word = true)
    (h : c.args.length ≠ o.argWords ∨ c.operand.length ≠ o.operandBytes c.word) :
    decode c = .malformed := by
  have hlen : ¬ (c.args.length = o.argWords ∧ c.operand.length = o.operandBytes c.word) :=
    fun hc => h.elim (· hc.1) (· hc.2)
  simp [decode, ho, hz, hlen]

namespace Machine

variable {s : State} {a : Agent} {c : Command}

theorem issue_of_instr {i : Instr} (hb : s.blocked a = false) (hc : decode c = .instr i) :
    issue a c s = exec i (s.withIssuer a) := by
  simp [issue, hb, hc]

theorem issue_of_malformed (hb : s.blocked a = false) (hc : decode c = .malformed) :
    issue a c s = .fault .malformedCommand := by
  simp [issue, hb, hc]

theorem issue_of_blocked (hb : s.blocked a = true) : issue a c s = .refused .issuerHeld := by
  simp [issue, hb]

theorem step_of_reset {rest : List Event} (h : s.events = .reset :: rest) :
    step s = .next ((State.resetWith s.par).withEvents rest) := by
  simp [step, h, hardwareReset]

/-- With no event to come a step is a turn of the consumer, as on an explicit turn. -/
theorem step_of_turn {rest : List Event} (h : s.events = .turn :: rest ∨ (s.events = [] ∧ rest = [])) :
    step s = consumerTurn (s.withEvents rest) := by
  rcases h with h | ⟨h, rfl⟩
  · simp [step, h]
  · have same : s.withEvents [] = s := by rw [← h]; rfl
    rw [same]
    simp [step, h]

end Machine

/-- Settles O3: the step on a reset event, with the events to come kept. -/
theorem hardwareResetRestoresResetState : Obligations.HardwareResetRestoresResetState := by
  unfold Obligations.HardwareResetRestoresResetState
  exact fun _ _ h => step_of_reset h

/-- Settles O4: the issuer is not blocked, so the decoded operation is performed. -/
theorem stepPerformsTheIssuedOperation : Obligations.StepPerformsTheIssuedOperation := by
  unfold Obligations.StepPerformsTheIssuedOperation
  intro s a c rest i hev hfree hc
  have hb : (s.withEvents rest).blocked a = false := (blocked_false_iff _ a).2 hfree
  rw [step_of_issue hev, issue_of_instr hb hc]
  rfl

/-- Settles O6: the blocked issuer is met before the command is looked at. -/
theorem stepStopsOnBlockedIssuerOrMalformedCommand :
    Obligations.StepStopsOnBlockedIssuerOrMalformedCommand := by
  unfold Obligations.StepStopsOnBlockedIssuerOrMalformedCommand
  intro s a c rest hev
  refine ⟨?blocked, ?malformed⟩
  case blocked =>
    rintro ⟨op, hheld⟩
    rw [step_of_issue hev]
    exact issue_of_blocked ((blocked_iff _ a).2 ⟨_, hheld, rfl⟩)
  case malformed =>
    intro hfree
    rw [forall_mem_opcodeRows]
    intro o hword hlen
    obtain ⟨hcode, hz⟩ := (o.row_matches_iff c.word).1 hword
    rw [← Op.operandBytes_eq_row] at hlen
    have hc : decode c = .malformed := decode_malformed (by rw [hcode, Op.ofCode_code]) hz hlen
    rw [step_of_issue hev]
    exact issue_of_malformed ((blocked_false_iff _ a).2 hfree) hc

namespace Machine

/-! ## Roles -/

theorem mayIssue_iff_listed (i : Instr) (a : Agent) : mayIssue i.op a = true ↔ Listed i a := by
  cases i with
  | stgAppend ch bytes => exact mayIssue_stgAppend_iff a
  | _ => simp [Instr.op, mayIssue, Listed]

theorem consume_ne_outsideRole (op : HeldOp) (finish : State → State) (s : State) :
    consume op finish s ≠ .refused .outsideRole := by
  unfold consume
  split
  · simp
  · split <;> simp

theorem demux_ne_outsideRole {f : Bytes} {s : State} {r : Result} (h : r ≠ .refused .outsideRole) :
    demux f s r ≠ .refused .outsideRole := by
  unfold demux
  split
  · simp
  · split
    · simp
    · exact h

/-- Every operation is tested for its role first, and what follows does not refuse for the role. -/
theorem exec_eq_byRole (i : Instr) (s : State) :
    ∃ r : Result, exec i s = byRole i.op s r ∧ r ≠ .refused .outsideRole := by
  cases i <;> refine ⟨_, rfl, ?_⟩
  case rbPop | rbPopn | fpIter =>
    split
    · simp
    · exact consume_ne_outsideRole _ _ _
  case dmxXc | dmxCc | dmxRow => exact demux_ne_outsideRole nofun
  case dmxRc =>
    refine demux_ne_outsideRole ?_
    split <;> exact nofun
  case rbPushr | rbQuit | cleReset => exact nofun
  all_goals repeat' split
  all_goals exact nofun

theorem exec_outsideRole_iff (i : Instr) (s : State) :
    exec i s = .refused .outsideRole ↔ mayIssue i.op s.issuer = false := by
  obtain ⟨r, hr, hne⟩ := exec_eq_byRole i s
  rw [hr, byRole]
  split <;> simp_all

end Machine

/-- Settles O11: the role is the first thing an operation tests, and the only test answered so. -/
theorem operationOutsideItsRoleIsRefused : Obligations.OperationOutsideItsRoleIsRefused := by
  unfold Obligations.OperationOutsideItsRoleIsRefused
  intro i s
  rw [exec_outsideRole_iff, ← mayIssue_iff_listed, Bool.not_eq_true]

end Sys2Proof
end

section
/-! The scan and the stream (rules R156 to R158): what it emits does not depend on how the stream is cut, valid
messages come out as they went in, and one corrupted trailer costs one message. -/

namespace Sys2Proof

open Sys2Proof.Machine Sys2Proof.Spec

namespace Machine

/-! ## Chunks -/

/-- What two scans of one stream, one after the other, come to. -/
def ScanResult.andThen (r r' : ScanResult) : ScanResult :=
  ⟨r.msgs ++ r'.msgs, r.reports ++ r'.reports, r'.rest⟩

/-- Bytes that come later are scanned behind the bytes an earlier scan kept (rule R156). -/
theorem scan_append (maxLen : Nat) (pb s : Bytes) :
    scan maxLen (pb ++ s) = (scan maxLen pb).andThen (scan maxLen ((scan maxLen pb).rest ++ s)) := by
  induction pb using scan_induction (maxLen := maxLen) with
  | stop pb rest h =>
    rw [scan_stop h, scan_stop_append h]
    rfl
  | message pb m rest h ih =>
    have hs := scanPass_append maxLen pb s (by rw [h]; rfl)
    rw [h] at hs
    rw [scan_message h, scan_message hs, ih]
    rfl
  | report pb cause len rest h ih =>
    have hs := scanPass_append maxLen pb s (by rw [h]; rfl)
    rw [h] at hs
    rw [scan_report h, scan_report hs, ih]
    rfl

/-- The bytes a scan keeps are left alone by a further scan. -/
theorem scan_rest (maxLen : Nat) (pb : Bytes) :
    scan maxLen (scan maxLen pb).rest = ⟨[], [], (scan maxLen pb).rest⟩ := by
  have h := scan_append maxLen pb []
  rw [List.append_nil, List.append_nil] at h
  generalize scan maxLen (scan maxLen pb).rest = again at h ⊢
  obtain ⟨msgs, reports, rest⟩ := again
  obtain rfl := List.self_eq_append_right.1 (congrArg ScanResult.msgs h)
  obtain rfl := List.self_eq_append_right.1 (congrArg ScanResult.reports h)
  obtain rfl := congrArg ScanResult.rest h
  rfl

theorem scanChunks_eq (maxLen : Nat) (b : Bytes) (chunks : List Bytes)
    (hb : scan maxLen b = ⟨[], [], b⟩) :
    scanChunks maxLen b chunks = scan maxLen (b ++ chunks.flatten) := by
  induction chunks generalizing b with
  | nil => rw [List.flatten_nil, List.append_nil, hb, scanChunks]
  | cons chunk chunks ih =>
    rw [List.flatten_cons, ← List.append_assoc, scan_append, scanChunks]
    rw [ih _ (scan_rest ..)]
    rfl

theorem scan_nil (maxLen : Nat) : scan maxLen [] = ⟨[], [], []⟩ := scan_noHeader rfl

/-- The parser started on an empty buffer scans the concatenation of its chunks (rule R156). -/
theorem scanChunks_nil (maxLen : Nat) (chunks : List Bytes) :
    scanChunks maxLen [] chunks = scan maxLen chunks.flatten :=
  scanChunks_eq maxLen [] chunks (scan_nil maxLen)

/-- What a pass takes from the front of the buffer: bytes it passes over, then the message if it emits one. -/
theorem scanPass_message_eq {maxLen : Nat} {pb m rest : Bytes} (h : scanPass maxLen pb = .message m rest) :
    ∃ gap, pb = gap ++ m ++ rest := by
  unfold scanPass at h
  cases hf : findHdr pb with
  | none => simp [hf] at h
  | some k =>
    simp only [hf] at h
    have hp := passAtHeader_of maxLen (pb.drop k)
    rw [h] at hp
    obtain ⟨hp, -⟩ := hp
    exact ⟨pb.take k, by rw [List.append_assoc, ← hp, List.take_append_drop]⟩

theorem scanPass_report_eq {maxLen : Nat} {pb rest : Bytes} {cause : Cause} {len : Int}
    (h : scanPass maxLen pb = .report cause len rest) : ∃ gap, pb = gap ++ rest := by
  unfold scanPass at h
  cases hf : findHdr pb with
  | none => simp [hf] at h
  | some k =>
    simp only [hf] at h
    have hp := passAtHeader_of maxLen (pb.drop k)
    rw [h] at hp
    obtain ⟨rfl, -⟩ := hp
    exact ⟨pb.take (k + 4), by rw [List.drop_drop, List.take_append_drop]⟩

/-- The messages stand in the stream in their order, with gaps before, between and behind them. -/
def PiecesOf (b : Bytes) (msgs : List Bytes) : Prop :=
  ∃ gaps : List Bytes, ∃ tail, gaps.length = msgs.length
    ∧ b = (List.zipWith (· ++ ·) gaps msgs).flatten ++ tail

theorem PiecesOf.nil (b : Bytes) : PiecesOf b [] := ⟨[], b, rfl, rfl⟩

theorem PiecesOf.cons {b : Bytes} {msgs : List Bytes} (gap m : Bytes) (h : PiecesOf b msgs) :
    PiecesOf (gap ++ m ++ b) (m :: msgs) := by
  obtain ⟨gaps, tail, hlen, rfl⟩ := h
  exact ⟨gap :: gaps, tail, by simp [hlen], by simp⟩

theorem PiecesOf.append_left {b : Bytes} {msgs : List Bytes} (gap : Bytes) (h : PiecesOf b msgs) :
    PiecesOf (gap ++ b) msgs := by
  obtain ⟨gaps, tail, hlen, rfl⟩ := h
  cases gaps with
  | nil =>
    obtain rfl := List.length_eq_zero_iff.1 hlen.symm
    exact .nil _
  | cons g gaps =>
    cases msgs with
    | nil => exact .nil _
    | cons m msgs => exact ⟨(gap ++ g) :: gaps, tail, hlen, by simp⟩

/-- The messages of a scan are disjoint pieces of the buffer, in its order (rule R156). -/
theorem scan_msgs_piecesOf (maxLen : Nat) (b : Bytes) : PiecesOf b (scan maxLen b).msgs := by
  induction b using scan_induction (maxLen := maxLen) with
  | stop pb rest h =>
    rw [scan_stop h]
    exact .nil pb
  | message pb m rest h ih =>
    obtain ⟨gap, rfl⟩ := scanPass_message_eq h
    rw [scan_message h]
    exact ih.cons gap m
  | report pb cause len rest h ih =>
    obtain ⟨gap, rfl⟩ := scanPass_report_eq h
    rw [scan_report h]
    exact ih.append_left gap

/-! ## Messages -/

section message
variable {maxLen : Nat} {payload trl : Bytes}

theorem message_length (ht : trl.length = 4) : (message payload trl).length = 12 + payload.length := by
  simp [message, ht]
  omega

/-- A message begins with the header (rule R91). -/
theorem message_take_hdr (b : Bytes) : (message payload trl ++ b).take 4 = hdrBytes := by
  simp [message, hdrBytes_eq]

/-- The length field of a message is its length (rules R91, R93). -/
theorem message_lengthField (h : 12 + payload.length < 2 ^ 31) (b : Bytes) :
    sbe32 (slice (message payload trl ++ b) 4 8) = ((12 + payload.length : Nat) : Int) := by
  have hfield : slice (message payload trl ++ b) 4 8 = encBe 4 (12 + payload.length) := by
    have hlen := encBe_length 4 (12 + payload.length)
    simp [slice, message, hlen]
  rw [hfield, sbe32_encBe h]

/-- The last four bytes of a message are its trailer (rule R91). -/
theorem message_trailer (ht : trl.length = 4) (b : Bytes) :
    slice (message payload trl ++ b) (12 + payload.length - 4) (12 + payload.length) = trl := by
  have hlen : ([0x49#8, 0x96#8, 0x02#8, 0xD2#8] ++ encBe 4 (12 + payload.length) ++ payload).length
      = 12 + payload.length - 4 := by
    simp
    omega
  have hw : 12 + payload.length - (12 + payload.length - 4) = trl.length := by omega
  rw [slice, message, List.append_assoc, hw, ← hlen, List.drop_left, List.take_left]

variable (hmax : maxLen ≤ 2 ^ 31 - 1) (hlen : 12 + payload.length ≤ maxLen)
include hmax hlen

/-- A message whose trailer is right is emitted whole (rule R151). -/
theorem scan_message_append (b : Bytes) :
    scan maxLen (message payload trailer ++ b)
      = ⟨message payload trailer :: (scan maxLen b).msgs, (scan maxLen b).reports,
          (scan maxLen b).rest⟩ := by
  have hl : (message payload trailer).length = 12 + payload.length := message_length rfl
  rw [scan_goodTrailer (message_take_hdr b) (by simp [hl]; omega) (message_lengthField (by omega) b)
    (by omega) hlen (by simp [hl]), ← hl, List.take_left, List.drop_left]
  rw [message_trailer rfl]
  exact trailer_eq_trlBytes

/-- A message whose trailer is wrong is reported, and all but its header is scanned again (rule R151). -/
theorem scan_badMessage_append {bad : Bytes} (ht : bad.length = 4) (hne : bad ≠ trailer) (b : Bytes) :
    scan maxLen (message payload bad ++ b)
      = ⟨(scan maxLen ((message payload bad ++ b).drop 4)).msgs,
          (.badTrailer, ((12 + payload.length : Nat) : Int))
            :: (scan maxLen ((message payload bad ++ b).drop 4)).reports,
          (scan maxLen ((message payload bad ++ b).drop 4)).rest⟩ := by
  have hl : (message payload bad).length = 12 + payload.length := message_length ht
  refine scan_badTrailer (message_take_hdr b) (by simp [hl]; omega) (message_lengthField (by omega) b)
    (by omega) hlen (by simp [hl]) ?_
  rw [message_trailer ht, ← trailer_eq_trlBytes]
  exact hne

end message

/-- Valid messages in a row are emitted one by one (rule R157). -/
theorem scan_validMessages {maxLen : Nat} {msgs : List Bytes} (hmax : maxLen ≤ 2 ^ 31 - 1)
    (h : ∀ m ∈ msgs, ValidMessage maxLen m) (b : Bytes) :
    scan maxLen (msgs.flatten ++ b)
      = ⟨msgs ++ (scan maxLen b).msgs, (scan maxLen b).reports, (scan maxLen b).rest⟩ := by
  induction msgs with
  | nil => rfl
  | cons m msgs ih =>
    obtain ⟨⟨payload, rfl, hlen⟩, htail⟩ := List.forall_mem_cons.1 h
    rw [List.flatten_cons, List.append_assoc, scan_message_append hmax hlen, ih htail]
    rfl

theorem scan_validMessages_nil {maxLen : Nat} {msgs : List Bytes} (hmax : maxLen ≤ 2 ^ 31 - 1)
    (h : ∀ m ∈ msgs, ValidMessage maxLen m) : scan maxLen msgs.flatten = ⟨msgs, [], []⟩ := by
  have hscan := scan_validMessages hmax h []
  rwa [List.append_nil, scan_nil, List.append_nil] at hscan

/-- The rest of a corrupted message, in which no header begins, is passed over up to the next message (rule
R158). -/
theorem scan_rest_of_badMessage {maxLen : Nat} {after : List Bytes} {b : Bytes} (hmax : maxLen ≤ 2 ^ 31 - 1)
    (hafter : ∀ m ∈ after, ValidMessage maxLen m)
    (hno : ∀ i < b.length, ((b ++ after.flatten).drop i).take 4 ≠ hdrBytes) :
    (scan maxLen (b ++ after.flatten)).msgs = after ∧ (scan maxLen (b ++ after.flatten)).reports = [] := by
  cases after with
  | nil =>
    rw [List.flatten_nil, List.append_nil] at hno ⊢
    rw [scan_noHeader ((noHeader_iff b).1 hno)]
    exact ⟨rfl, rfl⟩
  | cons m after =>
    have hlong : 3 ≤ (m :: after).flatten.length := by
      obtain ⟨⟨payload, rfl, -⟩, -⟩ := List.forall_mem_cons.1 hafter
      rw [List.flatten_cons, List.length_append, message_length rfl]
      omega
    rw [scan_skip (by rw [List.length_append]; omega) hno, List.drop_left, scan_validMessages_nil hmax hafter]
    exact ⟨rfl, rfl⟩

end Machine

/-- Settles O30: a scan goes on where the one before it stopped (`scan_append`), and each pass takes its message
from the front of what is left (`scan_msgs_piecesOf`). -/
theorem scanIgnoresChunking : Obligations.ScanIgnoresChunking := by
  unfold Obligations.ScanIgnoresChunking
  intro maxLen
  refine ⟨?_, scanChunks_nil maxLen, scan_msgs_piecesOf maxLen⟩
  rintro b s1 s2 r1 r2 rfl rfl
  exact scan_append maxLen (b ++ s1) s2

/-- Settles O31: the chunks do not matter (`scanChunks_nil`), and the scan emits message after message
(`scan_validMessages`). -/
theorem framingRoundTrip : Obligations.FramingRoundTrip := by
  unfold Obligations.FramingRoundTrip
  intro maxLen msgs chunks hmax hmsgs hchunks
  rw [scanChunks_nil, hchunks, scan_validMessages_nil hmax hmsgs]

/-- Settles O32: after the messages before it the corrupted one is reported, and its rest is passed over. -/
theorem resyncAfterOneCorruptedTrailer : Obligations.ResyncAfterOneCorruptedTrailer := by
  unfold Obligations.ResyncAfterOneCorruptedTrailer
  intro maxLen before after chunks payload bad hmax hbefore hafter hlen ht hne hno hchunks
  have hl : (message payload bad).length = 12 + payload.length := message_length ht
  have hdrop : (message payload bad ++ after.flatten).drop 4 = (message payload bad).drop 4 ++ after.flatten :=
    List.drop_append_of_le_length (by omega)
  have hskip := scan_rest_of_badMessage (b := (message payload bad).drop 4) hmax hafter fun i hi => by
    rw [List.length_drop] at hi
    rw [← hdrop, List.drop_drop, hdrBytes_eq]
    exact hno (4 + i) (by omega) (by omega)
  rw [scanChunks_nil, hchunks, List.append_assoc, scan_validMessages hmax hbefore,
    scan_badMessage_append hmax hlen ht hne, hdrop, hskip.1, hskip.2]
  exact ⟨rfl, rfl⟩

end Sys2Proof
end

section
/-! What every operation can do, said once (`exec_effect`), and the laws of all operations that follow: the
frame of each unit, errors, and the streams (rules R45, R238, R242, R258). -/

namespace Sys2Proof

open Sys2Proof.Machine Sys2Proof.Spec

namespace Machine

/-- What an operation that answers a next state made of the state: held, answered without a change, or answered
with a change of one unit and of its own streams. -/
inductive Effect (i : Instr) (s : State) : State → Prop
  /-- Held until its condition is true. -/
  | hold (op : HeldOp) (hi : i.op ∈ [.rbPop, .rbPopn, .fpIter]) (hn : s.held = none) :
      Effect i s (s.withHeld (some ⟨s.issuer, op⟩))
  /-- An error of which nothing but the response remains. -/
  | error (status : Status) (value : Word) (hok : status ≠ .ok) (hfull : status ≠ .full)
      (hclosed : i ≠ .fpIter ∨ status ≠ .closed) : Effect i s (s.respond status value [])
  /-- A push into a full ring. -/
  | full (n : Word) (hi : i.op = .rbPush) :
      Effect i s ((s.withRing { s.rb with lost := n }).respond .full 0#32 [])
  /-- An iteration on a closed ring. -/
  | halt (hi : i = .fpIter) (hq : s.rb.q = []) (hquit : s.rb.quit = true) :
      Effect i s ((s.withParser { s.fp with state := .halted }).respond .closed 0#32 [])
  /-- A success without a change. -/
  | read (value : Word) : Effect i s (s.respond .ok value [])
  /-- A success of a ring operation; only the pops return data. -/
  | ring (r : Ring) (value : Word) (data : Bytes)
      (hi : i.op ∈ [.rbPush, .rbPushr, .rbPop, .rbPopn, .rbQuit, .rbReset])
      (hdata : i.op ∉ [.rbPop, .rbPopn] → data = []) : Effect i s ((s.withRing r).respond .ok value data)
  /-- A success of `FP.START` or `FP.RESET`. -/
  | parser (p : Parser) (hi : i.op ∈ [.fpStart, .fpReset]) :
      Effect i s ((s.withParser p).respond .ok 0#32 [])
  /-- An iteration on a ring with elements. -/
  | iterate (r : ScanResult) (hi : i = .fpIter) :
      Effect i s ((((s.withRing { s.rb with q := [] }).withParser (s.fp.afterScan r)).withOut
        (s.out.afterScan r)).respond .ok 0#32 [])
  /-- A success of a configuration, session or staging operation. -/
  | layout (l : Layout) (hi : i.op ∈ [.csrWr, .cfgCommit, .cleReset, .stgAppend])
      (hcfg : i.op ≠ .csrWr → l.cfg = s.cle.cfg) : Effect i s ((s.withLayout l).respond .ok 0#32 [])
  /-- A frame built by a multiplex operation. -/
  | mux (frame : Bytes) (stg : List Bytes) (sfid value : Word)
      (hi : i.op ∈ [.muxXc, .muxCc, .muxRow, .muxRc]) :
      Effect i s (((s.withOut (s.out.emitFrame frame)).withLayout
        { s.cle with stg := stg, sfidCur := sfid }).respond .ok value [])
  /-- A frame taken by a demultiplex operation. -/
  | dmx (dout : List Bytes) (value : Word) (hi : i.op ∈ [.dmxXc, .dmxCc, .dmxRow, .dmxRc])
      (hgrow : ∀ c, channel s.out.dout c <+: channel dout c) :
      Effect i s ((s.withOut { s.out with dout := dout }).respond .ok value [])
  /-- A payload forwarded by the idle-frame detector. -/
  | forward (p : Bytes) (hi : i.op = .idleChk) :
      Effect i s ((s.withOut (s.out.emitForward p)).respond .ok 0#32 [])

section effect
variable {s t : State}

/-- What a consumer operation does once its condition is true. -/
theorem HeldOp.finish_effect (op : HeldOp) (hr : op.ready s.rb = true) :
    Effect (heldInstr op) s (op.finish s) := by
  cases op with
  | pop =>
    obtain ⟨-, h⟩ | ⟨-, h⟩ := finishPop_cases s <;> rw [HeldOp.finish, h]
    · exact .ring _ _ _ (by decide) (by simp [Instr.op])
    · exact .error _ _ (by decide) (by decide) (.inl nofun)
  | popn min max =>
    obtain ⟨-, k, -, h⟩ | ⟨-, h⟩ := finishPopn_cases min max s <;> rw [HeldOp.finish, h]
    · exact .ring _ _ _ (by simp [Instr.op]) (by simp [Instr.op])
    · exact .error _ _ (by decide) (by decide) (.inl nofun)
  | iter =>
    obtain ⟨hq, h⟩ | ⟨-, r, -, h⟩ := finishIter_cases s <;> rw [HeldOp.finish, h]
    · exact .halt rfl hq (by simpa [HeldOp.ready, hq] using hr)
    · exact .iterate r rfl

theorem DemuxNext.effect {i : Instr} (h : DemuxNext s t) (hi : i.op ∈ [.dmxXc, .dmxCc, .dmxRow, .dmxRc]) :
    Effect i s t := by
  have hne : i ≠ .fpIter := by rintro rfl; simp [Instr.op] at hi
  obtain ⟨status, value, hok, hfull, rfl⟩ | ⟨dout, value, rfl, -, hgrow⟩ := h
  · exact .error _ _ hok hfull (.inl hne)
  · exact .dmx dout value hi hgrow

theorem MuxNext.effect {i : Instr} (h : MuxNext s t) (hi : i.op ∈ [.muxXc, .muxCc, .muxRow, .muxRc]) :
    Effect i s t := by
  have hne : i ≠ .fpIter := by rintro rfl; simp [Instr.op] at hi
  obtain ⟨status, value, hok, hfull, rfl⟩ | ⟨-, frame, stg, value, rfl, -⟩ := h
  · exact .error _ _ hok hfull (.inl hne)
  · exact .mux frame stg _ value hi

/-- Everything an operation can do. -/
theorem exec_effect {i : Instr} (h : exec i s = .next t) : Effect i s t := by
  cases i with
  | csrRd addr =>
    obtain ⟨-, rfl⟩ | ⟨r, -, rfl⟩ := execCsrRd_next h
    · exact .error _ _ (by decide) (by decide) (.inl nofun)
    · exact .read _
  | csrWr addr value =>
    obtain ⟨-, rfl | ⟨-, rfl⟩ | ⟨-, r, cfg, -, -, rfl⟩⟩ := execCsrWr_next h
    · exact .error _ _ (by decide) (by decide) (.inl nofun)
    · exact .error _ _ (by decide) (by decide) (.inl nofun)
    · exact .layout _ (by simp [Instr.op]) (by simp [Instr.op])
  | rbPush item =>
    obtain ⟨-, ⟨-, rfl⟩ | ⟨-, rfl⟩⟩ := execRbPush_next h
    · exact .ring _ _ _ (by simp [Instr.op]) fun _ => rfl
    · exact .full _ rfl
  | rbPushr items =>
    obtain ⟨-, k, -, rfl⟩ := execRbPushr_next h
    exact .ring _ _ _ (by simp [Instr.op]) fun _ => rfl
  | rbPop =>
    obtain ⟨-, -, hn, ⟨hr, rfl⟩ | ⟨-, rfl⟩⟩ := execRbPop_next h
    · exact HeldOp.pop.finish_effect hr
    · exact .hold _ (by decide) hn
  | rbPopn min max =>
    obtain ⟨-, -, hn, ⟨hr, rfl⟩ | ⟨-, rfl⟩⟩ := execRbPopn_next h
    · exact (HeldOp.popn min max).finish_effect hr
    · exact .hold _ (by simp [Instr.op]) hn
  | rbQuit =>
    obtain rfl := execRbQuit_next h
    exact .ring _ _ _ (by decide) fun _ => rfl
  | rbReset =>
    obtain ⟨-, ⟨-, rfl⟩ | ⟨-, rfl⟩⟩ := execRbReset_next h
    · exact .error _ _ (by decide) (by decide) (.inl nofun)
    · exact .ring _ _ _ (by decide) fun _ => rfl
  | fpStart =>
    obtain ⟨-, -, rfl⟩ := execFpStart_next h
    exact .parser _ (by decide)
  | fpIter =>
    obtain ⟨-, ⟨-, -, rfl⟩ | ⟨-, hn, ⟨hr, rfl⟩ | ⟨-, rfl⟩⟩⟩ := execFpIter_next h
    · exact .error _ _ (by decide) (by decide) (.inr (by decide))
    · exact HeldOp.iter.finish_effect hr
    · exact .hold _ (by decide) hn
  | fpReset =>
    obtain ⟨-, ⟨-, rfl⟩ | ⟨-, rfl⟩⟩ := execFpReset_next h
    · exact .error _ _ (by decide) (by decide) (.inl nofun)
    · exact .parser _ (by decide)
  | cfgCommit =>
    obtain ⟨-, ⟨-, rfl⟩ | ⟨n, -, rfl⟩ | ⟨-, -, rfl⟩⟩ := execCfgCommit_next h
    · exact .error _ _ (by decide) (by decide) (.inl nofun)
    · exact .error _ _ (by decide) (by decide) (.inl nofun)
    · exact .layout _ (by decide) fun _ => rfl
  | cleReset =>
    obtain ⟨-, rfl⟩ := execCleReset_next h
    exact .layout _ (by decide) fun _ => rfl
  | stgAppend ch bytes =>
    obtain ⟨-, ⟨status, hok, hfull, rfl⟩ | ⟨-, -, -, rfl⟩⟩ := execStgAppend_next h
    · exact .error _ _ hok hfull (.inl nofun)
    · exact .layout _ (by simp [Instr.op]) fun _ => rfl
  | dmxXc frame => exact (execDmxXc_next h).2.effect (by simp [Instr.op])
  | dmxCc frame => exact (execDmxCc_next h).2.effect (by simp [Instr.op])
  | dmxRow frame => exact (execDmxRow_next h).2.effect (by simp [Instr.op])
  | dmxRc frame => exact (execDmxRc_next h).2.effect (by simp [Instr.op])
  | muxXc => exact (execMuxXc_next h).2.effect (by decide)
  | muxCc => exact (execMuxCc_next h).2.effect (by decide)
  | muxRow => exact (execMuxRow_next h).2.effect (by decide)
  | muxRc => exact (execMuxRc_next h).2.effect (by decide)
  | idleChk payload =>
    obtain ⟨-, ⟨-, rfl⟩ | ⟨-, rfl⟩⟩ := execIdleChk_next h
    · exact .read _
    · exact .forward payload rfl

/-! ## The frame -/

/-- What an operation leaves as it was, unit by unit and stream by stream. -/
structure Frame (i : Instr) (s t : State) : Prop where
  par : t.par = s.par
  issuer : t.issuer = s.issuer
  events : t.events = s.events
  rb : i.op ∉ [.rbPush, .rbPushr, .rbPop, .rbPopn, .rbQuit, .rbReset, .fpIter] → t.rb = s.rb
  fp : i.op ∉ [.fpStart, .fpIter, .fpReset] → t.fp = s.fp
  cle : i.op ∉ [.csrWr, .cfgCommit, .cleReset, .stgAppend, .muxXc, .muxCc, .muxRow, .muxRc] →
    t.cle = s.cle
  cfg : i.op ≠ .csrWr → t.cle.cfg = s.cle.cfg
  held : i.op ∉ [.rbPop, .rbPopn, .fpIter] → t.held = s.held
  parsed : i.op ≠ .fpIter → t.out.msgOut = s.out.msgOut ∧ t.out.fpLog = s.out.fpLog
  frmOut : i.op ∉ [.muxXc, .muxCc, .muxRow, .muxRc] → t.out.frmOut = s.out.frmOut
  dout : i.op ∉ [.dmxXc, .dmxCc, .dmxRow, .dmxRc] → t.out.dout = s.out.dout
  fwd : i.op ≠ .idleChk → t.out.fwd = s.out.fwd
  answered : (t.responses = s.responses ∧ s.held = none ∧ t.held ≠ none)
    ∨ (t.held = s.held ∧ ∃ r, r.agent = s.issuer ∧ (i.op ∉ [.rbPop, .rbPopn] → r.data = [])
      ∧ t.responses = s.responses ++ [r])

/-- What is claimed outside a larger list holds vacuously within a smaller one. -/
theorem absurd_of_subset {o : Op} {l l' : List Op} {p : Prop} (h : o ∈ l) (hsub : ∀ x ∈ l, x ∈ l')
    (hn : o ∉ l') : p := absurd (hsub o h) hn

/-- An answer alone changes no unit and no stream. -/
theorem frame_respond (i : Instr) (s : State) (status : Status) (value : Word) :
    Frame i s (s.respond status value []) where
  par := rfl
  issuer := rfl
  events := rfl
  rb _ := rfl
  fp _ := rfl
  cle _ := rfl
  cfg _ := rfl
  held _ := rfl
  parsed _ := ⟨rfl, rfl⟩
  frmOut _ := rfl
  dout _ := rfl
  fwd _ := rfl
  answered := .inr ⟨rfl, _, rfl, fun _ => rfl, rfl⟩

/-- Beside the answer an operation changes the unit, the held set or the streams of its own constructor. -/
theorem Effect.frame {i : Instr} (h : Effect i s t) : Frame i s t := by
  cases h with
  | hold op hi hn =>
    exact { frame_respond i s .ok 0#32 with
      held := absurd hi
      answered := .inl ⟨rfl, hn, Option.some_ne_none _⟩ }
  | error status value => exact frame_respond i s status value
  | full n hi => exact { frame_respond i s .full 0#32 with rb := by simp [hi] }
  | halt hi => exact { frame_respond i s .closed 0#32 with fp := by simp [hi, Instr.op] }
  | read value => exact frame_respond i s .ok value
  | ring r value data hi hdata =>
    exact { frame_respond i s .ok value with
      rb := absurd_of_subset hi (by decide)
      answered := .inr ⟨rfl, _, rfl, hdata, rfl⟩ }
  | parser p hi =>
    exact { frame_respond i s .ok 0#32 with
      fp := absurd_of_subset hi (by decide) }
  | iterate r hi =>
    exact { frame_respond i s .ok 0#32 with
      rb := by simp [hi, Instr.op]
      fp := by simp [hi, Instr.op]
      parsed := by simp [hi, Instr.op] }
  | layout l hi hcfg =>
    exact { frame_respond i s .ok 0#32 with
      cle := absurd_of_subset hi (by decide)
      cfg := hcfg }
  | mux frame stg sfid value hi =>
    exact { frame_respond i s .ok value with
      cle := absurd_of_subset hi (by decide)
      frmOut := absurd hi }
  | dmx dout value hi => exact { frame_respond i s .ok value with dout := absurd hi }
  | forward p hi => exact { frame_respond i s .ok 0#32 with fwd := absurd hi }

theorem exec_frame {i : Instr} (h : exec i s = .next t) : Frame i s t := (exec_effect h).frame

/-! ## The streams -/

/-- Every stream of `o'` begins with the same stream of `o`. -/
structure Streams.Grows (o o' : Streams) : Prop where
  msgOut : o.msgOut <+: o'.msgOut
  fpLog : o.fpLog <+: o'.fpLog
  frmOut : o.frmOut <+: o'.frmOut
  fwd : o.fwd <+: o'.fwd
  dout (c : Nat) : channel o.dout c <+: channel o'.dout c

theorem Streams.Grows.refl (o : Streams) : o.Grows o where
  msgOut := List.prefix_rfl
  fpLog := List.prefix_rfl
  frmOut := List.prefix_rfl
  fwd := List.prefix_rfl
  dout _ := List.prefix_rfl

/-- No operation takes anything back from a stream (rule R45). -/
theorem Effect.streams_grow {i : Instr} (h : Effect i s t) : s.out.Grows t.out := by
  cases h with
  | iterate r => exact { Streams.Grows.refl s.out with
      msgOut := List.prefix_append ..
      fpLog := List.prefix_append .. }
  | mux frame => exact { Streams.Grows.refl s.out with frmOut := List.prefix_append .. }
  | dmx dout value hi hgrow => exact { Streams.Grows.refl s.out with dout := hgrow }
  | forward p => exact { Streams.Grows.refl s.out with fwd := List.prefix_append .. }
  | _ => exact .refl s.out

/-- Nor does it take a response back (rule R9). -/
theorem Frame.responses_grow {i : Instr} (h : Frame i s t) : s.responses <+: t.responses := by
  obtain ⟨hr, -⟩ | ⟨-, r, -, -, hr⟩ := h.answered <;> rw [hr]
  · exact List.prefix_append ..

/-- The turn of the consumer does nothing, or what a consumer operation can do with nothing held. -/
theorem consumerTurn_effect (h : consumerTurn s = .next t) :
    t = s ∨ ∃ op a, Effect (heldInstr op) ((s.withHeld none).withIssuer a) t := by
  obtain ⟨hd, -, ⟨hr, rfl⟩ | ⟨-, rfl⟩⟩ | ⟨hn, ⟨-, h⟩ | ⟨-, rfl⟩⟩ := consumerTurn_next h
  · exact .inr ⟨hd.op, hd.agent, hd.op.finish_effect hr⟩
  · exact .inl rfl
  · have same : s.withHeld none = s := by rw [← hn]; rfl
    exact .inr ⟨.iter, .K, by rw [same]; exact exec_effect h⟩
  · exact .inl rfl

end effect
end Machine

/-- Settles O53: the frame of an operation, field by field. -/
theorem operationsKeepToTheirUnit : Obligations.OperationsKeepToTheirUnit := by
  unfold Obligations.OperationsKeepToTheirUnit
  intro i s t h
  have f := exec_frame h
  refine ⟨f.par, f.issuer, f.events, f.rb, f.fp, f.cle, f.cfg, f.held, f.parsed, f.frmOut, f.dout, f.fwd,
    ?_⟩
  obtain h | ⟨hheld, r, hagent, -, hr⟩ := f.answered
  · exact .inl h
  · exact .inr ⟨hheld, r, hagent, hr⟩

/-- Settles O52: of the effects of an operation, those whose response is not OK are an error, a push into a full
ring and the halt. -/
theorem errorsLeaveTheStateAlone : Obligations.ErrorsLeaveTheStateAlone := by
  unfold Obligations.ErrorsLeaveTheStateAlone
  intro i s t r h hr hok
  have response {u : State} {x : Response} (hu : u.responses = s.responses ++ [x])
      (ht : u.responses = s.responses ++ [r]) : x = r := by simpa [hu] using ht
  cases exec_effect h with
  | error status value _ hfull hclosed =>
    obtain rfl := response rfl hr
    exact ⟨(absurd · hfull), fun _ hi hc => (hclosed.elim (· hi) (· hc)).elim, fun _ _ => rfl⟩
  | full n hi =>
    obtain rfl := response rfl hr
    exact ⟨fun _ => ⟨n, rfl⟩, (absurd rfl ·), (absurd rfl ·)⟩
  | halt hi =>
    obtain rfl := response rfl hr
    exact ⟨nofun, fun _ _ _ => rfl, fun _ hn => absurd ⟨hi, rfl⟩ hn⟩
  | hold => exact absurd hr (by simp)
  | _ =>
    obtain rfl := response rfl hr
    exact absurd rfl hok

/-- Settles O54: a step is an operation's effect, an answer to an illegal word, or nothing. -/
theorem streamsOnlyGrow : Obligations.StreamsOnlyGrow := by
  unfold Obligations.StreamsOnlyGrow
  intro s t hnr h
  suffices H : s.out.Grows t.out ∧ s.responses <+: t.responses ∧ t.par = s.par by
    obtain ⟨g, hresp, hpar⟩ := H
    exact ⟨g.msgOut, g.fpLog, g.frmOut, g.fwd, g.dout, hresp, hpar⟩
  obtain ⟨rest, hev, -⟩ | ⟨a, c, rest, i, -, -, -, h⟩ | ⟨a, c, rest, why, -, -, rfl⟩ |
    ⟨rest, -, h⟩ := step_next h
  · exact absurd ⟨rest, hev⟩ hnr
  · have e := exec_effect h
    exact ⟨e.streams_grow, e.frame.responses_grow, e.frame.par⟩
  · exact ⟨.refl _, List.prefix_append .., rfl⟩
  · obtain rfl | ⟨op, a, e⟩ := consumerTurn_effect h
    · exact ⟨.refl _, List.prefix_rfl, rfl⟩
    · exact ⟨e.streams_grow, e.frame.responses_grow, e.frame.par⟩

end Sys2Proof
end

section
/-! The invariant (rules R22, R31, R34, R35, R42, R172, R190): it holds after reset, and every step keeps it. -/

namespace Sys2Proof

open Sys2Proof.Machine Sys2Proof.Spec

namespace Machine

/-! ## The parse buffer (rule R31) -/

theorem passAtHeader_stop_canonical {maxLen : Nat} {b rest : Bytes} (hb : b.take 4 = hdrBytes)
    (h : passAtHeader maxLen b = .stop rest) : CanonicalBuffer maxLen rest := by
  have hrest := passAtHeader_of maxLen b
  rw [h] at hrest
  obtain rfl : rest = b := hrest
  by_cases h8 : rest.length < 8
  · exact .inr (.inl ⟨hb, h8⟩)
  · rw [passAtHeader, if_neg h8] at h
    dsimp only at h
    split at h
    · cases h
    · rename_i hlen
      split at h
      · simp only [minLen] at hlen
        exact .inr (.inr ⟨hb, by omega, by omega, by omega, by omega⟩)
      · split at h <;> cases h

/-- What a scan keeps is in canonical form. -/
theorem scan_rest_canonical (maxLen : Nat) (b : Bytes) : CanonicalBuffer maxLen (scan maxLen b).rest := by
  induction b using scan_induction (maxLen := maxLen) with
  | stop pb rest h =>
    rw [scan_stop h]
    unfold scanPass at h
    cases hf : findHdr pb with
    | none =>
      rw [hf] at h
      obtain rfl : lastBytes (min 3 pb.length) pb = rest := by simpa using h
      refine .inl ⟨fun i _ => ?_, by simp [lastBytes]; omega⟩
      rw [lastBytes, List.drop_drop]
      exact (findHdr_eq_none_iff pb).1 hf _
    | some k =>
      rw [hf] at h
      exact passAtHeader_stop_canonical ((findHdr_eq_some_iff pb k).1 hf).1 h
  | message pb m rest h ih => rwa [scan_message h]
  | report pb cause len rest h ih => rwa [scan_report h]

/-- The three forms differ in their length: at most 3, from 4 to 7, from 8 on. -/
theorem four_le_of_formB {b : Bytes} (h : BufferFormB b) : 4 ≤ b.length := length_of_take_hdr h.1

theorem canonicalBuffer_exactly_one {maxLen : Nat} {b : Bytes} (h : CanonicalBuffer maxLen b) :
    (BufferFormA b ∧ ¬ BufferFormB b ∧ ¬ BufferFormC maxLen b)
      ∨ (¬ BufferFormA b ∧ BufferFormB b ∧ ¬ BufferFormC maxLen b)
      ∨ (¬ BufferFormA b ∧ ¬ BufferFormB b ∧ BufferFormC maxLen b) := by
  have notAB (ha : BufferFormA b) (hb : BufferFormB b) : False := by
    have := four_le_of_formB hb
    have := ha.2
    omega
  have notAC (ha : BufferFormA b) (hc : BufferFormC maxLen b) : False := by
    have := ha.2
    have := hc.2.1
    omega
  have notBC (hb : BufferFormB b) (hc : BufferFormC maxLen b) : False := by
    have := hb.2
    have := hc.2.1
    omega
  rcases h with ha | hb | hc
  · exact .inl ⟨ha, notAB ha, notAC ha⟩
  · exact .inr (.inl ⟨(notAB · hb), hb, notBC hb⟩)
  · exact .inr (.inr ⟨(notAC · hc), (notBC · hc), hc⟩)

theorem canonicalBuffer_length_lt {maxLen : Nat} {b : Bytes} (hmax : 12 ≤ maxLen)
    (h : CanonicalBuffer maxLen b) : b.length < maxLen := by
  rcases h with ⟨-, h⟩ | ⟨-, h⟩ | ⟨-, -, -, hle, hlt⟩ <;> omega

/-! ## The count and the last cause after a scan (rule R152) -/

theorem afterScan_errcnt (p : Parser) (r : ScanResult) :
    (p.afterScan r).errcnt = countUp p.errcnt r.reports.length := by
  apply BitVec.eq_of_toNat_eq
  rw [Parser.afterScan, foldl_satInc_toNat, countUp, BitVec.toNat_ofNat, Nat.mod_eq_of_lt (by omega)]

theorem afterScan_lasterr (p : Parser) (r : ScanResult) :
    (p.afterScan r).lasterr = (r.reports.getLast?.map (fun e => e.1)).or p.lasterr := by
  unfold Parser.afterScan
  induction r.reports using List.reverseRecOn with
  | nil => rfl
  | append_singleton reports e ih => simp

theorem countUp_eq_zero_iff (w : Word) (k : Nat) : countUp w k = 0#32 ↔ w = 0#32 ∧ k = 0 := by
  have := w.isLt
  rw [countUp, ← BitVec.toNat_inj, ← BitVec.toNat_inj, BitVec.toNat_ofNat, BitVec.toNat_ofNat]
  omega

/-- A scan sets a last cause exactly if it counts. -/
theorem afterScan_lasterr_iff {p : Parser} (r : ScanResult) (h : p.lasterr = none ↔ p.errcnt = 0#32) :
    (p.afterScan r).lasterr = none ↔ (p.afterScan r).errcnt = 0#32 := by
  rw [afterScan_errcnt, afterScan_lasterr, countUp_eq_zero_iff, Option.or_eq_none_iff, Option.map_eq_none_iff,
    List.getLast?_eq_none_iff, List.length_eq_zero_iff, h, and_comm]

/-! ## One part of the state at a time -/

theorem forall_mem_iff_channel {l : List Bytes} {P : Bytes → Prop} :
    (∀ b ∈ l, P b) ↔ ∀ c < l.length, P (channel l c) := by
  rw [List.forall_mem_iff_forall_getElem]
  refine forall₂_congr fun c hc => ?_
  rw [channel, List.getD_eq_getElem _ _ hc]

section inv
variable {s t : State} (hs : s.Inv)

/-- A response is no part of what the invariant speaks of. -/
theorem State.inv_respond {status : Status} {value : Word} {data : Bytes} :
    (s.respond status value data).Inv ↔ s.Inv := Iff.rfl

include hs

/-! The parts of the invariant. -/

theorem State.Inv.par_ok : s.par.Ok := hs.1
theorem State.Inv.ring : s.RingInv := hs.2.1
theorem State.Inv.parser : s.ParserInv := hs.2.2.1
theorem State.Inv.config : s.ConfigInv := hs.2.2.2.1
theorem State.Inv.staging : s.StagingInv := hs.2.2.2.2.1
theorem State.Inv.dout_length : s.out.dout.length = s.par.nchMax := hs.2.2.2.2.2.1
theorem State.Inv.heldOk : s.HeldInv := hs.2.2.2.2.2.2

/-! What a change of one part has to show. -/

theorem State.Inv.withRing {r : Ring} (h : r.q.length ≤ s.par.ringCap) : (s.withRing r).Inv := by
  obtain ⟨hpar, -, hparser, hconfig, hstaging, hdout, hheld⟩ := hs
  exact ⟨hpar, h, hparser, hconfig, hstaging, hdout, hheld⟩

theorem State.Inv.withParser {p : Parser} (hbuf : CanonicalBuffer s.par.maxLen p.pb)
    (herr : p.lasterr = none ↔ p.errcnt = 0#32) (h : ∀ hd ∈ s.held, HeldOk hd p.state) :
    (s.withParser p).Inv := by
  obtain ⟨hpar, hring, -, hconfig, hstaging, hdout, -⟩ := hs
  exact ⟨hpar, hring, ⟨hbuf, herr⟩, hconfig, hstaging, hdout, h⟩

theorem State.Inv.withLayout {l : Layout} (hconfig : (s.withLayout l).ConfigInv)
    (hstaging : (s.withLayout l).StagingInv) : (s.withLayout l).Inv := by
  obtain ⟨hpar, hring, hparser, -, -, hdout, hheld⟩ := hs
  exact ⟨hpar, hring, hparser, hconfig, hstaging, hdout, hheld⟩

theorem State.Inv.withOut {o : Streams} (h : o.dout.length = s.par.nchMax) : (s.withOut o).Inv := by
  obtain ⟨hpar, hring, hparser, hconfig, hstaging, -, hheld⟩ := hs
  exact ⟨hpar, hring, hparser, hconfig, hstaging, h, hheld⟩

theorem State.Inv.withHeld {h : Option Held} (hh : ∀ hd ∈ h, HeldOk hd s.fp.state) :
    (s.withHeld h).Inv := by
  obtain ⟨hpar, hring, hparser, hconfig, hstaging, hdout, -⟩ := hs
  exact ⟨hpar, hring, hparser, hconfig, hstaging, hdout, hh⟩

end inv

/-! ## The staging buffers (rules R34, R35) -/

/-- The staging buffer of channel `c` is within `STG_CAP`, and empty if the channel is not in use. -/
def StagedOk (par : Params) (l : Layout) (c : Nat) : Prop :=
  (∀ cap, par.stgCap = some cap → (channel l.stg c).length ≤ cap)
    ∧ (l.valid = false ∨ l.cfg.n ≤ c → channel l.stg c = [])

/-- The invariant of the staging buffers, channel by channel. -/
theorem stagingInv_iff (s : State) :
    s.StagingInv ↔ s.cle.stg.length = s.par.nchMax ∧ ∀ c < s.cle.stg.length, StagedOk s.par s.cle c := by
  have within (b : Bytes) : s.par.stgCap.all (fun cap => decide (b.length ≤ cap)) = true
      ↔ ∀ cap, s.par.stgCap = some cap → b.length ≤ cap := by
    simp [Option.all_eq_true]
  simp only [State.StagingInv, within, forall_mem_iff_channel (l := s.cle.stg)]
  constructor
  · rintro ⟨hlen, hcap, hempty⟩
    exact ⟨hlen, fun c hc => ⟨hcap c hc, hempty c hc⟩⟩
  · rintro ⟨hlen, h⟩
    exact ⟨hlen, fun c hc => (h c hc).1, fun c hc => (h c hc).2⟩

theorem stagedOk_of_nil {par : Params} {l : Layout} {c : Nat} (h : channel l.stg c = []) :
    StagedOk par l c := ⟨by simp [h], fun _ => h⟩

/-- Taking bytes from the front of staging buffers leaves them in order. -/
theorem StagedOk.takeNeeded {par : Params} {l : Layout} {c : Nat} (h : StagedOk par l c) (need : Nat → Nat)
    (sfid : Word) :
    StagedOk par { l with stg := takeNeeded l.cfg.n need l.stg, sfidCur := sfid } c := by
  obtain ⟨hcap, hempty⟩ := h
  constructor
  · intro cap hc
    have := hcap cap hc
    rw [channel_takeNeeded]
    split <;> simp <;> omega
  · intro hunused
    have hnil := hempty hunused
    rw [channel_takeNeeded, hnil]
    simp

/-- A chunk that fits leaves its staging buffer in order (rule R174). -/
theorem StagedOk.appendAt {par : Params} {l : Layout} {c ch : Nat} {b : Bytes} (h : StagedOk par l c)
    (hch : ch < l.stg.length) (hv : l.valid = true) (hn : ch < l.cfg.n)
    (hfits : stgOverflows par (channel l.stg ch).length b.length = false) :
    StagedOk par { l with stg := appendAt l.stg ch b } c := by
  obtain ⟨hcap, hempty⟩ := h
  rw [StagedOk, channel_appendAt _ _ _ _ hch]
  split
  · subst c
    refine ⟨fun cap hc => ?_, fun hunused => ?_⟩
    · rw [List.length_append]
      exact (stgOverflows_false_iff ..).1 hfits cap hc
    · exact absurd hunused (by simp [hv, hn])
  · exact ⟨hcap, hempty⟩

/-! ## Every operation keeps the invariant -/

section keeps
variable {s t : State} (hs : s.Inv)
include hs

theorem finishPop_keeps_inv : (finishPop s).Inv := by
  rcases finishPop_cases s with ⟨-, h⟩ | ⟨-, h⟩ <;> rw [h]
  · exact State.inv_respond.2 (hs.withRing (Nat.zero_le _))
  · exact State.inv_respond.2 hs

theorem finishPopn_keeps_inv (min max : Word) : (finishPopn min max s).Inv := by
  rcases finishPopn_cases min max s with ⟨-, k, -, h⟩ | ⟨-, h⟩ <;> rw [h]
  · refine State.inv_respond.2 (hs.withRing ?_)
    exact Nat.le_trans (by simp) hs.ring
  · exact State.inv_respond.2 hs

theorem finishIter_keeps_inv (hn : s.held = none) : (finishIter s).Inv := by
  have nobody (st : FpState) : ∀ hd ∈ s.held, HeldOk hd st := by simp [hn]
  obtain ⟨hbuf, herr⟩ := hs.parser
  rcases finishIter_cases s with ⟨-, h⟩ | ⟨-, r, rfl, h⟩ <;> rw [h]
  · exact State.inv_respond.2 (hs.withParser hbuf herr (nobody _))
  · have hring : (s.withRing { s.rb with q := [] }).Inv := hs.withRing (Nat.zero_le _)
    have hparser := hring.withParser (p := s.fp.afterScan (scan s.par.maxLen (s.fp.pb ++ s.rb.q)))
      (scan_rest_canonical ..) (afterScan_lasterr_iff _ herr) (nobody _)
    exact State.inv_respond.2 (hparser.withOut (o := s.out.afterScan _) hs.dout_length)

theorem HeldOp.finish_keeps_inv (op : HeldOp) (hn : s.held = none) : (op.finish s).Inv := by
  cases op with
  | pop => exact finishPop_keeps_inv hs
  | popn min max => exact finishPopn_keeps_inv hs min max
  | iter => exact finishIter_keeps_inv hs hn

/-- An operation that comes to be held is held in its role. -/
theorem State.Inv.hold {op : HeldOp} (h : HeldOk ⟨s.issuer, op⟩ s.fp.state) :
    (s.withHeld (some ⟨s.issuer, op⟩)).Inv :=
  hs.withHeld (by simpa using h)

theorem execFpIter_keeps_inv (h : execFpIter s = .next t) : t.Inv := by
  obtain ⟨hrole, ⟨-, -, rfl⟩ | ⟨hfree, hn, ⟨-, rfl⟩ | ⟨-, rfl⟩⟩⟩ := execFpIter_next h
  · exact State.inv_respond.2 hs
  · exact finishIter_keeps_inv hs hn
  · exact hs.hold ⟨fun hne => absurd rfl hne, fun _ => hrole.imp_right fun ha => ⟨ha, hfree ha⟩⟩

theorem demuxNext_keeps_inv (h : DemuxNext s t) : t.Inv := by
  obtain ⟨status, value, -, -, rfl⟩ | ⟨dout, value, rfl, hlen, -⟩ := h
  · exact State.inv_respond.2 hs
  · exact State.inv_respond.2 (hs.withOut (hlen.trans hs.dout_length))

theorem muxNext_keeps_inv (h : MuxNext s t) : t.Inv := by
  obtain ⟨hlock, hcommitted, -⟩ := hs.config
  obtain ⟨status, value, -, -, rfl⟩ | ⟨hv, frame, stg, value, rfl, hstg⟩ := h
  · exact State.inv_respond.2 hs
  · refine State.inv_respond.2 (State.Inv.withLayout (hs.withOut hs.dout_length) ⟨hlock, fun _ => ?_, ?_⟩ ?_)
    · obtain ⟨hpass, hmin, hmax⟩ := hcommitted hv
      exact ⟨hpass, nextSfid_mem hmin hmax (Nat.le_trans hmin hmax)⟩
    · exact fun hnv => absurd (hv.symm.trans hnv) (by decide)
    · rcases hstg with rfl | ⟨need, rfl⟩
      · exact hs.staging
      · obtain ⟨hlen, hstaged⟩ := (stagingInv_iff s).1 hs.staging
        exact (stagingInv_iff _).2 ⟨(takeNeeded_length ..).trans hlen, fun c hc =>
          (hstaged c (by simpa using hc)).takeNeeded need _⟩

theorem execCsrWr_keeps_inv {a : BitVec 16} {v : Word} (h : execCsrWr a v s = .next t) : t.Inv := by
  obtain ⟨-, rfl | ⟨-, rfl⟩ | ⟨hl, r, cfg, -, -, rfl⟩⟩ := execCsrWr_next h
  · exact State.inv_respond.2 hs
  · exact State.inv_respond.2 hs
  · obtain ⟨hlock, -, hsfid⟩ := hs.config
    obtain ⟨hlen, hcap, hempty⟩ := hs.staging
    have hv : s.cle.valid = false := hlock.trans hl
    refine State.inv_respond.2 (hs.withLayout ⟨hlock, fun hv' => ?_, hsfid⟩
      ⟨hlen, hcap, fun c hc _ => ?_⟩)
    · exact absurd (hv.symm.trans hv') (by decide)
    · exact hempty c hc (.inl hv)

theorem execCfgCommit_keeps_inv (h : execCfgCommit s = .next t) : t.Inv := by
  obtain ⟨-, ⟨-, rfl⟩ | ⟨i, -, rfl⟩ | ⟨hl, hpass, rfl⟩⟩ := execCfgCommit_next h
  · exact State.inv_respond.2 hs
  · exact State.inv_respond.2 hs
  · obtain ⟨hlock, -, -⟩ := hs.config
    obtain ⟨hlen, hcap, hempty⟩ := hs.staging
    obtain ⟨-, -, hrange, -⟩ := (firstFailure_eq_none_iff ..).1 hpass
    refine State.inv_respond.2 (hs.withLayout ⟨rfl, fun _ => ⟨hpass, Nat.le_refl _, hrange⟩, nofun⟩
      ⟨hlen, hcap, fun c hc _ => ?_⟩)
    exact hempty c hc (.inl (hlock.trans hl))

theorem execCleReset_keeps_inv (h : execCleReset s = .next t) : t.Inv := by
  obtain ⟨-, rfl⟩ := execCleReset_next h
  obtain ⟨hlen, -, -⟩ := hs.staging
  refine State.inv_respond.2 (hs.withLayout ⟨rfl, nofun, fun _ => rfl⟩ ((stagingInv_iff _).2 ?_))
  refine ⟨(List.length_map ..).trans hlen, fun c _ => stagedOk_of_nil ?_⟩
  simp [List.map_const']

theorem execStgAppend_keeps_inv {ch : BitVec 8} {b : Bytes} (h : execStgAppend ch b s = .next t) : t.Inv := by
  obtain ⟨-, ⟨status, -, -, rfl⟩ | ⟨hv, hn, hfits, rfl⟩⟩ := execStgAppend_next h
  · exact State.inv_respond.2 hs
  · have hch : ch.toNat < s.cle.stg.length := Nat.lt_of_lt_of_le hn (hs.n_le_stg_length hv)
    obtain ⟨hlen, hstaged⟩ := (stagingInv_iff s).1 hs.staging
    refine State.inv_respond.2 (hs.withLayout hs.config ((stagingInv_iff _).2 ⟨?_, fun c hc => ?_⟩))
    · exact (appendAt_length ..).trans hlen
    · exact (hstaged c (by simpa using hc)).appendAt hch hv hn hfits

/-- `FP.START` while an `FP.ITER` is held makes no second consumer, unless it is the host's own, which blocks
the host (rules R12, R141). -/
theorem execFpStart_keeps_inv (hfree : ∀ hd, s.held = some hd → hd.agent ≠ s.issuer)
    (h : execFpStart s = .next t) : t.Inv := by
  obtain ⟨hrole, hno, rfl⟩ := execFpStart_next h
  obtain ⟨hbuf, herr⟩ := hs.parser
  refine State.inv_respond.2 (hs.withParser hbuf herr fun hd hmem => ?_)
  have hiter := (externalPopHeld_false_iff s).1 hno hd hmem
  have hnotH : hd.agent ≠ .H := hrole ▸ hfree hd hmem
  refine ⟨fun hne => absurd hiter hne, fun _ => .inl ?_⟩
  exact ((hs.heldOk hd hmem).2 hiter).resolve_right fun hH => hnotH hH.1

end keeps

/-- Every operation of an agent that is not blocked keeps the invariant. -/
theorem exec_keeps_inv {i : Instr} {s t : State} (hs : s.Inv)
    (hfree : ∀ hd, s.held = some hd → hd.agent ≠ s.issuer) (h : exec i s = .next t) : t.Inv := by
  cases i with
  | csrRd addr =>
    obtain ⟨-, rfl⟩ | ⟨r, -, rfl⟩ := execCsrRd_next h <;> exact State.inv_respond.2 hs
  | csrWr addr value => exact execCsrWr_keeps_inv hs h
  | rbPush item =>
    obtain ⟨-, ⟨hroom, rfl⟩ | ⟨-, rfl⟩⟩ := execRbPush_next h
    · exact State.inv_respond.2 (hs.withRing (by simpa using hroom))
    · exact State.inv_respond.2 (hs.withRing hs.ring)
  | rbPushr items =>
    obtain ⟨-, k, rfl, rfl⟩ := execRbPushr_next h
    have := hs.ring
    refine State.inv_respond.2 (hs.withRing ?_)
    rw [List.length_append, List.length_take]
    omega
  | rbPop =>
    obtain ⟨hK, hrun, -, ⟨-, rfl⟩ | ⟨-, rfl⟩⟩ := execRbPop_next h
    · exact finishPop_keeps_inv hs
    · exact hs.hold ⟨fun _ => ⟨hK, hrun⟩, nofun⟩
  | rbPopn min max =>
    obtain ⟨hK, hrun, -, ⟨-, rfl⟩ | ⟨-, rfl⟩⟩ := execRbPopn_next h
    · exact finishPopn_keeps_inv hs min max
    · exact hs.hold ⟨fun _ => ⟨hK, hrun⟩, nofun⟩
  | rbQuit =>
    obtain rfl := execRbQuit_next h
    exact State.inv_respond.2 (hs.withRing hs.ring)
  | rbReset =>
    obtain ⟨-, ⟨-, rfl⟩ | ⟨-, rfl⟩⟩ := execRbReset_next h
    · exact State.inv_respond.2 hs
    · exact State.inv_respond.2 (hs.withRing (Nat.zero_le _))
  | fpStart => exact execFpStart_keeps_inv hs hfree h
  | fpIter => exact execFpIter_keeps_inv hs h
  | fpReset =>
    obtain ⟨-, ⟨-, rfl⟩ | ⟨hidle, rfl⟩⟩ := execFpReset_next h
    · exact State.inv_respond.2 hs
    · have hn : s.held = none := ((consumerBusy_false_iff s).1 hidle).1
      exact State.inv_respond.2 (hs.withParser (.inl ⟨nofun, by simp⟩) (by simp) (by simp [hn]))
  | cfgCommit => exact execCfgCommit_keeps_inv hs h
  | cleReset => exact execCleReset_keeps_inv hs h
  | stgAppend ch bytes => exact execStgAppend_keeps_inv hs h
  | dmxXc frame => exact demuxNext_keeps_inv hs (execDmxXc_next h).2
  | dmxCc frame => exact demuxNext_keeps_inv hs (execDmxCc_next h).2
  | dmxRow frame => exact demuxNext_keeps_inv hs (execDmxRow_next h).2
  | dmxRc frame => exact demuxNext_keeps_inv hs (execDmxRc_next h).2
  | muxXc => exact muxNext_keeps_inv hs (execMuxXc_next h).2
  | muxCc => exact muxNext_keeps_inv hs (execMuxCc_next h).2
  | muxRow => exact muxNext_keeps_inv hs (execMuxRow_next h).2
  | muxRc => exact muxNext_keeps_inv hs (execMuxRc_next h).2
  | idleChk payload =>
    obtain ⟨-, ⟨-, rfl⟩ | ⟨-, rfl⟩⟩ := execIdleChk_next h
    · exact State.inv_respond.2 hs
    · exact State.inv_respond.2 (hs.withOut hs.dout_length)

/-- So does the turn of the consumer: what was held is held no more when it is performed. -/
theorem consumerTurn_keeps_inv {s t : State} (hs : s.Inv) (h : consumerTurn s = .next t) : t.Inv := by
  obtain ⟨hd, -, ⟨-, rfl⟩ | ⟨-, rfl⟩⟩ | ⟨hn, ⟨-, h⟩ | ⟨-, rfl⟩⟩ := consumerTurn_next h
  · have unheld : (s.withHeld none).Inv := hs.withHeld (by simp)
    exact HeldOp.finish_keeps_inv (s := (s.withHeld none).withIssuer hd.agent) unheld hd.op rfl
  · exact hs
  · exact exec_keeps_inv (s := s.withIssuer .K) hs (by simp [hn]) h
  · exact hs

theorem State.resetWith_inv {p : Params} (hp : p.Ok) : (State.resetWith p).Inv := by
  exact ⟨hp, Nat.zero_le _, ⟨.inl ⟨nofun, Nat.zero_le _⟩, by simp⟩, ⟨rfl, nofun, fun _ => rfl⟩,
    (stagingInv_iff _).2 ⟨List.length_replicate, fun c _ => stagedOk_of_nil (by simp)⟩,
    List.length_replicate, fun _ h => nomatch h⟩

end Machine

/-- Settles O57: each part of the invariant, of a state whose units are empty. -/
theorem resetMeetsTheInvariant : Obligations.ResetMeetsTheInvariant := by
  unfold Obligations.ResetMeetsTheInvariant
  exact ⟨fun _ hp => State.resetWith_inv hp, State.resetWith_inv (by decide)⟩

/-- Settles O58: by what a step can be (`step_next`), each operation by its own lemma. -/
theorem everyStepKeepsTheInvariant : Obligations.EveryStepKeepsTheInvariant := by
  unfold Obligations.EveryStepKeepsTheInvariant
  intro s t hs h
  obtain ⟨rest, -, rfl⟩ | ⟨a, c, rest, i, -, hfree, -, h⟩ | ⟨a, c, rest, why, -, -, rfl⟩ |
    ⟨rest, -, h⟩ := step_next h
  · exact State.resetWith_inv hs.par_ok
  · exact exec_keeps_inv (s := (s.withEvents rest).withIssuer a) hs hfree h
  · exact hs
  · exact consumerTurn_keeps_inv (s := s.withEvents rest) hs h

/-- Settles O29: the buffer after an iteration is that before it or what the scan leaves, both canonical. -/
theorem parseBufferIsCanonicalAfterAnIteration : Obligations.ParseBufferIsCanonicalAfterAnIteration := by
  unfold Obligations.ParseBufferIsCanonicalAfterAnIteration
  intro s t hs h
  obtain ⟨-, ⟨hmax, -⟩, -⟩ := hs.par_ok
  obtain ⟨hbuf, -⟩ := hs.parser
  have hring := hs.ring
  have hafter : CanonicalBuffer s.par.maxLen t.fp.pb := by
    rw [← (exec_frame (i := .fpIter) h).par]
    exact (execFpIter_keeps_inv hs h).parser.1
  have hlen := canonicalBuffer_length_lt hmax hbuf
  refine ⟨canonicalBuffer_exactly_one hafter, canonicalBuffer_length_lt hmax hafter, ?_⟩
  rw [List.length_append]
  omega

end Sys2Proof
end

section
/-! The consumer operations (rules R42, R123, R124, R127, R130, R142, R143, R144): performed at once, held, or
refused, and what a held one comes to. -/

namespace Sys2Proof

open Sys2Proof.Machine Sys2Proof.Spec

namespace Machine

/-- The model's condition is the statement's. -/
theorem ready_iff_released (op : HeldOp) (s : State) : op.ready s.rb = true ↔ Released op s := by
  cases op with
  | pop => exact ready_iff_pop s.rb
  | popn min max => exact ready_iff_popn min max s.rb
  | iter => exact ready_iff_iter s.rb

theorem ready_false_iff (op : HeldOp) (s : State) : op.ready s.rb = false ↔ ¬ Released op s := by
  rw [← ready_iff_released, Bool.not_eq_true]

/-- The condition depends on the ring alone. -/
theorem released_congr {op : HeldOp} {s t : State} (h : t.rb = s.rb) : Released op t ↔ Released op s := by
  rw [← ready_iff_released, ← ready_iff_released, h]

/-! ## What a consumer operation does -/

section consumer
variable {s : State}

/-- With nothing held, a consumer operation issued in its role goes to the consumer port. -/
theorem exec_heldInstr {op : HeldOp} (hn : s.held = none) (hrole : HeldOk ⟨s.issuer, op⟩ s.fp.state) :
    exec (heldInstr op) s = consume op op.finish s := by
  obtain ⟨hpop, hiter⟩ := hrole
  cases op with
  | pop =>
    obtain ⟨hK, hrun⟩ := hpop nofun
    exact (byRole_of_eq rfl hK).trans (if_neg hrun)
  | popn min max =>
    obtain ⟨hK, hrun⟩ := hpop nofun
    exact (byRole_of_eq rfl hK).trans (if_neg hrun)
  | iter =>
    have hmay : mayIssue .fpIter s.issuer = true := by
      rcases hiter rfl with h | ⟨h, -⟩ <;> simp [mayIssue, show s.issuer = _ from h]
    refine (byRole_of_mayIssue hmay).trans (if_neg ?_)
    rintro ⟨hH, hbusy⟩
    obtain ⟨-, hrun⟩ := (hiter rfl).resolve_left fun hK => absurd (hH.symm.trans hK) (by decide)
    exact absurd ((consumerBusy_false_iff s).2 ⟨hn, hrun⟩) (by simp [hbusy])

/-- Performed at once if its condition is true (rules R12, R42). -/
theorem exec_heldInstr_of_released {op : HeldOp} (hn : s.held = none)
    (hrole : HeldOk ⟨s.issuer, op⟩ s.fp.state) (hr : Released op s) : exec (heldInstr op) s = .next (op.finish s) :=
  (exec_heldInstr hn hrole).trans (consume_ready hn ((ready_iff_released op s).2 hr))

/-- Held otherwise. -/
theorem exec_heldInstr_of_not_released {op : HeldOp} (hn : s.held = none)
    (hrole : HeldOk ⟨s.issuer, op⟩ s.fp.state) (hr : ¬ Released op s) :
    exec (heldInstr op) s = .next (s.withHeld (some ⟨s.issuer, op⟩)) :=
  (exec_heldInstr hn hrole).trans (consume_hold hn ((ready_false_iff op s).2 hr))

/-- An external pop is the consumer's, while the parser does not run. -/
theorem heldOk_of_K {op : HeldOp} (ha : s.issuer = .K) (hf : s.fp.state ≠ .run) :
    HeldOk ⟨s.issuer, op⟩ s.fp.state := ⟨fun _ => ⟨ha, hf⟩, fun _ => .inl ha⟩

/-- The consumer port beside a running parser or a held operation (93 U1). -/
theorem consume_of_second {op : HeldOp} {finish : State → State} (h : s.fp.state = .run ∨ s.held ≠ none) :
    (if s.fp.state = .run then .refused .secondConsumer else consume op finish s)
      = (.refused .secondConsumer : Result) := by
  split
  · rfl
  · exact consume_second (h.resolve_left ‹_›)

theorem exec_rbPop_of_second (ha : s.issuer = .K) (h : s.fp.state = .run ∨ s.held ≠ none) :
    exec .rbPop s = .refused .secondConsumer := (byRole_of_eq rfl ha).trans (consume_of_second h)

theorem exec_rbPopn_of_second {min max : Word} (ha : s.issuer = .K)
    (h : s.fp.state = .run ∨ s.held ≠ none) : exec (.rbPopn min max) s = .refused .secondConsumer :=
  (byRole_of_eq rfl ha).trans (consume_of_second h)

theorem finishPop_of_elements (h : 0 < s.rb.q.length) :
    finishPop s
      = (s.withRing { s.rb with q := [] }).respond .ok (BitVec.ofNat 32 s.rb.q.length) s.rb.q := if_pos h

theorem finishPop_of_empty (h : s.rb.q = []) : finishPop s = s.respond .closed 0#32 [] := by
  obtain ⟨hq, -⟩ | ⟨-, he⟩ := finishPop_cases s
  · exact absurd hq (by simp [h])
  · exact he

theorem finishPopn_of_enough {min max : Word} (h : min.toNat ≤ s.rb.q.length) :
    finishPopn min max s
      = (s.withRing { s.rb with q := s.rb.q.drop (Nat.min s.rb.q.length max.toNat) }).respond .ok
          (BitVec.ofNat 32 (Nat.min s.rb.q.length max.toNat))
          (s.rb.q.take (Nat.min s.rb.q.length max.toNat)) := if_pos h

theorem finishPopn_of_few {min max : Word} (h : s.rb.q.length < min.toNat) :
    finishPopn min max s = s.respond .closed 0#32 [] := if_neg (Nat.not_le.2 h)

theorem finishIter_of_elements (h : 0 < s.rb.q.length) :
    finishIter s
      = (((s.withRing { s.rb with q := [] }).withParser
            (s.fp.afterScan (scan s.par.maxLen (s.fp.pb ++ s.rb.q)))).withOut
          (s.out.afterScan (scan s.par.maxLen (s.fp.pb ++ s.rb.q)))).respond .ok 0#32 [] :=
  if_neg (Nat.pos_iff_ne_zero.1 h)

theorem finishIter_of_empty (h : s.rb.q = []) :
    finishIter s = (s.withParser { s.fp with state := .halted }).respond .closed 0#32 [] := by
  obtain ⟨-, he⟩ | ⟨hq, -⟩ := finishIter_cases s
  · exact he
  · exact absurd h hq

/-- Rule R130: on a queue of at most `C` elements, `RB.POP` takes what `RB.POPN 1, C` takes. -/
theorem finishPop_eq_finishPopn {c : Word} (hc : s.rb.q.length ≤ c.toNat) :
    finishPop s = finishPopn 1#32 c s := by
  by_cases hq : 0 < s.rb.q.length
  · have enough : (1#32).toNat ≤ s.rb.q.length := hq
    have all : Nat.min s.rb.q.length c.toNat = s.rb.q.length := Nat.min_eq_left hc
    rw [finishPop_of_elements hq, finishPopn_of_enough enough, all, List.drop_length, List.take_length]
  · have hempty : s.rb.q = [] := by simpa using hq
    rw [finishPop_of_empty hempty, finishPopn_of_few (by simp [hempty])]

/-- A consumer operation that completes leaves the held set and the quit signal as they are and answers one
response. -/
theorem HeldOp.finish_answers (op : HeldOp) (s : State) :
    (op.finish s).held = s.held ∧ (op.finish s).rb.quit = s.rb.quit
      ∧ ∃ r, (op.finish s).responses = s.responses ++ [r] := by
  cases op with
  | pop =>
    obtain ⟨-, h⟩ | ⟨-, h⟩ := finishPop_cases s <;> rw [HeldOp.finish, h] <;> exact ⟨rfl, rfl, _, rfl⟩
  | popn min max =>
    obtain ⟨-, k, -, h⟩ | ⟨-, h⟩ := finishPopn_cases min max s <;> rw [HeldOp.finish, h] <;>
      exact ⟨rfl, rfl, _, rfl⟩
  | iter =>
    obtain ⟨-, h⟩ | ⟨-, r, -, h⟩ := finishIter_cases s <;> rw [HeldOp.finish, h] <;>
      exact ⟨rfl, rfl, _, rfl⟩

theorem HeldOp.finish_held (op : HeldOp) (s : State) : (op.finish s).held = s.held :=
  (op.finish_answers s).1

theorem HeldOp.finish_quit (op : HeldOp) (s : State) : (op.finish s).rb.quit = s.rb.quit :=
  (op.finish_answers s).2.1

/-! ## Iterations and the parser's reset -/

theorem exec_fpIter_of_busy (ha : s.issuer = .H) (h : s.fp.state = .run ∨ s.held ≠ none) :
    exec .fpIter s = .next (s.respond .busy 0#32 []) := by
  have hmay : mayIssue .fpIter s.issuer = true := by rw [ha]; rfl
  exact (byRole_of_mayIssue hmay).trans (if_pos ⟨ha, (consumerBusy_iff s).2 h.symm⟩)

theorem exec_fpIter_of_second (ha : s.issuer = .K) (h : s.held ≠ none) :
    exec .fpIter s = .refused .secondConsumer := by
  have hmay : mayIssue .fpIter s.issuer = true := by rw [ha]; rfl
  refine (byRole_of_mayIssue hmay).trans ((if_neg ?_).trans (consume_second h))
  simp [ha]

theorem exec_fpReset_of_busy (ha : s.issuer = .H) (h : s.held ≠ none ∨ s.fp.state = .run) :
    exec .fpReset s = .next (s.respond .busy 0#32 []) :=
  (byRole_of_eq rfl ha).trans (if_pos ((consumerBusy_iff s).2 h))

theorem exec_fpReset_of_quiescent (ha : s.issuer = .H) (hn : s.held = none) (hf : s.fp.state ≠ .run) :
    exec .fpReset s = .next ((s.withParser ⟨[], .idle, 0#32, none⟩).respond .ok 0#32 []) := by
  have idle : s.consumerBusy = false := (consumerBusy_false_iff s).2 ⟨hn, hf⟩
  exact (byRole_of_eq rfl ha).trans (if_neg (by simp [idle]))

/-! ## The consumer's turn -/

theorem consumerTurn_of_released {h : Held} (hh : s.held = some h) (hr : Released h.op s) :
    consumerTurn s = .next (h.op.finish ((s.withHeld none).withIssuer h.agent)) := by
  have ready : h.op.ready s.rb = true := (ready_iff_released h.op s).2 hr
  simp [consumerTurn, hh, ready]

theorem consumerTurn_of_run (hn : s.held = none) (hf : s.fp.state = .run) :
    consumerTurn s = exec .fpIter (s.withIssuer .K) := by
  simp [consumerTurn, hn, hf, exec]

theorem consumerTurn_of_stopped (hn : s.held = none) (hf : s.fp.state ≠ .run) : consumerTurn s = .next s := by
  simp [consumerTurn, hn, hf]

end consumer

end Machine

/-- Settles O14: `RB.POP` at the consumer port, and what it does when it completes. -/
theorem popDrainsTheRingOrIsHeld : Obligations.PopDrainsTheRingOrIsHeld := by
  unfold Obligations.PopDrainsTheRingOrIsHeld
  intro s
  refine ⟨rfl, byRole_of_ne rfl, exec_rbPop_of_second, fun ha hf hn => ?_⟩
  have role : HeldOk ⟨s.issuer, .pop⟩ s.fp.state := heldOk_of_K ha hf
  refine ⟨fun hq => ?elements, fun hq hquit => ?closed, fun hq hquit => ?held⟩
  case elements =>
    exact (exec_heldInstr_of_released hn role (.inl hq)).trans (congrArg _ (finishPop_of_elements hq))
  case closed =>
    exact (exec_heldInstr_of_released hn role (.inr hquit)).trans (congrArg _ (finishPop_of_empty hq))
  case held =>
    rw [← ha]
    exact exec_heldInstr_of_not_released hn role (by simp [Released, hq, hquit])

/-- Settles O15: `RB.POPN` at the consumer port, and what it does when it completes. -/
theorem popRangeTakesUpToMax : Obligations.PopRangeTakesUpToMax := by
  unfold Obligations.PopRangeTakesUpToMax
  intro min max s
  refine ⟨rfl, byRole_of_ne rfl, exec_rbPopn_of_second, fun ha hf hn => ?_⟩
  have role : HeldOk ⟨s.issuer, .popn min max⟩ s.fp.state := heldOk_of_K ha hf
  refine ⟨?enough, fun hq hquit => ?closed, fun hq hquit => ?held⟩
  case enough =>
    rintro hq k rfl
    exact (exec_heldInstr_of_released hn role (.inl hq)).trans (congrArg _ (finishPopn_of_enough hq))
  case closed =>
    exact (exec_heldInstr_of_released hn role (.inr hquit)).trans (congrArg _ (finishPopn_of_few hq))
  case held =>
    rw [← ha]
    exact exec_heldInstr_of_not_released hn role (by simp [Released, hquit, hq])

/-- Settles O18: the two conditions are the same, and so is what the two take; refused, they are refused alike.
-/
theorem popIsPopRangeOneToCapacity : Obligations.PopIsPopRangeOneToCapacity := by
  unfold Obligations.PopIsPopRangeOneToCapacity
  intro s c hc hq
  have condition : Released .pop s ↔ Released (.popn 1#32 c) s := Iff.rfl
  have refusedAlike (h : s.issuer ≠ .K ∨ s.fp.state = .run ∨ s.held ≠ none) :
      exec .rbPop s = exec (.rbPopn 1#32 c) s := by
    by_cases ha : s.issuer = .K
    · rw [exec_rbPop_of_second ha (h.resolve_left (not_not.2 ha)),
        exec_rbPopn_of_second ha (h.resolve_left (not_not.2 ha))]
    · exact (byRole_of_ne rfl ha).trans (byRole_of_ne rfl ha).symm
  refine ⟨condition, fun hr => ?released, refusedAlike, fun hr hn hf ha => ?held⟩
  case released =>
    by_cases h : s.issuer ≠ .K ∨ s.fp.state = .run ∨ s.held ≠ none
    · exact refusedAlike h
    · push Not at h
      obtain ⟨ha, hf, hn⟩ := h
      calc exec .rbPop s = .next (finishPop s) := exec_heldInstr_of_released hn (heldOk_of_K ha hf) hr
        _ = .next (finishPopn 1#32 c s) := congrArg _ (finishPop_eq_finishPopn (hc ▸ hq))
        _ = exec (.rbPopn 1#32 c) s :=
          (exec_heldInstr_of_released (op := .popn 1#32 c) hn (heldOk_of_K ha hf) hr).symm
  case held =>
    rw [← ha]
    exact ⟨exec_heldInstr_of_not_released hn (heldOk_of_K ha hf) hr,
      exec_heldInstr_of_not_released (op := .popn 1#32 c) hn (heldOk_of_K ha hf) hr⟩

/-- Settles O25: `FP.ITER` at the consumer port, or `BUSY` for the host, and the scan when it completes. -/
theorem iterationPopsAndScans : Obligations.IterationPopsAndScans := by
  unfold Obligations.IterationPopsAndScans
  intro s
  refine ⟨rfl, fun hK hH => byRole_of_not ?role, exec_fpIter_of_busy, exec_fpIter_of_second, fun ha => ?_⟩
  case role => simp [mayIssue, hK, hH]
  have role : HeldOk ⟨s.issuer, .iter⟩ s.fp.state := ⟨fun h => absurd rfl h, fun _ => ha⟩
  refine ⟨fun hn hq hquit => ?held, fun hn hq hquit => ?closed, fun hn hq => ?elements⟩
  case held => exact exec_heldInstr_of_not_released hn role (by simp [Released, hq, hquit])
  case closed =>
    exact (exec_heldInstr_of_released hn role (.inr hquit)).trans (congrArg _ (finishIter_of_empty hq))
  case elements =>
    rintro r rfl
    refine (exec_heldInstr_of_released hn role (.inl hq)).trans (congrArg _ ?_)
    refine (finishIter_of_elements hq).trans ?_
    rw [← afterScan_errcnt, ← afterScan_lasterr]
    rfl

/-- Settles O26: the parser's reset has the one condition that the consumer port is quiescent. -/
theorem parserResetClearsTheParser : Obligations.ParserResetClearsTheParser := by
  unfold Obligations.ParserResetClearsTheParser
  exact fun _ => ⟨rfl, byRole_of_ne rfl, exec_fpReset_of_busy, exec_fpReset_of_quiescent⟩

/-- Settles O27: a turn with nothing held is the running parser's. -/
theorem runningParserRepeatsItsIteration : Obligations.RunningParserRepeatsItsIteration := by
  unfold Obligations.RunningParserRepeatsItsIteration
  intro s rest hn hev
  rw [step_of_turn hev]
  exact ⟨fun hf => consumerTurn_of_run hn hf, fun hf => consumerTurn_of_stopped hn hf⟩

/-- Settles O20: the invariant gives the held operation its role, so issued anew it would be performed. -/
theorem releasedOperationCompletesAsIfIssued : Obligations.ReleasedOperationCompletesAsIfIssued := by
  unfold Obligations.ReleasedOperationCompletesAsIfIssued
  intro s h rest hs hh hr hev
  let u := ((s.withEvents rest).withHeld none).withIssuer h.agent
  have turn : step s = .next (h.op.finish u) := by
    rw [step_of_turn hev]
    exact consumerTurn_of_released hh ((released_congr (s := s) (t := s.withEvents rest) rfl).2 hr)
  have issued : exec (heldInstr h.op) u = .next (h.op.finish u) :=
    exec_heldInstr_of_released rfl (hs.heldOk h hh) ((released_congr (s := s) (t := u) rfl).2 hr)
  obtain ⟨hnone, -, r, hresp⟩ := h.op.finish_answers u
  refine ⟨turn.trans issued.symm, _, turn, hnone, ?_⟩
  rw [hresp, List.length_append]
  rfl

end Sys2Proof
end

section
/-! The ring over steps (rules R76, R127, R128, R129, R282): what a held operation waits for, what the quit
signal ends, what overflow loses, and first in, first out. -/

namespace Sys2Proof

open Sys2Proof.Machine Sys2Proof.Spec

namespace Machine

/-! ## While an operation is held -/

/-- The second ring has at least as many elements, and the quit signal if the first has it. -/
structure Ring.Grows (r r' : Ring) : Prop where
  length : r.q.length ≤ r'.q.length
  quit : r.quit = true → r'.quit = true

theorem Ring.Grows.refl (r : Ring) : r.Grows r := ⟨Nat.le_refl _, id⟩

/-- A condition that is true of a ring stays true of a larger one. -/
theorem released_of_grows {op : HeldOp} {s t : State} (hg : s.rb.Grows t.rb) (h : Released op s) :
    Released op t := by
  cases op with
  | pop => exact h.imp (Nat.lt_of_lt_of_le · hg.length) hg.quit
  | popn min max => exact h.imp (Nat.le_trans · hg.length) hg.quit
  | iter => exact h.imp (Nat.lt_of_lt_of_le · hg.length) hg.quit

/-- The operations by which a held operation's condition can become true (rule R127). -/
def Feeds (i : Instr) : Prop := i = .rbQuit ∨ (∃ x, i = .rbPush x) ∨ ∃ xs, i = .rbPushr xs

section held
variable {s t : State} {h : Held}

/-- Under a held operation only a push or `RB.QUIT` changes the ring, and each lets it grow. -/
theorem exec_rb_of_held {i : Instr} (hh : s.held = some h) (hx : exec i s = .next t) :
    t.rb = s.rb ∨ (Feeds i ∧ s.rb.Grows t.rb) := by
  have occupied : s.held ≠ none := by simp [hh]
  cases i with
  | rbPush x =>
    obtain ⟨-, ⟨-, rfl⟩ | ⟨-, rfl⟩⟩ := execRbPush_next hx
    · exact .inr ⟨.inr (.inl ⟨x, rfl⟩), by simp, id⟩
    · exact .inr ⟨.inr (.inl ⟨x, rfl⟩), Nat.le_refl _, id⟩
  | rbPushr xs =>
    obtain ⟨-, k, -, rfl⟩ := execRbPushr_next hx
    exact .inr ⟨.inr (.inr ⟨xs, rfl⟩), by simp, id⟩
  | rbQuit =>
    obtain rfl := execRbQuit_next hx
    exact .inr ⟨.inl rfl, Nat.le_refl _, fun _ => rfl⟩
  | rbPop =>
    obtain ⟨-, -, hn, -⟩ := execRbPop_next hx
    exact absurd hn occupied
  | rbPopn min max =>
    obtain ⟨-, -, hn, -⟩ := execRbPopn_next hx
    exact absurd hn occupied
  | fpIter =>
    obtain ⟨-, ⟨-, -, rfl⟩ | ⟨-, hn, -⟩⟩ := execFpIter_next hx
    · exact .inl rfl
    · exact absurd hn occupied
  | rbReset =>
    obtain ⟨-, ⟨-, rfl⟩ | ⟨hfree, -⟩⟩ := execRbReset_next hx
    · exact .inl rfl
    · exact absurd ((consumerBusy_false_iff s).1 hfree).1 occupied
  | _ => exact .inl ((exec_frame hx).rb (by simp [Instr.op]))

theorem exec_held_of_held {i : Instr} (hh : s.held = some h) (hx : exec i s = .next t) : t.held = some h := by
  obtain ⟨-, hn, -⟩ | ⟨hsame, -⟩ := (exec_frame hx).answered
  · exact absurd hn (by simp [hh])
  · exact hsame.trans hh

/-- What a step can do under a held operation: leave it held, with the ring as it was or fed by the operation
issued; or complete it in a turn. -/
theorem step_of_held (hh : s.held = some h) (hnr : ¬ Resets s) (hstep : step s = .next t) :
    (t.held = some h ∧ (t.rb = s.rb ∨ ((∃ i, Feeds i ∧ Issues s i) ∧ s.rb.Grows t.rb))
        ∧ (s.events = [] → t = s))
      ∨ (Released h.op s ∧ t.held = none) := by
  obtain ⟨rest, hev, -⟩ | ⟨a, c, rest, i, hev, -, hd, hx⟩ | ⟨a, c, rest, why, hev, -, rfl⟩ |
    ⟨rest, hev, hx⟩ := step_next hstep
  · exact absurd ⟨rest, hev⟩ hnr
  · have hh' : ((s.withEvents rest).withIssuer a).held = some h := hh
    refine .inl ⟨exec_held_of_held hh' hx, ?_, by simp [hev]⟩
    exact (exec_rb_of_held hh' hx).imp_right fun hf => ⟨⟨i, hf.1, a, c, rest, hev, hd⟩, hf.2⟩
  · exact .inl ⟨hh, .inl rfl, by simp [hev]⟩
  · obtain ⟨hd, hheld, ⟨hr, rfl⟩ | ⟨-, rfl⟩⟩ | ⟨hn, -⟩ := consumerTurn_next hx
    · obtain rfl : hd = h := by simpa [hh, eq_comm] using hheld
      exact .inr ⟨(ready_iff_released hd.op s).1 hr, hd.op.finish_held _⟩
    · refine .inl ⟨hh, .inl rfl, fun he => ?_⟩
      obtain rfl : rest = [] := by simpa [he] using hev
      rw [← he]
      rfl
    · exact absurd hn (by simp [hh])

end held

/-! ## After the quit signal -/

/-- With the quit signal set no operation comes to be held (rule R76). -/
theorem exec_held_of_quit {i : Instr} {s t : State} (hquit : s.rb.quit = true) (hn : s.held = none)
    (hx : exec i s = .next t) : t.held = none := by
  have ready (op : HeldOp) : op.ready s.rb ≠ false := by simp [ready_of_quit op hquit]
  cases i with
  | rbPop =>
    obtain ⟨-, -, -, ⟨-, rfl⟩ | ⟨hr, -⟩⟩ := execRbPop_next hx
    · exact (HeldOp.pop.finish_held s).trans hn
    · exact absurd hr (ready _)
  | rbPopn min max =>
    obtain ⟨-, -, -, ⟨-, rfl⟩ | ⟨hr, -⟩⟩ := execRbPopn_next hx
    · exact ((HeldOp.popn min max).finish_held s).trans hn
    · exact absurd hr (ready _)
  | fpIter =>
    obtain ⟨-, ⟨-, -, rfl⟩ | ⟨-, -, ⟨-, rfl⟩ | ⟨hr, -⟩⟩⟩ := execFpIter_next hx
    · exact hn
    · exact (HeldOp.iter.finish_held s).trans hn
    · exact absurd hr (ready _)
  | _ => exact ((exec_frame hx).held (by simp [Instr.op])).trans hn

/-- A turn ends whatever is held (rule R282). -/
theorem consumerTurn_held_of_quit {s t : State} (hquit : s.rb.quit = true) (hx : consumerTurn s = .next t) :
    t.held = none := by
  obtain ⟨hd, -, ⟨-, rfl⟩ | ⟨hr, -⟩⟩ | ⟨hn, ⟨-, hx⟩ | ⟨-, rfl⟩⟩ := consumerTurn_next hx
  · exact hd.op.finish_held _
  · exact absurd (ready_of_quit hd.op hquit) (by simp [hr])
  · exact exec_held_of_quit (s := s.withIssuer .K) hquit hn hx
  · exact hn

end Machine

/-- Settles O19: a step under a held operation leaves it held or completes it (`step_of_held`). -/
theorem heldOperationWaitsForPushOrQuit : Obligations.HeldOperationWaitsForPushOrQuit := by
  unfold Obligations.HeldOperationWaitsForPushOrQuit
  intro s t h hh hnr hstep
  obtain ⟨hheld, hring, hidle⟩ | ⟨hr, hnone⟩ := step_of_held hh hnr hstep
  · refine ⟨fun _ => hheld, fun hno hr => ?fed, fun hr _ => ?kept, fun _ => hidle⟩
    case fed =>
      obtain hsame | ⟨⟨i, hf, hi⟩, -⟩ := hring
      · exact absurd ((released_congr hsame).1 hr) hno
      · obtain rfl | ⟨x, rfl⟩ | ⟨xs, rfl⟩ := hf
        · exact .inl hi
        · exact .inr (.inl ⟨x, hi⟩)
        · exact .inr (.inr ⟨xs, hi⟩)
    case kept =>
      obtain hsame | ⟨-, hg⟩ := hring
      · exact (released_congr hsame).2 hr
      · exact released_of_grows hg hr
  · refine ⟨(absurd hr ·), (absurd hr ·), fun _ hheld => ?_, (absurd hr ·)⟩
    exact absurd (hnone.symm.trans hheld) nofun

/-- Settles O21: with the quit signal set every condition is true. -/
theorem nothingStaysHeldAfterQuit : Obligations.NothingStaysHeldAfterQuit := by
  unfold Obligations.NothingStaysHeldAfterQuit
  intro s t hquit hnr hstep
  obtain ⟨rest, hev, -⟩ | ⟨a, c, rest, i, hev, -, -, hx⟩ | ⟨a, c, rest, why, hev, -, rfl⟩ |
    ⟨rest, -, hx⟩ := step_next hstep
  · exact absurd ⟨rest, hev⟩ hnr
  · have unheld (hn : s.held = none) := exec_held_of_quit (s := (s.withEvents rest).withIssuer a) hquit hn hx
    exact ⟨unheld, by simp [hev], by simp [hev]⟩
  · exact ⟨id, by simp [hev], by simp [hev]⟩
  · have unheld := consumerTurn_held_of_quit (s := s.withEvents rest) hquit hx
    exact ⟨fun _ => unheld, fun _ => unheld, fun _ _ => unheld⟩

/-! ## Overflow -/

namespace Machine

/-- With a place left, one item fits. -/
theorem take_singleton_of_room (x : Byte) {used cap : Nat} (h : used < cap) : [x].take (cap - used) = [x] :=
  List.take_of_length_le (by rw [List.length_singleton]; omega)

/-- One command `RB.PUSH` by a producer that is not held: with a place left the item is queued, with none it is
counted lost (rule R121). -/
theorem step_push {s : State} {x : Byte} {rest : List Event}
    (hfree : ∀ h, s.held = some h → h.agent ≠ .P)
    (hev : s.events = .issue .P (encode (.rbPush x)) :: rest)
    (hq : s.rb.q.length ≤ s.par.ringCap) :
    ∃ t, step s = .next t ∧ t.par = s.par ∧ t.held = s.held ∧ t.events = rest
      ∧ t.rb.q = s.rb.q ++ [x].take (s.par.ringCap - s.rb.q.length)
      ∧ (t.rb.lost = if s.rb.q.length < s.par.ringCap then s.rb.lost else satInc s.rb.lost) := by
  have perform : step s = exec (.rbPush x) ((s.withEvents rest).withIssuer .P) := by
    rw [step_of_issue hev]
    exact issue_of_instr ((blocked_false_iff _ _).2 hfree) (decode_encode trivial)
  by_cases hroom : s.rb.q.length < s.par.ringCap
  · refine ⟨_, perform.trans (exec_rbPush_of_room rfl hroom), rfl, rfl, rfl, ?_, ?_⟩
    · rw [take_singleton_of_room x hroom]
      rfl
    · simp [hroom]
  · have hk : s.par.ringCap - s.rb.q.length = 0 := by omega
    refine ⟨_, perform.trans (exec_rbPush_of_full rfl (Nat.le_of_not_lt hroom)), rfl, rfl, rfl, ?_, ?_⟩
    · simp [hk]
    · simp [hroom]

theorem run_succ {s u : State} (n : Nat) (h : step s = .next u) :
    Sys2Proof.core.run (n + 1) s = Sys2Proof.core.run n u := by
  simp only [Host.Core.run, Sys2Proof.core, h]

/-- Pushes with no pop between them queue what fits and count the rest lost (rule R129). -/
theorem run_pushes (items : Bytes) {s : State} (hfree : ∀ h, s.held = some h → h.agent ≠ .P)
    (hev : s.events = items.map (fun x => Event.issue .P (encode (.rbPush x))))
    (hq : s.rb.q.length ≤ s.par.ringCap)
    (hlost : s.rb.lost.toNat + (items.length - (s.par.ringCap - s.rb.q.length)) < 2 ^ 32) :
    ∃ t : State, Sys2Proof.core.run items.length s = .next t
      ∧ t.rb.q = s.rb.q ++ items.take (s.par.ringCap - s.rb.q.length)
      ∧ t.rb.lost.toNat = s.rb.lost.toNat + (items.length - (s.par.ringCap - s.rb.q.length)) := by
  induction items generalizing s with
  | nil => exact ⟨s, rfl, by simp, by simp⟩
  | cons x items ih =>
    obtain ⟨u, hstep, hpar, hheld, hrest, huq, hulost⟩ := step_push hfree hev hq
    rw [List.length_cons] at hlost ⊢
    have hu := fun hl => ih (s := u) (by rwa [hheld]) hrest (by rw [hpar, huq]; simp; omega) hl
    rw [hpar, huq] at hu
    rw [run_succ _ hstep]
    by_cases hroom : s.rb.q.length < s.par.ringCap
    · rw [if_pos hroom] at hulost
      obtain ⟨k, hk⟩ := Nat.exists_eq_add_one_of_ne_zero (by omega : s.par.ringCap - s.rb.q.length ≠ 0)
      have hk' : s.par.ringCap - (s.rb.q.length + 1) = k := by omega
      simp only [hk, List.take_succ_cons, List.take_nil, List.length_append, List.length_singleton, hk',
        hulost, List.append_assoc, List.singleton_append, Nat.add_sub_add_right] at hu hlost ⊢
      exact hu hlost
    · rw [if_neg hroom] at hulost
      have hk : s.par.ringCap - s.rb.q.length = 0 := by omega
      have hcount : u.rb.lost.toNat = s.rb.lost.toNat + 1 := by
        rw [hulost, satInc_toNat]
        omega
      simp only [hk, List.take_zero, List.append_nil, hcount, Nat.sub_zero] at hu hlost ⊢
      obtain ⟨t, hrun, htq, htlost⟩ := hu (by omega)
      exact ⟨t, hrun, htq, by omega⟩

end Machine

/-- Settles O22: the pushes one by one (`run_pushes`), and the push of a range. -/
theorem lossAccounting : Obligations.LossAccounting := by
  unfold Obligations.LossAccounting
  refine ⟨?pushes, ?range⟩
  case pushes =>
    intro s items hq hlost hfree hev hmore hfew
    obtain ⟨t, hrun, htq, htlost⟩ := run_pushes items hfree hev (by simp [hq]) (by simp [hq, hlost]; omega)
    refine ⟨t, hrun, by simpa [hq] using htq, ?_, by simpa [hq, hlost] using htlost⟩
    rw [htq, hq]
    simp
    omega
  case range =>
    intro s items hq hlost ha hmore
    refine ⟨_, exec_rbPushr ha, ?_, hlost⟩
    simp [hq]
    omega

/-! ## First in, first out -/

namespace Machine

/-- The data of the responses that are new in `t`, in order. -/
def newData (s t : State) : Bytes := (t.responses.drop s.responses.length).flatMap (fun r => r.data)

/-- What was queued and what was accepted are what was answered and what is queued now (rule R128). -/
def Conserves (s t : State) (accepted : Bytes) : Prop := s.rb.q ++ accepted = newData s t ++ t.rb.q

theorem newData_of_same {s t : State} (h : t.responses = s.responses) : newData s t = [] := by
  simp [newData, h]

theorem newData_of_response {s t : State} {r : Response} (h : t.responses = s.responses ++ [r]) :
    newData s t = r.data := by
  simp [newData, h]

/-- The elements an operation adds to the ring (rules R121, R122). -/
def acceptedBy (i : Instr) (s : State) : Bytes :=
  match i with
  | .rbPush x => [x].take (s.par.ringCap - s.rb.q.length)
  | .rbPushr xs => xs.take (s.par.ringCap - s.rb.q.length)
  | _ => []

theorem accepted_of_issue {s : State} {a : Agent} {c : Command} {rest : List Event} {i : Instr}
    (hev : s.events = .issue a c :: rest) (hd : decode c = .instr i) : accepted s = acceptedBy i s := by
  simp only [accepted, hev, hd]
  cases i <;> rfl

theorem accepted_of_turn {s : State} {rest : List Event}
    (hev : s.events = .turn :: rest ∨ (s.events = [] ∧ rest = [])) : accepted s = [] := by
  rcases hev with hev | ⟨hev, -⟩ <;> simp [accepted, hev]

theorem accepted_of_illegal {s : State} {a : Agent} {c : Command} {rest : List Event} {why : Illegal}
    (hev : s.events = .issue a c :: rest) (hd : decode c = .illegal why) : accepted s = [] := by
  simp [accepted, hev, hd]

section conserves
variable {s t : State}

theorem conserves_of_unchanged (hq : t.rb = s.rb) (hd : newData s t = []) : Conserves s t [] := by
  rw [Conserves, hq, hd]
  simp

theorem finishPop_conserves (s : State) : Conserves s (finishPop s) [] := by
  obtain ⟨-, h⟩ | ⟨-, h⟩ := finishPop_cases s <;> rw [h, Conserves, newData_of_response rfl] <;> simp

theorem finishPopn_conserves (min max : Word) (s : State) : Conserves s (finishPopn min max s) [] := by
  obtain ⟨-, k, -, h⟩ | ⟨-, h⟩ := finishPopn_cases min max s <;>
    rw [h, Conserves, newData_of_response rfl] <;> simp

theorem HeldOp.finish_conserves {op : HeldOp} (hop : op ≠ .iter) (s : State) :
    Conserves s (op.finish s) [] := by
  cases op with
  | pop => exact finishPop_conserves s
  | popn min max => exact finishPopn_conserves min max s
  | iter => exact absurd rfl hop

/-- Every operation but the ring's reset and the parser's iteration conserves the elements. -/
theorem exec_conserves {i : Instr} (hreset : i ≠ .rbReset) (hiter : i ≠ .fpIter) (hx : exec i s = .next t) :
    Conserves s t (acceptedBy i s) := by
  have f := exec_frame hx
  have noData (hi : i.op ∉ [.rbPop, .rbPopn]) : newData s t = [] := by
    obtain ⟨hsame, -⟩ | ⟨-, r, -, hr, hresp⟩ := f.answered
    · exact newData_of_same hsame
    · exact (newData_of_response hresp).trans (hr hi)
  cases i with
  | rbPush x =>
    obtain ⟨-, ⟨hroom, rfl⟩ | ⟨hfull, rfl⟩⟩ := execRbPush_next hx
    · rw [Conserves, newData_of_response rfl, acceptedBy, take_singleton_of_room x hroom]
      rfl
    · rw [Conserves, newData_of_response rfl]
      simp [acceptedBy, Nat.sub_eq_zero_of_le hfull]
  | rbPushr xs =>
    obtain ⟨-, k, rfl, rfl⟩ := execRbPushr_next hx
    have fits (k : Nat) : xs.take (min xs.length k) = xs.take k := by
      rw [Nat.min_comm, ← List.take_eq_take_min]
    rw [Conserves, newData_of_response rfl]
    simp [acceptedBy, fits]
  | rbPop =>
    obtain ⟨-, -, -, ⟨-, rfl⟩ | ⟨-, rfl⟩⟩ := execRbPop_next hx
    · exact finishPop_conserves s
    · exact conserves_of_unchanged rfl (newData_of_same rfl)
  | rbPopn min max =>
    obtain ⟨-, -, -, ⟨-, rfl⟩ | ⟨-, rfl⟩⟩ := execRbPopn_next hx
    · exact finishPopn_conserves min max s
    · exact conserves_of_unchanged rfl (newData_of_same rfl)
  | rbQuit =>
    obtain rfl := execRbQuit_next hx
    rw [Conserves, newData_of_response rfl]
    simp [acceptedBy]
  | rbReset => exact absurd rfl hreset
  | fpIter => exact absurd rfl hiter
  | _ => exact conserves_of_unchanged (f.rb (by simp [Instr.op])) (noData (by simp [Instr.op]))

/-- So does every step of a run with an external consumer. -/
theorem step_conserves (hstep : step s = .next t) (hnr : ¬ Resets s) (hreset : ¬ Issues s .rbReset)
    (hiter : ¬ Issues s .fpIter) (hrun : s.fp.state ≠ .run)
    (hheld : ∀ h, s.held = some h → h.op ≠ .iter) : Conserves s t (accepted s) := by
  obtain ⟨rest, hev, -⟩ | ⟨a, c, rest, i, hev, -, hd, hx⟩ | ⟨a, c, rest, why, hev, hd, rfl⟩ |
    ⟨rest, hev, hx⟩ := step_next hstep
  · exact absurd ⟨rest, hev⟩ hnr
  · rw [accepted_of_issue hev hd]
    refine exec_conserves (s := (s.withEvents rest).withIssuer a) ?_ ?_ hx
    · rintro rfl
      exact hreset ⟨a, c, rest, hev, hd⟩
    · rintro rfl
      exact hiter ⟨a, c, rest, hev, hd⟩
  · rw [accepted_of_illegal hev hd]
    exact conserves_of_unchanged rfl (newData_of_response (r := ⟨a, .badCmd, 0#32, []⟩) rfl)
  · rw [accepted_of_turn hev]
    obtain ⟨hd, hh, ⟨-, rfl⟩ | ⟨-, rfl⟩⟩ | ⟨-, ⟨hf, -⟩ | ⟨-, rfl⟩⟩ := consumerTurn_next hx
    · exact HeldOp.finish_conserves (hheld hd hh) (((s.withEvents rest).withHeld none).withIssuer hd.agent)
    · exact conserves_of_unchanged rfl (newData_of_same rfl)
    · exact absurd hf hrun
    · exact conserves_of_unchanged rfl (newData_of_same rfl)

end conserves
end Machine

/-- Settles O23: by induction along the run, each step conserving the elements (`step_conserves`). -/
theorem ringIsFirstInFirstOut : Obligations.RingIsFirstInFirstOut := by
  unfold Obligations.RingIsFirstInFirstOut
  intro s t pushed popped hrun
  induction hrun with
  | start => simp
  | step t u pushed popped _ hstep hnr hreset hiter hf hheld ih =>
    have hc : t.rb.q ++ accepted t = newData t u ++ u.rb.q := step_conserves hstep hnr hreset hiter hf hheld
    calc s.rb.q ++ (pushed ++ accepted t)
        = popped ++ (t.rb.q ++ accepted t) := by rw [← List.append_assoc, ih, List.append_assoc]
      _ = popped ++ newData t u ++ u.rb.q := by rw [hc, List.append_assoc]

end Sys2Proof
end

section
/-! The state machines (rule R236) and the three resets (rules R254, R270). -/

namespace Sys2Proof

open Sys2Proof.Machine Sys2Proof.Spec

namespace Machine

variable {s t : State} {i : Instr}

/-- `fp.state` moves only under `FP.START`, `FP.RESET` and an iteration on a closed ring. -/
theorem Effect.fpState (h : Effect i s t) (hne : t.fp.state ≠ s.fp.state) :
    i.op ∈ [.fpStart, .fpReset]
      ∨ (t.fp.state = .halted ∧ s.rb.q = [] ∧ s.rb.quit = true
        ∧ t.responses = s.responses ++ [⟨s.issuer, .closed, 0#32, []⟩]) := by
  cases h with
  | parser p hi => exact .inl hi
  | halt hi hq hquit => exact .inr ⟨rfl, hq, hquit, rfl⟩
  | _ => exact absurd rfl hne

/-- The moves of `fp.state` (rule R236). -/
theorem exec_fpState (hx : exec i s = .next t) (hne : t.fp.state ≠ s.fp.state) :
    (t.fp.state = .run ∧ i = .fpStart)
      ∨ (t.fp.state = .halted ∧ s.rb.q = [] ∧ s.rb.quit = true
        ∧ t.responses = s.responses ++ [⟨s.issuer, .closed, 0#32, []⟩])
      ∨ (t.fp.state = .idle ∧ s.fp.state = .halted ∧ i = .fpReset) := by
  obtain hi | hhalt := (exec_effect hx).fpState hne
  · cases i with
    | fpStart =>
      obtain ⟨-, -, rfl⟩ := execFpStart_next hx
      exact .inl ⟨rfl, rfl⟩
    | fpReset =>
      obtain ⟨-, ⟨-, rfl⟩ | ⟨hfree, rfl⟩⟩ := execFpReset_next hx
      · exact absurd rfl hne
      · have hrun := ((consumerBusy_false_iff s).1 hfree).2
        refine .inr (.inr ⟨rfl, ?_, rfl⟩)
        cases hs : s.fp.state with
        | idle => exact absurd hs.symm hne
        | run => exact absurd hs hrun
        | halted => rfl
    | _ => simp [Instr.op] at hi
  · exact .inr (.inl hhalt)

/-- `cfg_valid` moves only under the configuration and session operations. -/
theorem Effect.valid (h : Effect i s t) (hne : t.cle.valid ≠ s.cle.valid) :
    i.op ∈ [.csrWr, .cfgCommit, .cleReset, .stgAppend] := by
  cases h with
  | layout l hi => exact hi
  | _ => exact absurd rfl hne

/-- The moves of `cfg_valid` (rule R236). -/
theorem exec_valid (hx : exec i s = .next t) (hne : t.cle.valid ≠ s.cle.valid) :
    (t.cle.valid = true ∧ i = .cfgCommit) ∨ (t.cle.valid = false ∧ i = .cleReset) := by
  have hi := (exec_effect hx).valid hne
  cases i with
  | csrWr a v =>
    obtain ⟨-, rfl | ⟨-, rfl⟩ | ⟨-, r, cfg, -, -, rfl⟩⟩ := execCsrWr_next hx <;> exact absurd rfl hne
  | cfgCommit =>
    obtain ⟨-, ⟨-, rfl⟩ | ⟨n, -, rfl⟩ | ⟨-, -, rfl⟩⟩ := execCfgCommit_next hx
    · exact absurd rfl hne
    · exact absurd rfl hne
    · exact .inl ⟨rfl, rfl⟩
  | cleReset =>
    obtain ⟨-, rfl⟩ := execCleReset_next hx
    exact .inr ⟨rfl, rfl⟩
  | stgAppend ch b =>
    obtain ⟨-, ⟨status, -, -, rfl⟩ | ⟨-, -, -, rfl⟩⟩ := execStgAppend_next hx <;> exact absurd rfl hne
  | _ => simp [Instr.op] at hi

/-- `rb.quit` moves only under the ring operations. -/
theorem Effect.quit (h : Effect i s t) (hne : t.rb.quit ≠ s.rb.quit) :
    i.op ∈ [.rbPush, .rbPushr, .rbPop, .rbPopn, .rbQuit, .rbReset] := by
  cases h with
  | ring r value data hi => exact hi
  | _ => exact absurd rfl hne

/-- The moves of `rb.quit` (rule R236). -/
theorem exec_quit (hx : exec i s = .next t) (hne : t.rb.quit ≠ s.rb.quit) :
    (t.rb.quit = true ∧ i = .rbQuit) ∨ (t.rb.quit = false ∧ i = .rbReset) := by
  have hi := (exec_effect hx).quit hne
  cases i with
  | rbPush x =>
    obtain ⟨-, ⟨-, rfl⟩ | ⟨-, rfl⟩⟩ := execRbPush_next hx <;> exact absurd rfl hne
  | rbPushr xs =>
    obtain ⟨-, k, -, rfl⟩ := execRbPushr_next hx
    exact absurd rfl hne
  | rbPop =>
    obtain ⟨-, -, -, ⟨-, rfl⟩ | ⟨-, rfl⟩⟩ := execRbPop_next hx
    · exact absurd (HeldOp.pop.finish_quit s) hne
    · exact absurd rfl hne
  | rbPopn min max =>
    obtain ⟨-, -, -, ⟨-, rfl⟩ | ⟨-, rfl⟩⟩ := execRbPopn_next hx
    · exact absurd ((HeldOp.popn min max).finish_quit s) hne
    · exact absurd rfl hne
  | rbQuit =>
    obtain rfl := execRbQuit_next hx
    exact .inl ⟨rfl, rfl⟩
  | rbReset =>
    obtain ⟨-, ⟨-, rfl⟩ | ⟨-, rfl⟩⟩ := execRbReset_next hx
    · exact absurd rfl hne
    · exact .inr ⟨rfl, rfl⟩
  | _ => simp [Instr.op] at hi

/-- A locked configuration stays (rules R34, R231). -/
theorem exec_cfg_of_locked (hl : s.cle.locked = true) (hx : exec i s = .next t) : t.cle.cfg = s.cle.cfg := by
  cases i with
  | csrWr a v =>
    obtain ⟨-, rfl | ⟨-, rfl⟩ | ⟨hnl, -⟩⟩ := execCsrWr_next hx
    · rfl
    · rfl
    · exact absurd hl (by simp [hnl])
  | _ => exact (exec_frame hx).cfg (by simp [Instr.op])

/-- The consumer's turn changes neither the engine nor the quit signal. -/
theorem consumerTurn_cle_quit (hx : consumerTurn s = .next t) : t.cle = s.cle ∧ t.rb.quit = s.rb.quit := by
  constructor
  · obtain rfl | ⟨op, a, e⟩ := consumerTurn_effect hx
    · rfl
    · exact e.frame.cle (by cases op <;> simp [Instr.op])
  · obtain ⟨hd, -, ⟨-, rfl⟩ | ⟨-, rfl⟩⟩ | ⟨-, ⟨-, hx⟩ | ⟨-, rfl⟩⟩ := consumerTurn_next hx
    · exact hd.op.finish_quit _
    · rfl
    · by_contra hne
      obtain ⟨-, hi⟩ | ⟨-, hi⟩ := exec_quit hx hne <;> cases hi
    · rfl

end Machine

/-- Settles O55: a step that issues an operation moves what the operation moves, and a turn can only halt the
parser. -/
theorem stateMachinesMoveAsTabulated : Obligations.StateMachinesMoveAsTabulated := by
  unfold Obligations.StateMachinesMoveAsTabulated
  intro s t hnr hstep
  obtain ⟨rest, hev, -⟩ | ⟨a, c, rest, i, hev, -, hd, hx⟩ | ⟨a, c, rest, why, hev, -, rfl⟩ |
    ⟨rest, -, hx⟩ := step_next hstep
  · exact absurd ⟨rest, hev⟩ hnr
  · have issues {j : Instr} (hj : i = j) : Issues s j := ⟨a, c, rest, hev, hj ▸ hd⟩
    refine ⟨fun hne => ?_, fun hne => ?_, fun hne => ?_, ?_⟩
    · obtain ⟨hs, hi⟩ | ⟨hs, hq, hquit, hresp⟩ | ⟨hs, hs', hi⟩ := exec_fpState hx hne
      · exact .inl ⟨hs, issues hi⟩
      · exact .inr (.inl ⟨hs, hq, hquit, _, hresp⟩)
      · exact .inr (.inr ⟨hs, hs', issues hi⟩)
    · exact (exec_valid hx hne).imp (.imp_right issues) (.imp_right issues)
    · exact (exec_quit hx hne).imp (.imp_right issues) (.imp_right issues)
    · exact fun hl => exec_cfg_of_locked (s := (s.withEvents rest).withIssuer a) hl hx
  · exact ⟨(absurd rfl ·), (absurd rfl ·), (absurd rfl ·), fun _ => rfl⟩
  · obtain ⟨hcle, hquit⟩ := consumerTurn_cle_quit hx
    refine ⟨fun hne => .inr (.inl ?_), fun hne => absurd (congrArg _ hcle) hne, (absurd hquit ·),
      fun _ => congrArg _ hcle⟩
    obtain rfl | ⟨op, a, e⟩ := consumerTurn_effect hx
    · exact absurd rfl hne
    · obtain hi | ⟨hs, hq, hquit, hresp⟩ := e.fpState hne
      · cases op <;> simp [Instr.op] at hi
      · exact ⟨hs, hq, hquit, _, hresp⟩

/-- Settles O56: each reset clears its own unit, and the invariant gives the engine its `NCH_MAX` staging
buffers. -/
theorem threeResetsRecoverTheResetState : Obligations.ThreeResetsRecoverTheResetState := by
  unfold Obligations.ThreeResetsRecoverTheResetState
  intro s hs ha hn hf
  obtain ⟨hlen, -, -⟩ := hs.staging
  refine ⟨_, _, _, exec_rbReset_of_quiescent ha hn hf, exec_fpReset_of_quiescent ha hn hf,
    exec_cleReset ha, ?_⟩
  simp only [State.respond_cle, State.withParser_cle, State.withRing_cle, hlen]
  obtain ⟨par, rb, fp, cle, held, out, issuer, responses, events⟩ := s
  obtain rfl : held = none := hn
  obtain rfl : issuer = .H := ha
  rfl

end Sys2Proof
end

section
/-! Encodings, the byte order, the SFID cycle, the sentinels, and the registers after reset (rules R11, R50,
R64, R92, R99, R100, R190, R222). -/

namespace Sys2Proof

open Sys2Proof.Machine Sys2Proof.Spec

namespace Machine

/-! ## The payload byte order (rule R64) -/

@[simp] theorem swapRun_true (s : Bytes) : swapRun true s = s := by
  induction s using swapRun.induct with
  | case1 a b t ih => rw [swapRun, ih]; rfl
  | case2 a => rfl
  | case3 => rfl

theorem swapRun_pair (be : Bool) (a b : Byte) (t : Bytes) :
    swapRun be (w16 be a b ++ t) = [a, b] ++ swapRun be t := by
  cases be <;> rfl

@[simp] theorem swapRun_swapRun (be : Bool) (s : Bytes) : swapRun be (swapRun be s) = s := by
  induction s using swapRun.induct with
  | case1 a b t ih => rw [swapRun, swapRun_pair, ih]; rfl
  | case2 a => rfl
  | case3 => rfl

/-- Word `i` of a swapped run is word `i` of the run, swapped. -/
theorem swapRun_word (be : Bool) (s : Bytes) (i : Nat) (h : 2 * i + 1 < s.length) :
    ((swapRun be s).drop (2 * i)).take 2 = w16 be (s.getD (2 * i) 0#8) (s.getD (2 * i + 1) 0#8) := by
  induction s using swapRun.induct generalizing i with
  | case1 a b t ih =>
    have hw : (w16 be a b).length = 2 := w16_length ..
    cases i with
    | zero => rw [swapRun, Nat.mul_zero, List.drop_zero, ← hw, List.take_left]; rfl
    | succ i =>
      have hi : 2 * (i + 1) = (w16 be a b).length + 2 * i := by omega
      rw [swapRun, hi, ← List.drop_drop, List.drop_left, ih i (by simp at h; omega), hw]
      simp [Nat.add_comm 2]
  | case2 a => simp at h
  | case3 => simp at h

/-- An odd last byte has no partner. -/
theorem swapRun_getLast? (be : Bool) (s : Bytes) (h : s.length % 2 = 1) :
    (swapRun be s).getLast? = s.getLast? := by
  induction s using swapRun.induct with
  | case1 a b t ih =>
    have ht : t.length % 2 = 1 := by simp at h; omega
    have hne : t ≠ [] := by rintro rfl; simp at ht
    have hsome := List.getLast?_eq_some_getLast hne
    rw [swapRun, List.getLast?_append, ih ht, hsome, List.getLast?_cons_cons, List.getLast?_cons, hsome]
    rfl
  | case2 a => rfl
  | case3 => simp at h

/-! ## The SFID cycle (rule R190) -/

theorem nextSfid_toNat_of_lt {c : LayoutConfig} {s : Word} (h : s.toNat < c.sfidMax.toNat) :
    (c.nextSfid s).toNat = s.toNat + 1 := by
  have hne : s ≠ c.sfidMax := by rintro rfl; omega
  have := c.sfidMax.isLt
  rw [LayoutConfig.nextSfid, if_neg hne, BitVec.toNat_add, BitVec.toNat_ofNat]
  omega

theorem nextSfid_sfidMax (c : LayoutConfig) : c.nextSfid c.sfidMax = c.sfidMin := if_pos rfl

theorem nextSfid_iterate_toNat (c : LayoutConfig) (k : Nat) (h : c.sfidMin.toNat + k ≤ c.sfidMax.toNat) :
    (c.nextSfid^[k] c.sfidMin).toNat = c.sfidMin.toNat + k := by
  induction k with
  | zero => rfl
  | succ k ih =>
    have hk := ih (by omega)
    rw [Function.iterate_succ_apply', nextSfid_toNat_of_lt (by omega), hk, Nat.add_assoc]

/-! ## The sentinels (rules R99, R100) -/

theorem isIdle_of_mem {par : Params} {p : Bytes} (hlen : p.length = 8) (h : p ∈ sentinels par) :
    isIdle par p = true := by
  rw [isIdle_iff, List.take_of_length_le (Nat.le_of_eq hlen)]
  exact .inr h

/-- The table with the values of rule R99. -/
def completedSentinels (altPat : Bytes) : List Bytes :=
  sentinels { Params.vectors with altPat := altPat }

theorem sentinels_eq_completed {par : Params} (h : par.SentinelsOfTable) :
    sentinels par = completedSentinels par.altPat := by
  obtain ⟨h2, h3, h4⟩ := h
  simp only [completedSentinels, sentinels, h2, h3, h4]
  rfl

/-- The reversal of a sentinel is a sentinel. -/
theorem reverse_mem_sentinels {par : Params} (hp : par.Ok) (ht : par.SentinelsOfTable) {p : Bytes}
    (h : p ∈ sentinels par) : p.reverse ∈ sentinels par := by
  obtain ⟨-, -, -, -, -, halt⟩ := hp
  rw [sentinels_eq_completed ht] at h ⊢
  have closed : ∀ p ∈ completedSentinels par.altPat, p.reverse ∈ completedSentinels par.altPat := by
    rcases halt with halt | halt <;> rw [halt] <;> decide
  exact closed p h

theorem not_isIdle_example {par : Params} (hp : par.Ok) (ht : par.SentinelsOfTable) :
    isIdle par [0x11#8, 0x22#8, 0x33#8, 0x44#8, 0x55#8, 0x66#8, 0x77#8, 0x88#8] = false := by
  obtain ⟨-, -, -, -, -, halt⟩ := hp
  rw [isIdle, sentinels_eq_completed ht]
  rcases halt with halt | halt <;> rw [halt] <;> decide

end Machine

/-- Settles O59: by induction along the pairs. -/
theorem payloadSwapIsItsOwnInverse : Obligations.PayloadSwapIsItsOwnInverse := by
  unfold Obligations.PayloadSwapIsItsOwnInverse
  exact ⟨fun a b => ⟨rfl, rfl⟩, fun be s =>
    ⟨swapRun_swapRun be s, swapRun_length be s, swapRun_word be s, swapRun_getLast? be s⟩⟩

/-- Settles O60: the general encodings are inverse to each other; the magic bytes are evaluated. -/
theorem integerEncodingsAreBigEndian : Obligations.IntegerEncodingsAreBigEndian := by
  unfold Obligations.IntegerEncodingsAreBigEndian
  refine ⟨fun a b c d => ?_, fun k v h => ⟨encBe_length k v, ?_⟩, encBe_decBe, hdrBytes_eq, trlBytes_eq,
    ?_, ?_⟩
  · simp only [be32, decBe, List.foldl_cons, List.foldl_nil]
    omega
  · rw [decBe_encBe, Nat.mod_eq_of_lt h]
  · decide
  · decide

/-- Settles O45: the SFID counts up from `sfid_min`, and `sfid_max` is followed by `sfid_min`. -/
theorem sfidCyclesThroughItsRange : Obligations.SfidCyclesThroughItsRange := by
  unfold Obligations.SfidCyclesThroughItsRange
  intro c hc
  refine ⟨fun k hk => nextSfid_iterate_toNat c k (by omega), ?_⟩
  have last : c.nextSfid^[c.sfidMax.toNat - c.sfidMin.toNat] c.sfidMin = c.sfidMax := by
    apply BitVec.eq_of_toNat_eq
    rw [nextSfid_iterate_toNat c _ (by omega)]
    omega
  rw [Function.iterate_succ_apply', last, nextSfid_sfidMax]

/-- Settles O49: the examples by the table, and the completed table is closed under reversal. -/
theorem idleExamplesAndReversal : Obligations.IdleExamplesAndReversal := by
  unfold Obligations.IdleExamplesAndReversal
  intro par
  refine ⟨isIdle_of_mem rfl ?_, isIdle_of_mem rfl ?_, fun p hp => (isIdle_iff ..).2 (.inl (by omega)),
    not_isIdle_example, fun hp ht p => ⟨reverse_mem_sentinels hp ht, fun h => ?_⟩⟩
  · exact List.mem_cons_self
  · exact List.mem_cons_of_mem _ List.mem_cons_self
  · rw [← List.reverse_reverse p]
    exact reverse_mem_sentinels hp ht h

/-- Settles O2: each register is in the map, and the map of the reset state is evaluated. -/
theorem registersReadTheirResetValues : Obligations.RegistersReadTheirResetValues := by
  unfold Obligations.RegistersReadTheirResetValues
  intro p hp
  have reads {a : BitVec 16} {v : Word} (h : (a, v) ∈ csrMap (State.resetWith p)) :
      exec (.csrRd a) (State.resetWith p) = .next (onlyAnswers (State.resetWith p) .ok v) :=
    (registerReadsFollowTheMap _ a hp).2.1 v h
  have cap : 0 ≠ p.ringCap := by
    obtain ⟨⟨h1, -⟩, -⟩ := hp
    omega
  refine ⟨fun a ha => reads ?_, reads ?_, reads ?_, reads ?_, fun c hc => reads ?_⟩
  · refine List.mem_append_left _ ?_
    fin_cases ha <;> simp [LayoutConfig.reset]
  · simp [csrMap]
  · simp [csrMap, cap]
  · simp [csrMap, LayoutConfig.reset]
  · refine List.mem_append_right _ (List.mem_map.2 ⟨c, List.mem_range.2 hc, ?_⟩)
    simp

end Sys2Proof
end

section
/-! Demultiplexing and multiplexing (rules R175 to R198): which bytes each channel gains or gives, where a frame
holds them, and that the one undoes the other. -/

namespace Sys2Proof

open Sys2Proof.Machine Sys2Proof.Spec

namespace Spec

/-- What the demultiplex operation of the policy does with a frame of the right length. -/
def Policy.route (p : Policy) (f : Bytes) (s : State) : Result :=
  match p with
  | .xc => .next ((s.withDout (routeWords s.cle.cfg f s.out.dout)).respondOk 0)
  | .cc => .next ((s.withDout (routeBlocks s.cle.cfg f s.out.dout)).respondOk 0)
  | .row => .next (routeRow (s.cle.cfg.rowCh (frameSfid f)) f s)
  | .rc =>
    if s.cle.cfg.check5 then .next (routeRow (s.cle.cfg.rcCh (frameSfid f)) f s)
    else .next (s.raiseError .cfgInvalid 5)

end Spec

namespace Machine

section checks
variable {s : State} {f : Bytes} {p : Policy}

/-- Every demultiplex operation makes the common checks first (rule R175). -/
theorem exec_dmx (ha : s.issuer = .Y) : exec (p.dmx f) s = demux f s (p.route f s) := by
  cases p <;> exact byRole_of_eq rfl ha

theorem exec_dmx_of_notConfigured (ha : s.issuer = .Y) (hv : s.cle.valid = false) :
    exec (p.dmx f) s = .next (s.respond .notConfigured 0#32 []) := by
  rw [exec_dmx ha, demux, if_pos (by simp [hv])]
  rfl

theorem exec_dmx_of_badLength (ha : s.issuer = .Y) (hv : s.cle.valid = true) (hl : f.length ≠ s.cle.cfg.fl) :
    exec (p.dmx f) s = .next (s.respond .badOperand 0#32 []) := by
  rw [exec_dmx ha, demux, if_neg (by simp [hv]), if_pos hl]
  rfl

theorem exec_dmx_of_length (ha : s.issuer = .Y) (hv : s.cle.valid = true) (hl : f.length = s.cle.cfg.fl) :
    exec (p.dmx f) s = p.route f s := by
  rw [exec_dmx ha, demux, if_neg (by simp [hv]), if_neg (by simp [hl])]

theorem exec_mux_of_notConfigured (ha : s.issuer = .X) (hv : s.cle.valid = false) :
    exec p.mux s = .next (s.respond .notConfigured 0#32 []) := by
  have invalid : ¬ s.cle.valid = true := by simp [hv]
  cases p <;> exact (byRole_of_eq rfl ha).trans (if_pos invalid)

theorem exec_muxRc_of_not_check5 (ha : s.issuer = .X) (hv : s.cle.valid = true) (h5 : ¬ Check5 s.cle.cfg) :
    exec .muxRc s = .next (s.respond .cfgInvalid 5#32 []) := by
  have hc : ¬ s.cle.cfg.check5 = true := by rwa [check5_iff]
  exact (byRole_of_eq rfl ha).trans ((if_neg (not_not.2 hv)).trans (if_neg hc))

end checks

end Machine

/-- Settles O36: the checks in their order, before the policies part. -/
theorem layoutOperationsRefuseWithoutConfiguration :
    Obligations.LayoutOperationsRefuseWithoutConfiguration := by
  unfold Obligations.LayoutOperationsRefuseWithoutConfiguration
  refine ⟨fun p f s ha => ⟨exec_dmx_of_notConfigured ha, exec_dmx_of_badLength ha, ?_⟩,
    fun p s ha => ⟨exec_mux_of_notConfigured ha, ?_⟩⟩
  · rintro hv hl rfl h5
    rw [exec_dmx_of_length ha hv hl, Policy.route, if_neg (by rwa [check5_iff])]
    rfl
  · rintro hv rfl h5
    exact exec_muxRc_of_not_check5 ha hv h5

namespace Machine

/-! ## The committed configuration -/

section committed
variable {s : State} (hs : s.Inv) (hv : s.cle.valid = true)
include hs hv

theorem State.Inv.firstFailure : s.cle.cfg.firstFailure s.par = none := by
  obtain ⟨-, hcommitted, -⟩ := hs.config
  exact (hcommitted hv).1

theorem State.Inv.n_pos : 0 < s.cle.cfg.n := ((firstFailure_eq_none_iff ..).1 (hs.firstFailure hv)).1.1

theorem State.Inv.n_le_dout_length : s.cle.cfg.n ≤ s.out.dout.length := by
  obtain ⟨⟨-, hn⟩, -⟩ := (firstFailure_eq_none_iff ..).1 (hs.firstFailure hv)
  rwa [hs.dout_length]

/-- The header leaves room for a payload. -/
theorem State.Inv.p0_lt_fl : s.cle.cfg.p0 < s.cle.cfg.fl := by
  obtain ⟨-, hlen, -⟩ := (firstFailure_eq_none_iff ..).1 (hs.firstFailure hv)
  have hp0 : s.cle.cfg.p0 = 6 + s.cle.cfg.rl := rfl
  omega

/-- The current SFID fits its two bytes. -/
theorem State.Inv.sfidCur_lt : s.cle.sfidCur.toNat < 2 ^ 16 := by
  obtain ⟨-, -, -, hmax⟩ := (firstFailure_eq_none_iff ..).1 (hs.firstFailure hv)
  obtain ⟨-, hcommitted, -⟩ := hs.config
  obtain ⟨-, -, hle⟩ := hcommitted hv
  omega

end committed

/-! ## Demultiplexing -/

/-- Words of two bytes each, for the word numbers of channel `ch` (rule R180). -/
theorem flatMap_words_length (w n ch : Nat) (h : ch < n) (g : Nat → Bytes) (hg : ∀ i, (g i).length = 2) :
    (((List.range w).filter (fun i => i % n = ch)).flatMap g).length = 2 * ((w - ch + n - 1) / n) := by
  rw [flatMap_length_const _ _ 2 fun i _ => hg i, filter_range_mod w n ch h, List.length_map, List.length_range]

theorem slice_block (f : Bytes) (p0 c bpc : Nat) :
    slice f (p0 + c * bpc) (p0 + (c + 1) * bpc) = (f.drop (p0 + c * bpc)).take bpc := by
  rw [slice, Nat.succ_mul]
  congr 1
  omega

/-- A row's channel is one of the configured (rule R176). -/
theorem rowChannel_lt {c : LayoutConfig} (hn : 0 < c.n) {sfid own : Nat} (h : rowChannel c sfid = some own) :
    own < c.n := by
  unfold rowChannel at h
  split at h
  · cases h
  · cases h
    exact Nat.mod_lt _ hn

theorem runChannel_lt {c : LayoutConfig} {sfid own : Nat} (h : runChannel c sfid = some own) : own < c.n := by
  unfold runChannel at h
  dsimp only at h
  split at h
  · cases h
  · split at h
    · cases h
      assumption
    · cases h

/-- The channel that a frame's SFID belongs to; the column policies have no such channel. -/
def channelOf (p : Policy) (c : LayoutConfig) (sfid : Nat) : Option Nat :=
  match p with
  | .xc => none
  | .cc => none
  | .row => rowChannel c sfid
  | .rc => runChannel c sfid

theorem rowOf_eq (p : Policy) (s : State) : p.rowOf s = channelOf p s.cle.cfg s.cle.sfidCur.toNat := by
  cases p <;> rfl

theorem channelOf_lt {p : Policy} {c : LayoutConfig} (hn : 0 < c.n) {sfid own : Nat}
    (h : channelOf p c sfid = some own) : own < c.n := by
  cases p with
  | xc => cases h
  | cc => cases h
  | row => exact rowChannel_lt hn h
  | rc => exact runChannel_lt h

/-- The row policies route by the SFID in the frame (rules R182, R183). -/
theorem route_row {p : Policy} {s : State} {f : Bytes} (hp : p = .row ∨ p = .rc) (hr : p.Ready s) :
    p.route f s = .next (routeRow (channelOf p s.cle.cfg (decBe ((f.drop 4).take 2))) f s) := by
  rcases hp with rfl | rfl
  · rfl
  · exact if_pos ((check5_iff _).2 (hr.2 rfl))

end Machine

/-- Settles O37: the words go to the channels in turn. -/
theorem demuxColumnCrossRoutesWords : Obligations.DemuxColumnCrossRoutesWords := by
  unfold Obligations.DemuxColumnCrossRoutesWords
  intro f s hs ha hv hl
  have hn := hs.n_pos hv
  have routed := channel_routeWords s.cle.cfg f s.out.dout (hs.n_le_dout_length hv) hn
  refine ⟨_, exec_dmx_of_length (p := .xc) ha hv hl, routeWords_length .., fun c _ => routed c,
    fun c hc => ?_, fun c hc => ?_⟩
  · rw [routed c, List.length_append]
    exact congrArg _ (flatMap_words_length _ _ c hc _ fun i => w16_length ..)
  · have nobody : (List.range s.cle.cfg.w).filter (fun i => i % s.cle.cfg.n = c) = [] := by
      refine List.filter_eq_nil_iff.2 fun i _ => ?_
      have := Nat.mod_lt i hn
      simp
      omega
    rw [routed c, nobody, List.flatMap_nil, List.append_nil]

/-- Settles O38: block `c` goes to channel `c`. -/
theorem demuxColumnContinuousRoutesBlocks : Obligations.DemuxColumnContinuousRoutesBlocks := by
  unfold Obligations.DemuxColumnContinuousRoutesBlocks
  intro f s hs ha hv hl
  have routed := channel_routeBlocks s.cle.cfg f s.out.dout (hs.n_le_dout_length hv)
  refine ⟨_, exec_dmx_of_length (p := .cc) ha hv hl, routeBlocks_length .., ?_, fun c hc => ?_⟩
  · rintro bpc rfl c hc
    rw [routed c, if_pos hc, slice_block]
    rfl
  · rw [routed c, if_neg (Nat.not_lt.2 hc)]

/-- Settles O39: the SFID names the one channel that gains, or none. -/
theorem demuxRowRoutesTheWholePayload : Obligations.DemuxRowRoutesTheWholePayload := by
  unfold Obligations.DemuxRowRoutesTheWholePayload
  intro p f s ch hs ha hr hl hch
  obtain ⟨hp, rfl⟩ : (p = .row ∨ p = .rc) ∧ channelOf p s.cle.cfg (decBe ((f.drop 4).take 2)) = ch := by
    obtain ⟨rfl, rfl⟩ | ⟨rfl, rfl⟩ := hch
    · exact ⟨.inl rfl, rfl⟩
    · exact ⟨.inr rfl, rfl⟩
  rw [exec_dmx_of_length ha hr.1 hl, route_row hp hr]
  refine ⟨fun hnone => by rw [hnone]; rfl, fun own hown => ?_⟩
  have hlt := channelOf_lt (hs.n_pos hr.1) hown
  have hbuffer : own < s.out.dout.length := Nat.lt_of_lt_of_le hlt (hs.n_le_dout_length hr.1)
  rw [hown]
  refine ⟨hlt, _, rfl, appendAt_length .., ?_, fun c hc => ?_⟩
  · rw [channel_appendAt _ _ _ _ hbuffer, if_pos rfl, payload_eq hl]
  · rw [channel_appendAt _ _ _ _ hbuffer, if_neg hc]

end Sys2Proof
end

section
/-! Multiplexing (rules R185 to R198): the data frame and where it holds the staged bytes, the length of every
frame, and what the demultiplexer of the same policy makes of it. -/

namespace Sys2Proof

open Sys2Proof.Machine Sys2Proof.Spec

namespace Machine

/-! ## The data frame (rule R185) -/

/-- The bytes a data frame of the policy takes of each channel (rules R185, R191 to R194). -/
def takenOf (p : Policy) (s : State) (c : Nat) : Bytes := (channel s.cle.stg c).take (p.need s c)

theorem buildFrame_of_supplied {s : State} {unassigned : Bool} {need : Nat → Nat}
    {place : (Nat → Bytes) → Bytes} (hu : unassigned = false) (hn : s.short need = false) :
    buildFrame unassigned need place s
      = (s.withLayout { s.cle with stg := takeNeeded s.cle.cfg.n need s.cle.stg }).emitBuilt
          (place (fun c => (channel s.cle.stg c).take (need c))) 0 := by
  simp [buildFrame, hu, hn]

section supplied
variable {p : Policy} {s : State} (hsup : p.Supplied s)
include hsup

theorem supplied_not_short : p.unassigned s = false ∧ s.short (p.need s) = false := by
  obtain ⟨hassigned, hneed⟩ := hsup
  refine ⟨Bool.eq_false_iff.2 fun h => ?_, Bool.eq_false_iff.2 fun h => ?_⟩
  · exact hassigned ((Policy.unassigned_iff p s).1 h)
  · obtain ⟨c, hc, hlt⟩ := (short_iff s _).1 h
    exact absurd (hneed c hc) (Nat.not_le.2 hlt)

theorem takenOf_length {c : Nat} (hc : c < s.cle.cfg.n) : (takenOf p s c).length = p.need s c := by
  rw [takenOf, List.length_take]
  exact Nat.min_eq_left (hsup.2 c hc)

/-- A supplied frame of a row policy has a channel. -/
theorem supplied_rowOf (hp : p = .row ∨ p = .rc) : ∃ own, p.rowOf s = some own := by
  obtain ⟨hassigned, -⟩ := hsup
  exact Option.ne_none_iff_exists'.1 fun hnone => hassigned ⟨hp, hnone⟩

/-- The one outcome of a supplied multiplex operation. -/
theorem exec_mux_of_supplied (hr : p.Ready s) (ha : s.issuer = .X) :
    exec p.mux s
      = .next ((s.withLayout { s.cle with stg := takeNeeded s.cle.cfg.n (p.need s) s.cle.stg }).emitBuilt
          (p.place s (takenOf p s)) 0) := by
  obtain ⟨hu, hn⟩ := supplied_not_short hsup
  rw [exec_mux ha hr, buildFrame_of_supplied hu hn]
  rfl

end supplied

theorem exec_mux_next {p : Policy} {s t : State} (h : exec p.mux s = .next t) :
    s.issuer = .X ∧ MuxNext s t := by
  cases p with
  | xc => exact execMuxXc_next h
  | cc => exact execMuxCc_next h
  | row => exact execMuxRow_next h
  | rc => exact execMuxRc_next h

/-! ## Where the policies lay the bytes (rules R191 to R194) -/

theorem need_of_row {p : Policy} (hp : p = .row ∨ p = .rc) (s : State) (c : Nat) :
    p.need s c = if p.rowOf s = some c then s.cle.cfg.pl else 0 := by
  rcases hp with rfl | rfl <;> rfl

theorem place_of_row {p : Policy} (hp : p = .row ∨ p = .rc) {s : State} {own : Nat} (h : p.rowOf s = some own)
    (u : Nat → Bytes) : p.place s u = swapRun s.cle.cfg.bigendian (u own) := by
  rcases hp with rfl | rfl <;> rw [Policy.place, h] <;> rfl

theorem rowOf_lt {p : Policy} {s : State} (hn : 0 < s.cle.cfg.n) {own : Nat} (h : p.rowOf s = some own) :
    own < s.cle.cfg.n := channelOf_lt hn ((rowOf_eq p s).symm.trans h)

/-- Word `i` of a column-cross payload (rule R191). -/
theorem placeWords_word (c : LayoutConfig) (u : Nat → Bytes) {i : Nat} (hi : i < c.w) :
    ((placeWords c u).drop (2 * i)).take 2
      = w16 c.bigendian (byteAt (u (i % c.n)) (2 * (i / c.n))) (byteAt (u (i % c.n)) (2 * (i / c.n) + 1)) :=
  drop_take_flatMap_range c.w 2 i _ _ hi fun _ _ => w16_length ..

theorem placeWords_tail (c : LayoutConfig) (u : Nat → Bytes) :
    (placeWords c u).drop (2 * c.w) = zeros (c.pl % 2) := by
  refine List.drop_left' ?_
  rw [flatMap_length_const _ _ 2 fun _ _ => w16_length .., List.length_range]

/-- Block `c` of a column-continuous payload (rule R192). -/
theorem placeBlocks_block {c : LayoutConfig} {u : Nat → Bytes} (h : ∀ i < c.n, (u i).length = c.bpc)
    {i : Nat} (hi : i < c.n) : ((placeBlocks c u).drop (i * c.bpc)).take c.bpc = u i := by
  rw [Nat.mul_comm]
  exact drop_take_flatMap_range c.n c.bpc i u _ hi h

theorem placeBlocks_tail {c : LayoutConfig} {u : Nat → Bytes} (h : ∀ i < c.n, (u i).length = c.bpc) :
    (placeBlocks c u).drop (c.n * c.bpc) = zeros (c.pl - c.n * c.bpc) := by
  refine List.drop_left' ?_
  rw [flatMap_length_const _ _ c.bpc fun i hi => h i (List.mem_range.1 hi), List.length_range, Nat.mul_comm]

/-- Channel `i mod N` has a word number `i div N` (rule R191). -/
theorem div_lt_cnt (c : LayoutConfig) {i : Nat} (hn : 0 < c.n) (hi : i < c.w) : i / c.n < c.cnt (i % c.n) := by
  have hdiv := Nat.div_add_mod i c.n
  rw [LayoutConfig.cnt, Nat.lt_iff_add_one_le, Nat.le_div_iff_mul_le hn, Nat.succ_mul, Nat.mul_comm]
  omega

theorem byteAt_take {l : Bytes} {k j : Nat} (h : j < k) : byteAt (l.take k) j = byteAt l j := by
  simp [byteAt, List.getD_eq_getElem?_getD, h]

theorem place_length {p : Policy} {s : State} (hn : 0 < s.cle.cfg.n) (hsup : p.Supplied s) :
    (p.place s (takenOf p s)).length = s.cle.cfg.pl := by
  have row (hp : p = .row ∨ p = .rc) : (p.place s (takenOf p s)).length = s.cle.cfg.pl := by
    obtain ⟨own, hown⟩ := supplied_rowOf hsup hp
    rw [place_of_row hp hown, swapRun_length, takenOf_length hsup (rowOf_lt hn hown), need_of_row hp,
      if_pos hown]
  cases p with
  | xc => exact placeWords_length ..
  | cc => exact placeBlocks_length _ _ fun i hi => takenOf_length hsup hi
  | row => exact row (.inl rfl)
  | rc => exact row (.inr rfl)

end Machine

/-- Settles O41: the data frame of the common builder, with the bytes the policy needs. -/
theorem muxBuildsADataFrameWhenSupplied : Obligations.MuxBuildsADataFrameWhenSupplied := by
  unfold Obligations.MuxBuildsADataFrameWhenSupplied
  intro p s hs ha hr hsup
  refine ⟨_, _, exec_mux_of_supplied hsup hr ha, place_length (hs.n_pos hr.1) hsup, takeNeeded_length ..,
    fun c hc => ?_, fun c hc => ?_⟩
  · exact (channel_takeNeeded ..).trans (if_pos hc)
  · exact (channel_takeNeeded ..).trans (if_neg (Nat.not_lt.2 hc))

/-- Settles O42: word `i` of the payload, whose bytes are among those taken of its channel. -/
theorem muxColumnCrossInterleavesWords : Obligations.MuxColumnCrossInterleavesWords := by
  unfold Obligations.MuxColumnCrossInterleavesWords
  intro s t hs ha hr hsup ht
  obtain rfl := Host.Outcome.next.inj ((exec_mux_of_supplied hsup hr ha).symm.trans ht)
  refine ⟨_, rfl, fun i hi => ?_, placeWords_tail ..⟩
  have hcnt := div_lt_cnt s.cle.cfg (hs.n_pos hr.1) hi
  refine (placeWords_word s.cle.cfg _ hi).trans ?_
  have hneed : Policy.xc.need s (i % s.cle.cfg.n) = 2 * s.cle.cfg.cnt (i % s.cle.cfg.n) := rfl
  rw [takenOf, hneed, byteAt_take (by omega), byteAt_take (by omega)]
  rfl

/-- Settles O43: the blocks one after the other, or the row's own bytes. -/
theorem muxLaysBlocksAndRows : Obligations.MuxLaysBlocksAndRows := by
  unfold Obligations.MuxLaysBlocksAndRows
  intro p s t hs ha hr hsup ht
  obtain rfl := Host.Outcome.next.inj ((exec_mux_of_supplied hsup hr ha).symm.trans ht)
  refine ⟨_, rfl, ?blocks, ?row⟩
  case blocks =>
    rintro rfl bpc rfl
    have hblock : ∀ i < s.cle.cfg.n, (takenOf .cc s i).length = s.cle.cfg.bpc := fun i hi =>
      takenOf_length hsup hi
    exact ⟨fun c hc => placeBlocks_block hblock hc, placeBlocks_tail hblock⟩
  case row =>
    intro hp own hown
    rw [place_of_row hp hown, takenOf, need_of_row hp, if_pos hown]
    rfl

/-- Settles O44: without a configuration no frame is built; an idle frame and a data frame both have the header
and the payload region in full. -/
theorem everyBuiltFrameHasTheFrameLength : Obligations.EveryBuiltFrameHasTheFrameLength := by
  unfold Obligations.EveryBuiltFrameHasTheFrameLength
  intro p s t hs ht
  have ha : s.issuer = .X := (exec_mux_next ht).1
  by_cases hv : s.cle.valid = true
  · by_cases hr : p = .rc → Check5 s.cle.cfg
    · have whole {payload : Bytes} (hl : payload.length = s.cle.cfg.fl - s.cle.cfg.p0) :
          (frameHead s ++ payload).length = s.cle.cfg.frameLen.toNat := by
        have hhead : (frameHead s).length = s.cle.cfg.p0 := head_length ..
        have hlt := hs.p0_lt_fl hv
        rw [List.length_append, hhead, hl]
        exact Nat.add_sub_cancel' (Nat.le_of_lt hlt)
      by_cases hsup : p.Supplied s
      · obtain ⟨payload, stg, hx, hl, -⟩ := muxBuildsADataFrameWhenSupplied p s hs ha ⟨hv, hr⟩ hsup
        obtain rfl := Host.Outcome.next.inj (hx.symm.trans ht)
        exact .inr ⟨_, rfl, whole hl⟩
      · obtain ⟨payload, hx, hl, -⟩ := muxBuildsAnIdleFrameWhenShort p s hs ha ⟨hv, hr⟩ hsup
        obtain rfl := Host.Outcome.next.inj (hx.symm.trans ht)
        exact .inr ⟨_, rfl, whole hl⟩
    · obtain ⟨rfl, h5⟩ : p = .rc ∧ ¬ Check5 s.cle.cfg := by simpa using hr
      obtain rfl := Host.Outcome.next.inj ((exec_muxRc_of_not_check5 ha hv h5).symm.trans ht)
      exact .inl rfl
  · obtain rfl := Host.Outcome.next.inj ((exec_mux_of_notConfigured ha (Bool.eq_false_iff.2 hv)).symm.trans ht)
    exact .inl rfl

end Sys2Proof
end

section
/-! What the demultiplexer makes of the multiplexer's frames (rules R196, R198): the bytes taken, or the
filler. -/

namespace Sys2Proof

open Sys2Proof.Machine Sys2Proof.Spec

namespace Machine

/-! ## Words and pairs of bytes -/

theorem byteAt_of_word {l : Bytes} {j : Nat} {a b : Byte} (h : (l.drop j).take 2 = [a, b]) :
    byteAt l j = a ∧ byteAt l (j + 1) = b := by
  have first : byteAt ((l.drop j).take 2) 0 = byteAt l j := by simp [byteAt, List.getD_eq_getElem?_getD]
  have second : byteAt ((l.drop j).take 2) 1 = byteAt l (j + 1) := by simp [byteAt, List.getD_eq_getElem?_getD]
  rw [← first, ← second, h]
  exact ⟨rfl, rfl⟩

/-- A word swapped and swapped again is its two bytes (rule R64). -/
theorem w16_of_word {be : Bool} {l : Bytes} {j : Nat} {a b : Byte} (h : (l.drop j).take 2 = w16 be a b) :
    w16 be (byteAt l j) (byteAt l (j + 1)) = [a, b] := by
  cases be <;> obtain ⟨h0, h1⟩ := byteAt_of_word h <;> rw [h0, h1] <;> rfl

/-- A string of an even length, pair by pair. -/
theorem flatMap_pairs (v : Bytes) (k : Nat) (h : v.length = 2 * k) :
    (List.range k).flatMap (fun i => [byteAt v (2 * i), byteAt v (2 * i + 1)]) = v := by
  induction k generalizing v with
  | zero => exact (List.length_eq_zero_iff.1 h).symm
  | succ k ih =>
    match v, h with
    | a :: b :: t, h =>
      have ht := ih t (by simp at h; omega)
      rw [List.range_succ_eq_map, List.flatMap_cons, List.flatMap_map]
      exact congrArg (a :: b :: ·) ht

/-! ## The frame a multiplexer builds -/

/-- The data frame of the policy (rule R185). -/
def dataFrame (p : Policy) (s : State) : Bytes := frameHead s ++ p.place s (takenOf p s)

theorem frameHead_length (s : State) : (frameHead s).length = s.cle.cfg.p0 := head_length ..

theorem dataFrame_drop (p : Policy) (s : State) (k : Nat) :
    (dataFrame p s).drop (s.cle.cfg.p0 + k) = (p.place s (takenOf p s)).drop k := by
  rw [dataFrame, ← frameHead_length, ← List.drop_drop, List.drop_left]

/-- The frame carries the SFID of its row (rule R97). -/
theorem dataFrame_sfid (p : Policy) {s : State} (h : s.cle.sfidCur.toNat < 2 ^ 16) :
    decBe (((dataFrame p s).drop 4).take 2) = s.cle.sfidCur.toNat := by
  have hfield : ((dataFrame p s).drop 4).take 2 = encBe 2 s.cle.sfidCur.toNat := by
    have hsync := encBe_length 4 s.cle.cfg.syncWord.toNat
    have hsfid := encBe_length 2 s.cle.sfidCur.toNat
    rw [dataFrame, frameHead, List.append_assoc, List.append_assoc, List.drop_left' hsync,
      List.take_left' hsfid]
  rw [hfield, decBe_encBe]
  exact Nat.mod_eq_of_lt h

section roundTrip
variable {p : Policy} {s : State} (hs : s.Inv) (hv : s.cle.valid = true) (hsup : p.Supplied s)
include hs hv hsup

theorem dataFrame_length : (dataFrame p s).length = s.cle.cfg.fl := by
  rw [dataFrame, List.length_append, frameHead_length, place_length (hs.n_pos hv) hsup]
  exact Nat.add_sub_cancel' (Nat.le_of_lt (hs.p0_lt_fl hv))

end roundTrip

/-- The words of channel `c` in a column-cross frame, as the demultiplexer delivers them, are the bytes taken
of it. -/
theorem frameWords_dataFrame {s : State} (hn : 0 < s.cle.cfg.n) (hsup : Policy.xc.Supplied s) {c : Nat}
    (hc : c < s.cle.cfg.n) :
    ((List.range s.cle.cfg.w).filter (fun i => i % s.cle.cfg.n = c)).flatMap
        (frameWord s.cle.cfg (dataFrame .xc s)) = takenOf .xc s c := by
  have word : ∀ i ∈ (List.range s.cle.cfg.w).filter (fun i => i % s.cle.cfg.n = c),
      frameWord s.cle.cfg (dataFrame .xc s) i
        = [byteAt (takenOf .xc s c) (2 * (i / s.cle.cfg.n)),
            byteAt (takenOf .xc s c) (2 * (i / s.cle.cfg.n) + 1)] := by
    intro i hi
    obtain ⟨hi, hic⟩ := List.mem_filter.1 hi
    have hplaced := placeWords_word s.cle.cfg (takenOf .xc s) (List.mem_range.1 hi)
    rw [show i % s.cle.cfg.n = c by simpa using hic] at hplaced
    refine w16_of_word (j := s.cle.cfg.p0 + 2 * i) ?_
    rw [dataFrame_drop]
    exact hplaced
  have hlen : (takenOf .xc s c).length = 2 * s.cle.cfg.cnt c := takenOf_length hsup hc
  have quotient (k : Nat) : (k * s.cle.cfg.n + c) / s.cle.cfg.n = k := by
    rw [Nat.mul_comm, Nat.mul_add_div hn, Nat.div_eq_of_lt hc, Nat.add_zero]
  rw [List.flatMap_congr word, filter_range_mod _ _ _ hc, List.flatMap_map]
  simp only [quotient]
  exact flatMap_pairs _ _ hlen

/-- The demultiplexer of the policy, given the data frame in a state with the same configuration, adds to each
channel the bytes the frame took of it (rule R196). -/
theorem exec_dmx_dataFrame {p : Policy} {s v : State} (hs : s.Inv) (hr : p.Ready s) (hsup : p.Supplied s)
    (hvinv : v.Inv) (ha : v.issuer = .Y) (hvalid : v.cle.valid = true) (hcfg : v.cle.cfg = s.cle.cfg) :
    ∃ u, exec (p.dmx (dataFrame p s)) v = .next u
      ∧ ∀ c < s.cle.cfg.n, channel u.out.dout c = channel v.out.dout c ++ takenOf p s c := by
  have hn := hs.n_pos hr.1
  have hl : (dataFrame p s).length = v.cle.cfg.frameLen.toNat := by
    rw [hcfg]
    exact dataFrame_length hs hr.1 hsup
  have row (hp : p = .row ∨ p = .rc) : ∃ u, exec (p.dmx (dataFrame p s)) v = .next u
      ∧ ∀ c < s.cle.cfg.n, channel u.out.dout c = channel v.out.dout c ++ takenOf p s c := by
    obtain ⟨own, hown⟩ := supplied_rowOf hsup hp
    have hready : p.Ready v := ⟨hvalid, by rw [hcfg]; exact hr.2⟩
    have hsfid := dataFrame_sfid p (hs.sfidCur_lt hr.1)
    obtain ⟨-, dout, hx, -, hgain, hother⟩ :=
      (demuxRowRoutesTheWholePayload p (dataFrame p s) v (p.rowOf s) hvinv ha hready hl (by
        rw [hsfid, hcfg]
        exact hp.imp (fun h => ⟨h, by rw [h]; rfl⟩) (fun h => ⟨h, by rw [h]; rfl⟩))).2 own hown
    refine ⟨_, hx, fun c hc => ?_⟩
    by_cases hco : c = own
    · rw [hco]
      refine hgain.trans (congrArg _ ?_)
      have hpayload := dataFrame_drop p s 0
      rw [Nat.add_zero, List.drop_zero] at hpayload
      rw [hcfg, hpayload, place_of_row hp hown, swapRun_swapRun]
    · have nothing : takenOf p s c = [] := by
        rw [takenOf, need_of_row hp, if_neg (by rw [hown]; simpa using Ne.symm hco), List.take_zero]
      rw [nothing, List.append_nil]
      exact hother c hco
  cases p with
  | xc =>
    obtain ⟨dout, hx, -, hgain, -⟩ := demuxColumnCrossRoutesWords (dataFrame .xc s) v hvinv ha hvalid hl
    rw [hcfg] at hgain
    refine ⟨_, hx, fun c hc => (hgain c hc).trans (congrArg _ ?_)⟩
    exact frameWords_dataFrame hn hsup hc
  | cc =>
    obtain ⟨dout, hx, -, hgain, -⟩ :=
      demuxColumnContinuousRoutesBlocks (dataFrame .cc s) v hvinv ha hvalid hl
    rw [hcfg] at hgain
    refine ⟨_, hx, fun c hc => (hgain _ rfl c hc).trans (congrArg _ ?_)⟩
    rw [dataFrame_drop]
    exact placeBlocks_block (fun i hi => takenOf_length hsup hi) hc
  | row => exact row (.inl rfl)
  | rc => exact row (.inr rfl)

/-! ## The idle frame (rule R198) -/

/-- A run of equal words, byte by byte. -/
theorem flatMap_words_byteAt {l : List Nat} {g : Nat → Bytes} {a b : Byte} (hg : ∀ i ∈ l, g i = [a, b])
    {j : Nat} (hj : j < (l.flatMap g).length) : byteAt (l.flatMap g) j = if j % 2 = 0 then a else b := by
  induction l generalizing j with
  | nil => simp at hj
  | cons i l ih =>
    obtain ⟨hi, hl⟩ := List.forall_mem_cons.1 hg
    rw [List.flatMap_cons, hi] at hj ⊢
    match j with
    | 0 => rfl
    | 1 => rfl
    | j + 2 =>
      have := ih hl (j := j) (by simpa using hj)
      simpa [byteAt] using this

theorem fillerByte_succ (j : Nat) : fillerByte (j + 1) = if j % 2 = 0 then 0xDE#8 else 0xFA#8 := by
  rcases Nat.mod_two_eq_zero_or_one j with h | h <;> simp [fillerByte, h, Nat.add_mod]

/-- Filler as it stands (big-endian) or with its bytes swapped pair by pair, but for an odd last byte. -/
def GivesFiller (be : Bool) (gain : Bytes) : Prop :=
  (be = true → ∀ j < gain.length, gain.getD j 0#8 = fillerByte j)
    ∧ (be = false → ∀ j < gain.length / 2 * 2, gain.getD j 0#8 = fillerByte (j + 1))

theorem givesFiller_nil (be : Bool) : GivesFiller be [] := ⟨fun _ => nofun, fun _ => nofun⟩

/-- Words of filler, one after the other. -/
theorem givesFiller_words {c : LayoutConfig} {l : List Nat} {g : Nat → Bytes}
    (hg : ∀ i ∈ l, g i = word16 c 0xFA#8 0xDE#8) : GivesFiller c.bigendian (l.flatMap g) := by
  constructor
  · intro hbe j hj
    exact flatMap_words_byteAt (fun i hi => (hg i hi).trans (if_pos hbe)) hj
  · intro hbe j hj
    rw [fillerByte_succ]
    exact flatMap_words_byteAt (fun i hi => (hg i hi).trans (if_neg (by simp [hbe]))) (by omega)

/-- A run of filler, swapped. -/
theorem givesFiller_swapRun {be : Bool} {d : Bytes} (hd : ∀ j < d.length, d.getD j 0#8 = fillerByte j) :
    GivesFiller be (swapRun be d) := by
  constructor
  · rintro rfl
    rwa [swapRun_true]
  · rintro rfl j hj
    rw [swapRun_length] at hj
    have hword := swapRun_word false d (j / 2) (by omega)
    rw [hd _ (by omega), hd _ (by omega)] at hword
    obtain ⟨h0, h1⟩ := byteAt_of_word hword
    rcases Nat.mod_two_eq_zero_or_one j with he | ho
    · rwa [show 2 * (j / 2) = j by omega] at h0
    · rw [show 2 * (j / 2) + 1 = j by omega] at h1
      refine h1.trans ?_
      simp [fillerByte, show (j + 1) % 2 = 0 by omega]

end Machine

/-- Settles O46: what leaves the front of each staging buffer is what the demultiplexer delivers. -/
theorem demuxOfMuxReturnsTheStagedBytes : Obligations.DemuxOfMuxReturnsTheStagedBytes := by
  unfold Obligations.DemuxOfMuxReturnsTheStagedBytes
  intro p s t hs ha hr hsup ht
  have htinv : t.Inv := muxNext_keeps_inv hs (exec_mux_next ht).2
  obtain ⟨hvalid, hcfg, hout, hstg⟩ : t.cle.valid = s.cle.valid ∧ t.cle.cfg = s.cle.cfg
      ∧ t.out = s.out.emitFrame (dataFrame p s)
      ∧ t.cle.stg = takeNeeded s.cle.cfg.n (p.need s) s.cle.stg := by
    obtain rfl := Host.Outcome.next.inj ((exec_mux_of_supplied hsup hr ha).symm.trans ht)
    exact ⟨rfl, rfl, rfl, rfl⟩
  obtain ⟨u, hx, hgain⟩ :=
    exec_dmx_dataFrame (v := t.withIssuer .Y) hs hr hsup htinv rfl (hvalid.trans hr.1) hcfg
  refine ⟨dataFrame p s, u, by rw [hout]; rfl, hx, fun c hc => ⟨takenOf p s c, ?_, ?_⟩⟩
  · rw [hstg, channel_takeNeeded, if_pos hc]
    exact (List.take_append_drop ..).symm
  · rw [hgain c hc, State.withIssuer_out, hout]
    rfl

/-- Settles O47: a word of the filler is delivered as one, a block or a row of it as it stands. -/
theorem demuxOfAnIdleFrameGivesFiller : Obligations.DemuxOfAnIdleFrameGivesFiller := by
  unfold Obligations.DemuxOfAnIdleFrameGivesFiller
  intro p f s t hs ha hr hl hfill ht c hc
  have hpl : f.length = s.cle.cfg.p0 + (s.cle.cfg.fl - s.cle.cfg.p0) :=
    hl.trans (Nat.add_sub_cancel' (Nat.le_of_lt (hs.p0_lt_fl hr.1))).symm
  have payloadByte (k j : Nat) (hj : k + j < s.cle.cfg.fl - s.cle.cfg.p0) :
      (f.drop (s.cle.cfg.p0 + k)).getD j 0#8 = fillerByte (k + j) := by
    rw [← hfill _ hj]
    simp [List.getD_eq_getElem?_getD, Nat.add_assoc]
  have row (hp : p = .row ∨ p = .rc) : ∃ gain, channel t.out.dout c = channel s.out.dout c ++ gain
      ∧ GivesFiller s.cle.cfg.bigendian gain := by
    have routed := demuxRowRoutesTheWholePayload p f s (channelOf p s.cle.cfg (decBe ((f.drop 4).take 2)))
      hs ha hr hl (hp.imp (fun h => ⟨h, by rw [h]; rfl⟩) (fun h => ⟨h, by rw [h]; rfl⟩))
    cases hch : channelOf p s.cle.cfg (decBe ((f.drop 4).take 2)) with
    | none =>
      obtain rfl := Host.Outcome.next.inj ((routed.1 hch).symm.trans ht)
      exact ⟨[], (List.append_nil _).symm, givesFiller_nil _⟩
    | some own =>
      obtain ⟨-, dout, hx, -, hgain, hother⟩ := routed.2 own hch
      obtain rfl := Host.Outcome.next.inj (hx.symm.trans ht)
      by_cases hco : c = own
      · rw [hco]
        refine ⟨_, hgain, givesFiller_swapRun fun j hj => ?_⟩
        have hbyte := payloadByte 0 j (by rw [List.length_drop] at hj; omega)
        rwa [Nat.add_zero, Nat.zero_add] at hbyte
      · exact ⟨[], (hother c hco).trans (List.append_nil _).symm, givesFiller_nil _⟩
  cases p with
  | xc =>
    obtain ⟨dout, hx, -, hgain, -⟩ := demuxColumnCrossRoutesWords f s hs ha hr.1 hl
    obtain rfl := Host.Outcome.next.inj (hx.symm.trans ht)
    have word : GivesFiller s.cle.cfg.bigendian _ := givesFiller_words (c := s.cle.cfg)
      (l := (List.range ((s.cle.cfg.fl - s.cle.cfg.p0) / 2)).filter (fun i => i % s.cle.cfg.n = c))
      (g := frameWord s.cle.cfg f) fun i hi => by
        have := List.mem_range.1 (List.mem_filter.1 hi).1
        rw [frameWord, hfill _ (by omega), Nat.add_assoc, hfill _ (by omega)]
        simp [fillerByte, Nat.add_mod]
    exact ⟨_, hgain c hc, nofun, fun _ => word.1, fun _ => word.2⟩
  | cc =>
    obtain ⟨dout, hx, -, hgain, -⟩ := demuxColumnContinuousRoutesBlocks f s hs ha hr.1 hl
    obtain rfl := Host.Outcome.next.inj (hx.symm.trans ht)
    refine ⟨_, hgain _ rfl c hc, fun _ j hj => ?_, (absurd rfl ·), (absurd rfl ·)⟩
    have hblocks : (c + 1) * ((s.cle.cfg.fl - s.cle.cfg.p0) / s.cle.cfg.n) ≤ s.cle.cfg.fl - s.cle.cfg.p0 :=
      Nat.le_trans (Nat.mul_le_mul_right _ hc) (Nat.mul_div_le ..)
    rw [Nat.succ_mul] at hblocks
    rw [List.length_take] at hj
    refine (byteAt_take (by omega)).trans (payloadByte _ j (by omega))
  | row =>
    obtain ⟨gain, hgain, hbe, hle⟩ := row (.inl rfl)
    exact ⟨gain, hgain, nofun, fun _ => hbe, fun _ => hle⟩
  | rc =>
    obtain ⟨gain, hgain, hbe, hle⟩ := row (.inr rfl)
    exact ⟨gain, hgain, nofun, fun _ => hbe, fun _ => hle⟩

end Sys2Proof
end
